-- ==== Sys2Proof/Word.lean ====
section
/-! DEFINITION. The word types of the Drone CORE: port words, binary64 and binary32 bit patterns. -/

namespace Sys2Proof

/-- One byte of a port word serialised (R51). -/
abbrev Byte := BitVec 8

/-- A command, operand or response word (R10, R62, R67). -/
abbrev Word := BitVec 32

/-- A 64-bit register value as `reg.rd` returns it (R44). -/
abbrev Word64 := BitVec 64

/-- The raw bits of one `INTERNAL_FMT` value, IEEE 754 binary64 (R8, R15, R44). -/
abbrev F64 := BitVec 64

/-- The raw bits of one output sample, IEEE 754 binary32 (R15, R122). -/
abbrev F32 := BitVec 32

end Sys2Proof
end

