-- ==== Sys2Proof/Syntax.lean ====
section
/-! DEFINITION. The commands: one constructor per row of spec/opcode_table.json (R69), their mnemonics, operation
codes and operand counts. Unsigned subfields are naturals and integer operands are integers, as R64 and R66 read
them; WellFormed says which fit their encoding. Real operands are binary64 bit patterns (R65). -/

namespace Sys2Proof

/-- The waveform kinds (R36, R78). -/
inductive WaveKind where
  | sine
  | triangle
  | saw
  | square
  deriving DecidableEq, Repr

/-- The 25 commands, operands in the order of R69 and R73. -/
inductive Instr where
  | nop
  | reset
  | clrErr
  | regRd (addr : Nat)
  | bufRd (index : Int)
  | oscSr (osc : Nat) (sr : F64)
  | oscFreq (osc : Nat) (f : F64)
  | oscPhase (osc : Nat) (p : F64)
  | oscKind (osc : Nat) (kind : WaveKind)
  | oscStep (osc : Nat)
  | synSetup (count : Nat) (note : Nat) (sr : F64)
  | synRetune (note : Nat)
  | synStep
  | fltSetup (sr carrierF cutLfoF baseCut resLfoF baseRes : F64)
  | fltStep (x : F64)
  | dlySize (n : Int)
  | dlyTime (d : Int)
  | dlyFb (f : F64)
  | dlyStep (x : F64)
  | panSetup (sr panF modF thr : F64)
  | panThr (t : F64)
  | panStep
  | mixGain (g : F64)
  | trgRange (lo hi : Nat)
  | process (n : Nat)
  deriving DecidableEq, Repr

end Sys2Proof
end

