-- ==== Sys2Proof/WellFormed.lean ====
section
/-! DEFINITION. Which instructions have an encoding: every operand fits its subfield or its operand word (R64, R66).
An operand outside a command's domain that still fits (an absent oscillator, a negative size) is well-formed: the
command's own rule rejects it at execution (R72). An operand that does not fit is refused by the assembler, which
emits no word for it (R73). -/

namespace Sys2Proof

/-- An integer operand fits one two's-complement word (R66). -/
def fitsS32 (i : Int) : Bool := decide (-2147483648 ≤ i) && decide (i ≤ 2147483647)

/-- An unsigned subfield of `bits` bits holds the value (R64). -/
def fitsBits (bits v : Nat) : Bool := decide (v < 2 ^ bits)

/-- Every operand of the instruction fits its place in the encoding (R64, R66). -/
def Instr.wellFormed : Instr → Bool
  | .nop => true
  | .reset => true
  | .clrErr => true
  | .regRd addr => fitsBits 16 addr
  | .bufRd index => fitsS32 index
  | .oscSr osc _ => fitsBits 8 osc
  | .oscFreq osc _ => fitsBits 8 osc
  | .oscPhase osc _ => fitsBits 8 osc
  | .oscKind osc _ => fitsBits 8 osc
  | .oscStep osc => fitsBits 8 osc
  | .synSetup count note _ => fitsBits 8 count && fitsBits 7 note
  | .synRetune note => fitsBits 7 note
  | .synStep => true
  | .fltSetup _ _ _ _ _ _ => true
  | .fltStep _ => true
  | .dlySize n => fitsS32 n
  | .dlyTime d => fitsS32 d
  | .dlyFb _ => true
  | .dlyStep _ => true
  | .panSetup _ _ _ _ => true
  | .panThr _ => true
  | .panStep => true
  | .mixGain _ => true
  | .trgRange lo hi => fitsBits 7 lo && fitsBits 7 hi
  | .process n => fitsBits 16 n

end Sys2Proof
end

