-- ==== Sys2Proof/Decode.lean ====
section
/-! DEFINITION. Decoding (R62 to R71): the fields of a command word, the rows of R69, a total decoder that refuses
every other word by name, the framing of the command stream (R63), the byte order of the port (R51), and after them
the encoder, written from the same rows. -/

namespace Sys2Proof

/-! ### Fields of a command word (R62, R64) -/

/-- `w[hi:lo]` as an unsigned integer (R10). -/
def bitField (w : Word) (hi lo : Nat) : Nat := w.toNat / 2 ^ lo % 2 ^ (hi + 1 - lo)

/-- OPC (R62). -/
def opcOf (w : Word) : Nat := bitField w 31 24

/-- LEN, the number of operand words that follow (R62, R63). -/
def lenOf (w : Word) : Nat := bitField w 23 20

/-- RSV, which must be 0 (R62). -/
def rsvOf (w : Word) : Nat := bitField w 19 16

/-! ### Operand forms (R65, R66) -/

/-- `{hi, lo}`: a 64-bit value of two words, the low word first (R65). -/
def joinWords (lo hi : Word) : Word64 := BitVec.ofNat 64 (2 ^ 32 * hi.toNat + lo.toNat)

/-- Bits [31:0] of a 64-bit value. -/
def lowWord (v : Word64) : Word := BitVec.ofNat 32 v.toNat

/-- Bits [63:32] of a 64-bit value. -/
def highWord (v : Word64) : Word := BitVec.ofNat 32 (v.toNat / 2 ^ 32)

/-- The real operand that starts at operand word `j` (R65). -/
def realAt (ops : List Word) (j : Nat) : F64 := joinWords (ops.getD j 0) (ops.getD (j + 1) 0)

/-- A word read as a two's-complement integer, `s32` (R11). -/
def s32 (w : Word) : Int := if w.toNat < 2 ^ 31 then (w.toNat : Int) else (w.toNat : Int) - 2 ^ 32

/-- The integer operand at operand word `j` (R66). -/
def intAt (ops : List Word) (j : Nat) : Int := s32 (ops.getD j 0)

/-- The waveform kind of a 2-bit field (R64). -/
def kindOfNat : Nat → WaveKind
  | 0 => .sine
  | 1 => .triangle
  | 2 => .saw
  | _ => .square

/-- The 2-bit code of a waveform kind (R36, R64). -/
def kindCode : WaveKind → Nat
  | .sine => 0
  | .triangle => 1
  | .saw => 2
  | .square => 3

/-! ### The rows of R69 -/

/-- One row of R69: the LEN, the word and the mask, and the command its operands make. -/
structure Row where
  len   : Nat
  word  : Word
  mask  : Word
  build : Word → List Word → Instr

/-- A command word is this row's command exactly when `(w & mask) == word` (R69). -/
def Row.accepts (r : Row) (w : Word) : Bool := w &&& r.mask == r.word

/-- System commands, OPC 0x0_ (R69). -/
def systemRows : List Row :=
  [ { len := 0, word := 0x00000000#32, mask := 0xFFFFFFFF#32, build := fun _ _ => .nop },
    { len := 0, word := 0x01000000#32, mask := 0xFFFFFFFF#32, build := fun _ _ => .reset },
    { len := 0, word := 0x02000000#32, mask := 0xFFFFFFFF#32, build := fun _ _ => .clrErr },
    { len := 0, word := 0x03000000#32, mask := 0xFFFF0000#32, build := fun w _ => .regRd (bitField w 15 0) },
    { len := 1, word := 0x04100000#32, mask := 0xFFFFFFFF#32, build := fun _ ops => .bufRd (intAt ops 0) } ]

/-- Oscillator commands, OPC 0x1_ (R69). -/
def oscillatorRows : List Row :=
  [ { len := 2, word := 0x10200000#32, mask := 0xFFFFFF00#32,
      build := fun w ops => .oscSr (bitField w 7 0) (realAt ops 0) },
    { len := 2, word := 0x11200000#32, mask := 0xFFFFFF00#32,
      build := fun w ops => .oscFreq (bitField w 7 0) (realAt ops 0) },
    { len := 2, word := 0x12200000#32, mask := 0xFFFFFF00#32,
      build := fun w ops => .oscPhase (bitField w 7 0) (realAt ops 0) },
    { len := 0, word := 0x13000000#32, mask := 0xFFFFFC00#32,
      build := fun w _ => .oscKind (bitField w 7 0) (kindOfNat (bitField w 9 8)) },
    { len := 0, word := 0x14000000#32, mask := 0xFFFFFF00#32, build := fun w _ => .oscStep (bitField w 7 0) } ]

/-- Additive synth commands, OPC 0x2_ (R69). -/
def synthRows : List Row :=
  [ { len := 2, word := 0x20200000#32, mask := 0xFFFF0080#32,
      build := fun w ops => .synSetup (bitField w 15 8) (bitField w 6 0) (realAt ops 0) },
    { len := 0, word := 0x21000000#32, mask := 0xFFFFFF80#32, build := fun w _ => .synRetune (bitField w 6 0) },
    { len := 0, word := 0x22000000#32, mask := 0xFFFFFFFF#32, build := fun _ _ => .synStep } ]

/-- Filter modulator commands, OPC 0x3_ (R69). -/
def filterRows : List Row :=
  [ { len := 12, word := 0x30C00000#32, mask := 0xFFFFFFFF#32,
      build := fun _ ops =>
        .fltSetup (realAt ops 0) (realAt ops 2) (realAt ops 4) (realAt ops 6) (realAt ops 8) (realAt ops 10) },
    { len := 2, word := 0x31200000#32, mask := 0xFFFFFFFF#32, build := fun _ ops => .fltStep (realAt ops 0) } ]

/-- Delay line commands, OPC 0x4_ (R69). -/
def delayRows : List Row :=
  [ { len := 1, word := 0x40100000#32, mask := 0xFFFFFFFF#32, build := fun _ ops => .dlySize (intAt ops 0) },
    { len := 1, word := 0x41100000#32, mask := 0xFFFFFFFF#32, build := fun _ ops => .dlyTime (intAt ops 0) },
    { len := 2, word := 0x42200000#32, mask := 0xFFFFFFFF#32, build := fun _ ops => .dlyFb (realAt ops 0) },
    { len := 2, word := 0x43200000#32, mask := 0xFFFFFFFF#32, build := fun _ ops => .dlyStep (realAt ops 0) } ]

/-- Panner commands, OPC 0x5_ (R69). -/
def pannerRows : List Row :=
  [ { len := 8, word := 0x50800000#32, mask := 0xFFFFFFFF#32,
      build := fun _ ops => .panSetup (realAt ops 0) (realAt ops 2) (realAt ops 4) (realAt ops 6) },
    { len := 2, word := 0x51200000#32, mask := 0xFFFFFFFF#32, build := fun _ ops => .panThr (realAt ops 0) },
    { len := 0, word := 0x52000000#32, mask := 0xFFFFFFFF#32, build := fun _ _ => .panStep } ]

/-- Pipeline and mixer commands, OPC 0x6_ (R69). -/
def pipelineRows : List Row :=
  [ { len := 2, word := 0x60200000#32, mask := 0xFFFFFFFF#32, build := fun _ ops => .mixGain (realAt ops 0) },
    { len := 0, word := 0x61000000#32, mask := 0xFFFF8080#32,
      build := fun w _ => .trgRange (bitField w 6 0) (bitField w 14 8) },
    { len := 0, word := 0x62000000#32, mask := 0xFFFF0000#32, build := fun w _ => .process (bitField w 15 0) } ]

/-- Every legal command (R69). -/
def rows : List Row :=
  systemRows ++ oscillatorRows ++ synthRows ++ filterRows ++ delayRows ++ pannerRows ++ pipelineRows

/-- The row a command word matches, if any (R70). -/
def rowOf (w : Word) : Option Row := rows.find? (fun r => r.accepts w)

/-! ### The decoder -/

/-- Why a command is no legal command (R71). Each of the first four raises CMD_ILLEGAL. -/
inductive Illegal where
  /-- The OPC is in no row of R69. -/
  | unknownOpc
  /-- The LEN is not the row's LEN. -/
  | wrongLen
  /-- RSV is not 0. -/
  | rsvNonzero
  /-- A reserved bit of IMM16 is set. -/
  | reservedImm
  /-- The list does not hold exactly LEN operand words; the sequencer never decodes such a list (R63). -/
  | operandCount
  deriving DecidableEq, Repr

/-- The name of what is wrong with a word that matches no row (R71). -/
def illegalReason (w : Word) : Illegal :=
  match rows.find? (fun r => opcOf r.word == opcOf w) with
  | none => .unknownOpc
  | some r => if r.len ≠ lenOf w then .wrongLen else if rsvOf w ≠ 0 then .rsvNonzero else .reservedImm

/-- `decode(w, operands)` (R70): the command of a command word and the LEN operand words after it. -/
def decode (w : Word) (ops : List Word) : Except Illegal Instr :=
  match rowOf w with
  | none => .error (illegalReason w)
  | some r => if ops.length = r.len then .ok (r.build w ops) else .error .operandCount

/-- Framing (R63): the next command word, its LEN operand words and the rest of the stream, once all of them have
arrived. -/
def splitCommand : List Word → Option (Word × List Word × List Word)
  | [] => none
  | w :: rest =>
    if rest.length < lenOf w then none else some (w, rest.take (lenOf w), rest.drop (lenOf w))

/-- The whole commands at the head of a stream, at most `fuel` of them (R63). -/
def wholeWithin : Nat → List Word → List Word
  | 0, _ => []
  | fuel + 1, ws =>
    match splitCommand ws with
    | none => []
    | some (w, ops, rest) => w :: (ops ++ wholeWithin fuel rest)

/-- A stream without the words of a last command whose operand words have not all arrived (R63). -/
def wholeCommands (ws : List Word) : List Word := wholeWithin ws.length ws

/-! ### Port words as bytes (R51) -/

/-- A port word as four bytes, bits [7:0] first (R51). -/
def bytesOfWord (w : Word) : List Byte :=
  [BitVec.ofNat 8 w.toNat, BitVec.ofNat 8 (w.toNat / 2 ^ 8), BitVec.ofNat 8 (w.toNat / 2 ^ 16),
    BitVec.ofNat 8 (w.toNat / 2 ^ 24)]

/-- Port words as bytes, in order (R51). -/
def bytesOfWords (ws : List Word) : List Byte := ws.flatMap bytesOfWord

/-- The port words a byte stream carries; a last group of fewer than four bytes is no word yet (R51, R52). -/
def wordsOfBytes : List Byte → List Word
  | b0 :: b1 :: b2 :: b3 :: rest =>
    BitVec.ofNat 32 (b0.toNat + (2 ^ 8 * b1.toNat + (2 ^ 16 * b2.toNat + 2 ^ 24 * b3.toNat))) :: wordsOfBytes rest
  | _ => []

/-- The decoder on bytes: the first whole command of the byte stream, and the words after it. `none` while the
command is incomplete. -/
def decodeBytes (bs : List Byte) : Option (Except Illegal Instr × List Word) :=
  match splitCommand (wordsOfBytes bs) with
  | none => none
  | some (w, ops, rest) => some (decode w ops, rest)

/-! ### The encoder -/

/-- An unsigned subfield of `bits` bits put at bit `lo` (R64). -/
def putField (bits lo v : Nat) : Nat := 2 ^ lo * (v % 2 ^ bits)

/-- An integer operand as one two's-complement word (R66). -/
def intWord (i : Int) : Word := BitVec.ofInt 32 i

/-- A real operand as two words, low word first (R65). -/
def realWords (r : F64) : List Word := [lowWord r, highWord r]

/-- The command word of an instruction (R69: the row's word with the named subfields filled in). -/
def commandWord : Instr → Word
  | .nop => 0x00000000#32
  | .reset => 0x01000000#32
  | .clrErr => 0x02000000#32
  | .regRd addr => BitVec.ofNat 32 (0x03000000 + putField 16 0 addr)
  | .bufRd _ => 0x04100000#32
  | .oscSr osc _ => BitVec.ofNat 32 (0x10200000 + putField 8 0 osc)
  | .oscFreq osc _ => BitVec.ofNat 32 (0x11200000 + putField 8 0 osc)
  | .oscPhase osc _ => BitVec.ofNat 32 (0x12200000 + putField 8 0 osc)
  | .oscKind osc kind => BitVec.ofNat 32 (0x13000000 + (putField 8 0 osc + putField 2 8 (kindCode kind)))
  | .oscStep osc => BitVec.ofNat 32 (0x14000000 + putField 8 0 osc)
  | .synSetup count note _ => BitVec.ofNat 32 (0x20200000 + (putField 7 0 note + putField 8 8 count))
  | .synRetune note => BitVec.ofNat 32 (0x21000000 + putField 7 0 note)
  | .synStep => 0x22000000#32
  | .fltSetup _ _ _ _ _ _ => 0x30C00000#32
  | .fltStep _ => 0x31200000#32
  | .dlySize _ => 0x40100000#32
  | .dlyTime _ => 0x41100000#32
  | .dlyFb _ => 0x42200000#32
  | .dlyStep _ => 0x43200000#32
  | .panSetup _ _ _ _ => 0x50800000#32
  | .panThr _ => 0x51200000#32
  | .panStep => 0x52000000#32
  | .mixGain _ => 0x60200000#32
  | .trgRange lo hi => BitVec.ofNat 32 (0x61000000 + (putField 7 0 lo + putField 7 8 hi))
  | .process n => BitVec.ofNat 32 (0x62000000 + putField 16 0 n)

/-- The operand words of an instruction, in the order of R69. -/
def operandWords : Instr → List Word
  | .nop => []
  | .reset => []
  | .clrErr => []
  | .regRd _ => []
  | .bufRd index => [intWord index]
  | .oscSr _ sr => realWords sr
  | .oscFreq _ f => realWords f
  | .oscPhase _ p => realWords p
  | .oscKind _ _ => []
  | .oscStep _ => []
  | .synSetup _ _ sr => realWords sr
  | .synRetune _ => []
  | .synStep => []
  | .fltSetup sr carrierF cutLfoF baseCut resLfoF baseRes =>
    realWords sr ++ realWords carrierF ++ realWords cutLfoF ++ realWords baseCut ++ realWords resLfoF
      ++ realWords baseRes
  | .fltStep x => realWords x
  | .dlySize n => [intWord n]
  | .dlyTime d => [intWord d]
  | .dlyFb f => realWords f
  | .dlyStep x => realWords x
  | .panSetup sr panF modF thr => realWords sr ++ realWords panF ++ realWords modF ++ realWords thr
  | .panThr t => realWords t
  | .panStep => []
  | .mixGain g => realWords g
  | .trgRange _ _ => []
  | .process _ => []

/-- The words of a well-formed instruction; no word for one whose operand does not fit (R69, R73). -/
def encode (i : Instr) : List Word :=
  if i.wellFormed then commandWord i :: operandWords i else []

/-! ### The opcode table's words -/

/-- The words of the instruction whose bits are the low `nbits` bits of `w`, bit 0 the least significant bit of the
first word, with a zero for every bit above them: the command word and its LEN operand words (R63). -/
def tableWords (nbits w : Nat) : List Word :=
  let bits := w % 2 ^ nbits
  let first : Word := BitVec.ofNat 32 bits
  first :: (List.range (lenOf first)).map (fun j => BitVec.ofNat 32 (bits / 2 ^ (32 * (j + 1))))

/-- What the decoder reads from those words, laid out as the port's bytes (R51). -/
def decodeTableWord (nbits w : Nat) : Option Instr :=
  match decodeBytes (bytesOfWords (tableWords nbits w)) with
  | some (.ok i, _) => some i
  | _ => none

end Sys2Proof
end

