-- ==== Sys2Proof/Config.lean ====
section
/-! DEFINITION. The parameters of R8 that are plain data, with their defaults, and the free values the spec leaves
open: the random source's answers (R119) and the bits of a NaN result (R15). -/

namespace Sys2Proof

/-- What "crosses above zero" means (R8, R120). -/
inductive TrigMode where
  | edge
  | level
  deriving DecidableEq, Repr

/-- The order of the two advances of a panner step (R8, R113). -/
inductive PanOrder where
  | a
  | b
  deriving DecidableEq, Repr

/-- The build parameters that are plain data (R8). They are fixed for a machine; registers PARAM and CAPACITY report
them (R34). Assumption 5. -/
structure Params where
  maxHarm       : Nat
  delayCapacity : Nat
  trigMode      : TrigMode
  panOrder      : PanOrder
  deriving DecidableEq, Repr

/-- The operations whose result may be a NaN. -/
inductive FpOp where
  | add
  | sub
  | mul
  | div
  | sin
  | exp2
  | tan
  | cvt
  deriving DecidableEq, Repr

namespace Config

/-- The default parameters of R8. -/
def params : Params :=
  { maxHarm := 16, delayCapacity := 65536, trigMode := .edge, panOrder := .a }

/-- FREE VALUE (R119, 93 I9; assumption 3): the answer of the random-source port to the j-th draw, where the state
writes none down. No law. -/
opaque randomDraw : Nat → Word

/-- FREE VALUE (R15; assumption 9): the sign and the 51 low fraction bits of the quiet NaN an operation gives on
these operands. -/
opaque nanBits : FpOp → F64 → F64 → BitVec 52

/-- FREE VALUE (R15; assumption 9): the sign and the 22 low fraction bits of the quiet binary32 NaN that the
conversion gives. -/
opaque nanBits32 : F64 → BitVec 23

end Config

end Sys2Proof
end

