-- ==== Sys2Proof/Machine/Float.lean ====
section
/-! DEFINITION. IEEE 754 arithmetic on `INTERNAL_FMT` = binary64 bit patterns, and the conversion to binary32 (R15,
R16, R17). A value is read as an exact whole number of units of 2^−1074, the operation is done exactly, and one
function rounds the exact result to nearest, ties to even. The operations are irreducible to the elaborator only: no
unification looks into their arithmetic, and the kernel evaluates them. -/

namespace Sys2Proof.Machine

/-! ### Constants (R16) -/

def cZero : F64 := 0x0000000000000000#64
def cQuarter : F64 := 0x3FD0000000000000#64
def cHalf : F64 := 0x3FE0000000000000#64
def cOne : F64 := 0x3FF0000000000000#64
def cTwo : F64 := 0x4000000000000000#64
def cThree : F64 := 0x4008000000000000#64
def cTwelve : F64 := 0x4028000000000000#64
def c69 : F64 := 0x4051400000000000#64
def c440 : F64 := 0x407B800000000000#64
def c500 : F64 := 0x407F400000000000#64
/-- 0.55 (R16). -/
def c055 : F64 := 0x3FE199999999999A#64
/-- 0.77 (R16). -/
def c077 : F64 := 0x3FE8A3D70A3D70A4#64
/-- PI (R16). -/
def cPi : F64 := 0x400921FB54442D18#64
/-- TWO_PI (R16). -/
def cTwoPi : F64 := 0x401921FB54442D18#64
/-- +infinity. -/
def cInf : F64 := 0x7FF0000000000000#64

/-! ### Reading a bit pattern -/

/-- The biased exponent, bits [62:52]. -/
def expField (x : F64) : Nat := x.toNat / 2 ^ 52 % 2 ^ 11

/-- The fraction, bits [51:0]. -/
def fracField (x : F64) : Nat := x.toNat % 2 ^ 52

/-- The sign bit. -/
def isNeg (x : F64) : Bool := decide (2 ^ 63 ≤ x.toNat)

/-- The value is a NaN. -/
def isNaN (x : F64) : Bool := expField x == 2047 && fracField x != 0

/-- The value is an infinity. -/
def isInf (x : F64) : Bool := expField x == 2047 && fracField x == 0

/-- `finite(v)`: neither an infinity nor a NaN (R17). -/
def finite (x : F64) : Bool := expField x != 2047

/-- The magnitude in units of 2^−1074. Read the same way, an infinity is 2^2098 units, above every finite value. -/
def units (x : F64) : Nat :=
  if expField x = 0 then fracField x else (2 ^ 52 + fracField x) * 2 ^ (expField x - 1)

/-- The value in units of 2^−1074, signed. -/
def signedUnits (x : F64) : Int := if isNeg x then -(units x : Int) else (units x : Int)

/-! ### Rounding -/

/-- The whole number nearest to `num / den`, ties to even. -/
def roundNearest (num den : Nat) : Nat :=
  let q := num / den
  let r := num % den
  if den < 2 * r ∨ (2 * r = den ∧ q % 2 = 1) then q + 1 else q

/-- The magnitude bits of the value nearest to `num / den` units of the smallest subnormal, ties to even, in a format
of `prec` significant bits whose infinity has the magnitude bits `top`. The units are scaled by 2^s until `prec` bits
remain; consecutive values of the format have consecutive bits, so `2^(prec-1) * s` plus the rounded significand are
the bits, a carry included, and overflow gives `top`. -/
def roundBits (prec top num den : Nat) : Nat :=
  let s := Nat.log2 (num / den) + 1 - prec
  min (2 ^ (prec - 1) * s + roundNearest num (den * 2 ^ s)) top

/-- The binary64 with this sign and these magnitude bits. -/
def pack (neg : Bool) (bits : Nat) : F64 := BitVec.ofNat 64 ((if neg then 2 ^ 63 else 0) + bits)

/-- The binary64 nearest to plus or minus `num / den` units of 2^−1074, ties to even (R15). -/
def roundF64 (neg : Bool) (num den : Nat) : F64 := pack neg (roundBits 53 (2047 * 2 ^ 52) num den)

/-- The quiet NaN of an operation: which one, IEEE 754 leaves open (assumption 9). -/
def nanOf (op : FpOp) (x y : F64) : F64 :=
  let free := (Config.nanBits op x y).toNat
  BitVec.ofNat 64 (2 ^ 63 * (free / 2 ^ 51) + (4095 * 2 ^ 51 + free % 2 ^ 51))

/-! ### Sign operations -/

/-- The value with its sign changed. -/
def fNeg (x : F64) : F64 := x ^^^ 0x8000000000000000#64

/-- `abs(v)` clears the sign (R15). -/
def fAbs (x : F64) : F64 := x &&& 0x7FFFFFFFFFFFFFFF#64

/-! ### Arithmetic (R15) -/

/-- The sum, or `none` for an invalid operation: a NaN operand, or infinities of opposite sign. -/
def addCore (x y : F64) : Option F64 :=
  if isNaN x || isNaN y then none
  else if isInf x then (if isInf y && isNeg x != isNeg y then none else some x)
  else if isInf y then some y
  else
    let z := signedUnits x + signedUnits y
    some (if z = 0 then pack (isNeg x && isNeg y) 0 else roundF64 (decide (z < 0)) z.natAbs 1)

/-- `x + y` (R15). -/
@[irreducible] def fAdd (x y : F64) : F64 := (addCore x y).getD (nanOf .add x y)

/-- `x − y` (R15): the sum of `x` and `y` with its sign changed. -/
@[irreducible] def fSub (x y : F64) : F64 := (addCore x (fNeg y)).getD (nanOf .sub x y)

/-- The product, or `none` for an invalid operation: a NaN operand, or zero times infinity. -/
def mulCore (x y : F64) : Option F64 :=
  let neg := isNeg x != isNeg y
  if isNaN x || isNaN y then none
  else if isInf x || isInf y then
    (if units x = 0 ∨ units y = 0 then none else some (pack neg (2047 * 2 ^ 52)))
  else some (roundF64 neg (units x * units y) (2 ^ 1074))

/-- `x × y` (R15). -/
@[irreducible] def fMul (x y : F64) : F64 := (mulCore x y).getD (nanOf .mul x y)

/-- The quotient, or `none` for an invalid operation: a NaN operand, zero by zero, or infinity by infinity. -/
def divCore (x y : F64) : Option F64 :=
  let neg := isNeg x != isNeg y
  if isNaN x || isNaN y then none
  else if isInf x then (if isInf y then none else some (pack neg (2047 * 2 ^ 52)))
  else if isInf y then some (pack neg 0)
  else if units y = 0 then (if units x = 0 then none else some (pack neg (2047 * 2 ^ 52)))
  else some (roundF64 neg (2 ^ 1074 * units x) (units y))

/-- `x / y` (R15). -/
@[irreducible] def fDiv (x y : F64) : F64 := (divCore x y).getD (nanOf .div x y)

/-! ### Comparisons: false when an operand is a NaN (R15) -/

/-- `x < y`. -/
def fLt (x y : F64) : Bool := !isNaN x && !isNaN y && decide (signedUnits x < signedUnits y)

/-- `x ≤ y`. -/
def fLe (x y : F64) : Bool := !isNaN x && !isNaN y && decide (signedUnits x ≤ signedUnits y)

/-- `x > y`. -/
def fGt (x y : F64) : Bool := fLt y x

/-- `x ≥ y`. -/
def fGe (x y : F64) : Bool := fLe y x

/-! ### Conversions (R15) -/

/-- `f64(n)`: the binary64 of an integer; exact up to 2^53. -/
@[irreducible] def fOfNat (n : Nat) : F64 := roundF64 false (2 ^ 1074 * n) 1

/-- `to_f32(v)`: the binary32 nearest to a binary64, ties to even; overflow gives an infinity (R15, R122). -/
@[irreducible] def toF32 (x : F64) : F32 :=
  let sign := if isNeg x then 2 ^ 31 else 0
  if isNaN x then
    let free := (Config.nanBits32 x).toNat
    BitVec.ofNat 32 (2 ^ 31 * (free / 2 ^ 22) + (511 * 2 ^ 22 + free % 2 ^ 22))
  else if isInf x then BitVec.ofNat 32 (sign + 255 * 2 ^ 23)
  else BitVec.ofNat 32 (sign + roundBits 24 (255 * 2 ^ 23) (units x) (2 ^ 925))

end Sys2Proof.Machine
end

