-- ==== Sys2Proof/Machine/State.lean ====
section
/-! DEFINITION. The state of the Drone CORE (10_state.md), the reasons a step can stop, and the state after reset
(R47). Plain data only. -/

namespace Sys2Proof.Machine

/-! ### The oscillator bank (R35, R36) -/

/-- One phase oscillator (R36). -/
structure Osc where
  sr    : F64
  freq  : F64
  delta : F64
  phase : F64
  kind  : WaveKind
  srv   : Bool
  fqv   : Bool
  deriving DecidableEq, Repr

/-- The bank: oscillators 0 to 5 by name, and oscillator 8+i at position i of `harm` (R35). -/
structure Bank where
  pulse   : Osc
  carrier : Osc
  lfoCut  : Osc
  lfoRes  : Osc
  pan     : Osc
  pmod    : Osc
  harm    : List Osc
  deriving DecidableEq, Repr

/-! ### Units and registers -/

/-- The error record: STATUS.ERR, STATUS.MULTI, STATUS.CAUSE and ERRCMD (R24, R25, R134). -/
structure ErrRecord where
  err    : Bool
  multi  : Bool
  cause  : BitVec 8
  errcmd : Word
  deriving DecidableEq, Repr

/-- The CFG bits that are stored here; PFREQ and PSR mirror oscillator 0's flags (R26). -/
structure CfgBits where
  syn   : Bool
  flt   : Bool
  dsize : Bool
  dtime : Bool
  dfb   : Bool
  pan   : Bool
  gain  : Bool
  range : Bool
  deriving DecidableEq, Repr

/-- TRIG.PREV_VALID and TRIG_PREV (R31, R32). -/
structure Trigger where
  prevValid : Bool
  prev      : F64
  deriving DecidableEq, Repr

/-- SYN_COUNT and SYN_NOTE (R38, R39). -/
structure SynRegs where
  count : Word
  note  : Word
  deriving DecidableEq, Repr

/-- The five coefficients FLT_B0, FLT_B1, FLT_B2, FLT_A1, FLT_A2 (R40). -/
structure Coef where
  b0 : F64
  b1 : F64
  b2 : F64
  a1 : F64
  a2 : F64
  deriving DecidableEq, Repr

/-- The filter modulator's registers (R40). -/
structure FltRegs where
  sr      : F64
  baseCut : F64
  baseRes : F64
  cutoff  : F64
  reson   : F64
  coef    : Coef
  s1      : F64
  s2      : F64
  deriving DecidableEq, Repr

/-- The delay line's registers (R41). -/
structure DlyRegs where
  size : Word
  wp   : Word
  rp   : Word
  time : Word
  fb   : F64
  deriving DecidableEq, Repr

/-- One listed cell of the delay buffer: its index and its sample (R48: the unit is one whole sample). -/
abbrev Cell := Nat × F64

/-- The delay buffer BUF: the listed cells, indices strictly rising; an unlisted cell reads +0.0 (R42, R109;
assumption 11). -/
abbrev Memory := List Cell

/-- The panner's registers (R43). -/
structure PanRegs where
  thr : F64
  gr  : F64
  gl  : F64
  deriving DecidableEq, Repr

/-- What the reset input does during the next step (R148; assumption 4). -/
inductive ResetPin where
  /-- The pin is not asserted. -/
  | released
  /-- The pin is asserted before the next command word is taken. -/
  | betweenCommands
  /-- The pin is asserted while the next command executes, once `words` words of its response are out. In PROCESS,
  `inStep` says that the sample step after those words has begun, so that its draw, if any, is consumed. While the
  command still waits for operand words, those that arrived are dropped with it. -/
  | during (words : Nat) (inStep : Bool)
  deriving DecidableEq, Repr

/-- The block's ports. `cmd`: the words the host sends, in order, from the position it holds (R3, R23; assumption 1).
`resp`: the words the block has sent, oldest first (R67; assumption 2). `rand`: the values the random-source port
will supply, as far as they are written down, and `drawn`, how many it has supplied (R119; assumption 3). `pin`: the
reset input (R148; assumption 4). -/
structure Ports where
  cmd   : List Word
  resp  : List Word
  rand  : List Word
  drawn : Nat
  pin   : ResetPin
  deriving DecidableEq, Repr

/-- The whole state (10_state.md). -/
structure State where
  params  : Params
  record  : ErrRecord
  cfg     : CfgBits
  samples : BitVec 64
  gain    : F64
  range   : Word
  trig    : Trigger
  bank    : Bank
  syn     : SynRegs
  flt     : FltRegs
  dly     : DlyRegs
  buf     : Memory
  pan     : PanRegs
  ports   : Ports
  deriving DecidableEq, Repr

/-! ### Why a step can stop -/

/-- The only fault. -/
inductive Fault where
  /-- Raised by `dly.step` and `process` when DLY_RP or DLY_WP names a cell at or above DLY_SIZE: such a cell is not
  present (R48, R50). Safe: the machine stops; no state that keeps R105's invariant raises it (assumption 12). -/
  | absentCell (index : Nat)
  deriving DecidableEq, Repr

/-- The block refuses no command: it rejects, which is a next state (R132). -/
inductive Refusal where
  /-- Raised by an arm of `exec` whose instruction has no meaning yet. Safe: the machine stops. No arm raises it. -/
  | notModelled (mnemonic : String)
  deriving DecidableEq, Repr

/-! ### Reset (R47) -/

/-- An oscillator after reset (R47): every field +0.0 or 0, KIND as given. -/
def Osc.reset (kind : WaveKind) : Osc :=
  { sr := 0, freq := 0, delta := 0, phase := 0, kind := kind, srv := false, fqv := false }

/-- The bank after reset: square, triangle, and sine for every other; MAX_HARM harmonics (R35, R47). -/
def Bank.reset (maxHarm : Nat) : Bank :=
  { pulse := Osc.reset .square, carrier := Osc.reset .triangle, lfoCut := Osc.reset .sine,
    lfoRes := Osc.reset .sine, pan := Osc.reset .sine, pmod := Osc.reset .sine,
    harm := List.replicate maxHarm (Osc.reset .sine) }

/-- STATUS and ERRCMD after reset (R47). -/
def ErrRecord.reset : ErrRecord := { err := false, multi := false, cause := 0, errcmd := 0 }

/-- CFG after reset (R47). -/
def CfgBits.reset : CfgBits :=
  { syn := false, flt := false, dsize := false, dtime := false, dfb := false, pan := false, gain := false,
    range := false }

/-- Coefficients of +0.0 (R47, R103). -/
def Coef.zero : Coef := { b0 := 0, b1 := 0, b2 := 0, a1 := 0, a2 := 0 }

/-- The filter registers after reset (R47). -/
def FltRegs.reset : FltRegs :=
  { sr := 0, baseCut := 0, baseRes := 0, cutoff := 0, reson := 0, coef := Coef.zero, s1 := 0, s2 := 0 }

/-- The delay registers after reset (R47). -/
def DlyRegs.reset : DlyRegs := { size := 0, wp := 0, rp := 0, time := 0, fb := 0 }

/-- The panner registers after reset (R47). -/
def PanRegs.reset : PanRegs := { thr := 0, gr := 0, gl := 0 }

/-- Every register at its value of R47, for a block built with these parameters and with these streams at its ports. -/
def State.cleared (params : Params) (ports : Ports) : State :=
  { params := params, record := ErrRecord.reset, cfg := CfgBits.reset, samples := 0, gain := 0, range := 0,
    trig := { prevValid := false, prev := 0 }, bank := Bank.reset params.maxHarm, syn := { count := 0, note := 0 },
    flt := FltRegs.reset, dly := DlyRegs.reset, buf := [], pan := PanRegs.reset, ports := ports }

/-- Ports on which nothing has happened yet (assumptions 1 to 4). -/
def Ports.quiet : Ports := { cmd := [], resp := [], rand := [], drawn := 0, pin := .released }

/-- The machine right after reset (R47, R148: power-on is a reset), built with the default parameters of R8. -/
def State.reset : State := State.cleared Config.params Ports.quiet

end Sys2Proof.Machine
end

