-- ==== Sys2Proof/Machine/Ops.lean ====
section
/-! DEFINITION. The shared operations: the delay buffer (R42, R48), the oscillator bank (R35), the random-source port
(R119), responses (R67, R68), the rejection and its clearing (R129, R132 to R137), reset (R147), and the one shape
every command has: its checks in order, then its effect (R132, R136). -/

namespace Sys2Proof.Machine

/-! ### The delay buffer -/

/-- What an unlisted cell reads as: DLY_SIZE sets every present cell to +0.0 (R109; assumption 11). -/
def memUnlisted : F64 := cZero

/-- `MemRead(i, 1)` (R13). -/
def memRead : Memory → Nat → F64
  | [], _ => memUnlisted
  | (j, v) :: rest, i => if j = i then v else memRead rest i

/-- `MemWrite(i, 1, v)` (R13), keeping the canonical form. -/
def memWrite : Memory → Nat → F64 → Memory
  | [], i, v => if v = memUnlisted then [] else [(i, v)]
  | (j, u) :: rest, i, v =>
    if i < j then (if v = memUnlisted then (j, u) :: rest else (i, v) :: (j, u) :: rest)
    else if i = j then (if v = memUnlisted then rest else (i, v) :: rest)
    else (j, u) :: memWrite rest i v

/-- Indices at least `lo` and strictly rising, and no listed cell that an unlisted one would read the same as. -/
def memWfFrom : Nat → Memory → Bool
  | _, [] => true
  | lo, (i, v) :: rest => decide (lo ≤ i) && v != memUnlisted && memWfFrom (i + 1) rest

/-- The canonical form of the buffer. -/
def Memory.wf (m : Memory) : Bool := memWfFrom 0 m

/-! ### The oscillator bank (R12, R35) -/

/-- Oscillator `k`, if it is present: `k ≤ 5`, or `8 ≤ k < 8 + SYN_COUNT` (R35). -/
def osc? (s : State) (k : Nat) : Option Osc :=
  match k with
  | 0 => some s.bank.pulse
  | 1 => some s.bank.carrier
  | 2 => some s.bank.lfoCut
  | 3 => some s.bank.lfoRes
  | 4 => some s.bank.pan
  | 5 => some s.bank.pmod
  | 6 => none
  | 7 => none
  | j + 8 => if j < s.syn.count.toNat then s.bank.harm[j]? else none

/-- The bank with oscillator `k` replaced. -/
def Bank.setOsc (b : Bank) (k : Nat) (o : Osc) : Bank :=
  match k with
  | 0 => { b with pulse := o }
  | 1 => { b with carrier := o }
  | 2 => { b with lfoCut := o }
  | 3 => { b with lfoRes := o }
  | 4 => { b with pan := o }
  | 5 => { b with pmod := o }
  | 6 => b
  | 7 => b
  | j + 8 => { b with harm := b.harm.set j o }

/-! ### Ports -/

/-- `RandDraw()` (R119): the next value of the random-source port, and the ports after it. -/
def randDraw (p : Ports) : Word × Ports :=
  match p.rand with
  | r :: rest => (r, { p with rand := rest, drawn := p.drawn + 1 })
  | [] => (Config.randomDraw p.drawn, { p with drawn := p.drawn + 1 })

/-- The block sends words on its response port (R67). -/
def send (ws : List Word) (s : State) : State := { s with ports := { s.ports with resp := s.ports.resp ++ ws } }

/-- The response word to command word `w` (R67). -/
def responseWord (w : Word) (rej : Bool) (cause : BitVec 8) : Word :=
  BitVec.ofNat 32 (2 ^ 24 * opcOf w + ((if rej then 2 ^ 15 else 0) + cause.toNat))

/-- A 64-bit value as two data words, low word first (R68). -/
def dataWords (v : Word64) : List Word := [lowWord v, highWord v]

/-- The response of an accepted command: REJ = 0, then its data words (R67, R68). -/
def respondOk (w : Word) (data : List Word) (s : State) : State := send (responseWord w false 0 :: data) s

/-! ### The rejection (R132 to R137) -/

/-- The cause codes by name (R133). -/
inductive Cause where
  | cfgSampleRate
  | cfgBufferSize
  | cfgDelayTime
  | cfgFeedback
  | cfgThreshold
  | cfgNoSampleRate
  | cfgOscCount
  | cfgOrder
  | cfgNotConfigured
  | cfgCapacity
  | cfgValue
  | cfgRange
  | cfgFilter
  | cmdIllegal
  | cmdBadOsc
  | cmdBadReg
  | cmdBadIndex
  | cmdErrPending
  deriving DecidableEq, Repr

/-- The code of a cause (R133). -/
def Cause.code : Cause → BitVec 8
  | .cfgSampleRate => 0x01#8
  | .cfgBufferSize => 0x02#8
  | .cfgDelayTime => 0x03#8
  | .cfgFeedback => 0x04#8
  | .cfgThreshold => 0x05#8
  | .cfgNoSampleRate => 0x06#8
  | .cfgOscCount => 0x07#8
  | .cfgOrder => 0x08#8
  | .cfgNotConfigured => 0x09#8
  | .cfgCapacity => 0x0A#8
  | .cfgValue => 0x0B#8
  | .cfgRange => 0x0C#8
  | .cfgFilter => 0x0D#8
  | .cmdIllegal => 0x10#8
  | .cmdBadOsc => 0x11#8
  | .cmdBadReg => 0x12#8
  | .cmdBadIndex => 0x13#8
  | .cmdErrPending => 0x14#8

/-- The error record after a rejection: the first one is kept, a further one sets MULTI (R134). -/
def ErrRecord.after (r : ErrRecord) (cause : Cause) (w : Word) : ErrRecord :=
  if r.err then { r with multi := true } else { r with err := true, cause := cause.code, errcmd := w }

/-- `Reject(cause, w)` (R134): the block's one way of taking an error. It writes the error record and answers REJ = 1
with this command's own cause; nothing else changes (R132). -/
def reject (cause : Cause) (w : Word) (s : State) : State :=
  send [responseWord w true cause.code] { s with record := s.record.after cause w }

/-- The way back from a rejection: ERR, MULTI, CAUSE and ERRCMD become 0 (R129, R137). -/
def clearError (s : State) : State :=
  { s with record := { s.record with err := false, multi := false, cause := 0, errcmd := 0 } }

/-- `ResetState()` (R147): every register takes its value of R47; the parameters and the ports stay. -/
def resetState (s : State) : State := State.cleared s.params s.ports

/-! ### Commands -/

/-- The first check that fails gives the cause (R136). -/
def firstRaised : List (Bool × Cause) → Option Cause
  | [] => none
  | (violated, cause) :: rest => if violated then some cause else firstRaised rest

/-- What every command does (R132, R135, R136). `gated`: it does not execute while STATUS.ERR = 1. `checks`: each
violated condition with its cause, in order. `absent`: the absent delay cell its effect would reach, if any
(assumption 12). `effect`: the state and the data words when every check passes; the checks read the state before the
command. -/
def runCommand (w : Word) (gated : Bool) (checks : List (Bool × Cause)) (absent : Option Fault)
    (effect : State × List Word) (s : State) : Host.Outcome State Fault Refusal :=
  if gated && s.record.err then .next (reject .cmdErrPending w s)
  else
    match firstRaised checks with
    | some cause => .next (reject cause w s)
    | none =>
      match absent with
      | some f => .fault f
      | none => .next (respondOk w effect.2 effect.1)

end Sys2Proof.Machine
end

