-- ==== Sys2Proof/Machine/Flags.lean ====
section
/-! DEFINITION. The status, configuration and constant registers as software reads them (R24, R26, R27, R30, R31, R33,
R34, R36). Reserved bits read 0. -/

namespace Sys2Proof.Machine

/-- A flag at bit `i` of a register. -/
def flagAt (i : Nat) (b : Bool) : Nat := if b then 2 ^ i else 0

/-- CFG.PFREQ mirrors osc[0].FQV (R26). -/
def cfgPfreq (s : State) : Bool := s.bank.pulse.fqv

/-- CFG.PSR mirrors osc[0].SRV (R26). -/
def cfgPsr (s : State) : Bool := s.bank.pulse.srv

/-- READY (R27). -/
def ready (s : State) : Bool :=
  s.cfg.syn && s.cfg.flt && s.cfg.dsize && s.cfg.dtime && s.cfg.dfb && s.cfg.pan && cfgPfreq s && s.cfg.gain
    && s.cfg.range

/-- STATUS (R24). -/
def statusReg (s : State) : Word :=
  BitVec.ofNat 32
    (flagAt 0 s.record.err + (flagAt 1 s.record.multi + (flagAt 2 (ready s) + 2 ^ 8 * s.record.cause.toNat)))

/-- CFG (R26). -/
def cfgReg (s : State) : Word :=
  BitVec.ofNat 32
    (flagAt 0 s.cfg.syn + flagAt 1 s.cfg.flt + flagAt 2 s.cfg.dsize + flagAt 3 s.cfg.dtime + flagAt 4 s.cfg.dfb
      + flagAt 5 s.cfg.pan + flagAt 6 (cfgPfreq s) + flagAt 7 s.cfg.gain + flagAt 8 s.cfg.range
      + flagAt 9 (cfgPsr s))

/-- TRIG: PREV_VALID in bit 0 (R31). -/
def trigReg (s : State) : Word := BitVec.ofNat 32 (flagAt 0 s.trig.prevValid)

/-- RANGE.LO (R30). -/
def rangeLo (r : Word) : Nat := bitField r 6 0

/-- RANGE.HI (R30). -/
def rangeHi (r : Word) : Nat := bitField r 14 8

/-- ID (R33). -/
def idReg : Word := 0x44524E01#32

/-- TRIG_MODE as PARAM reports it (R34). -/
def trigModeBit : TrigMode → Bool
  | .edge => false
  | .level => true

/-- PAN_ORDER as PARAM reports it (R34). -/
def panOrderBit : PanOrder → Bool
  | .a => false
  | .b => true

/-- PARAM (R34). -/
def paramReg (p : Params) : Word :=
  BitVec.ofNat 32 (flagAt 9 (panOrderBit p.panOrder) + (flagAt 8 (trigModeBit p.trigMode) + p.maxHarm % 2 ^ 8))

/-- CAPACITY (R34). -/
def capacityReg (p : Params) : Word := BitVec.ofNat 32 p.delayCapacity

/-- The flags field of an oscillator: SRV in bit 0, FQV in bit 1 (R44). -/
def oscFlags (o : Osc) : Nat := flagAt 0 o.srv + flagAt 1 o.fqv

end Sys2Proof.Machine
end

