-- ==== Sys2Proof/Machine/Operands.lean ====
section
/-! DEFINITION. The operand checks the commands share (R133) and the register map that `reg.rd` addresses (R44). The
operand forms themselves (R64 to R66) are the decoder's, in Decode.lean. -/

namespace Sys2Proof.Machine

/-! ### Operand checks -/

/-- A sample rate that is not accepted: not (SR > 0.0 and finite(SR)). -/
def badRate (sr : F64) : Bool := !(fGt sr cZero && finite sr)

/-- A value outside [0, 1): not (v ≥ 0.0 and v < 1.0), a NaN among them. -/
def outsideUnit (v : F64) : Bool := !(fGe v cZero && fLt v cOne)

/-- A base cutoff and sample rate that would let the cutoff leave (0, SR/2) (R103). -/
def badBand (sr baseCut : F64) : Bool :=
  !(fGt (fSub baseCut c500) cZero && fLt (fAdd baseCut c500) (fMul sr cHalf))

/-- The host writes oscillator 0 only (40_oscillator.md section 2). -/
def notPulse (osc : Nat) : Bool := osc != 0

/-- The oscillator's frequency has been set. -/
def hasFreq (o : Option Osc) : Bool :=
  match o with
  | some o => o.fqv
  | none => false

/-- An index that names no present buffer cell (R131). -/
def badIndex (s : State) (index : Int) : Bool :=
  !s.cfg.dsize || decide (index < 0) || decide ((s.dly.size.toNat : Int) ≤ index)

/-- The absent cell the delay line would read or write, if any: MemRead at RP comes before MemWrite at WP (R50, R106;
assumption 12). -/
def absentDelayCell (s : State) : Option Fault :=
  if s.dly.size ≤ s.dly.rp then some (.absentCell s.dly.rp.toNat)
  else if s.dly.size ≤ s.dly.wp then some (.absentCell s.dly.wp.toNat)
  else none

/-! ### The register map (R44) -/

/-- A register of fewer than 64 bits, zero-extended. -/
def zext (w : Word) : Word64 := BitVec.ofNat 64 w.toNat

/-- Field `f` of an oscillator: 0 SR, 1 FREQ, 2 DELTA, 3 PHASE, 4 KIND, 5 flags (R44). -/
def oscField (o : Osc) (f : Nat) : Option Word64 :=
  match f with
  | 0 => some o.sr
  | 1 => some o.freq
  | 2 => some o.delta
  | 3 => some o.phase
  | 4 => some (BitVec.ofNat 64 (kindCode o.kind))
  | 5 => some (BitVec.ofNat 64 (oscFlags o))
  | _ => none

/-- Addresses below 0x1000 (R44). -/
def unitReg (s : State) (addr : Nat) : Option Word64 :=
  match addr with
  | 0x0000 => some (zext (statusReg s))
  | 0x0001 => some (zext s.record.errcmd)
  | 0x0002 => some (zext (cfgReg s))
  | 0x0003 => some s.samples
  | 0x0004 => some s.gain
  | 0x0005 => some (zext s.range)
  | 0x0006 => some (zext (trigReg s))
  | 0x0007 => some s.trig.prev
  | 0x0008 => some (zext idReg)
  | 0x0009 => some (zext (paramReg s.params))
  | 0x000A => some (zext (capacityReg s.params))
  | 0x0010 => some (zext s.syn.count)
  | 0x0011 => some (zext s.syn.note)
  | 0x0020 => some s.flt.sr
  | 0x0021 => some s.flt.baseCut
  | 0x0022 => some s.flt.baseRes
  | 0x0023 => some s.flt.cutoff
  | 0x0024 => some s.flt.reson
  | 0x0025 => some s.flt.coef.b0
  | 0x0026 => some s.flt.coef.b1
  | 0x0027 => some s.flt.coef.b2
  | 0x0028 => some s.flt.coef.a1
  | 0x0029 => some s.flt.coef.a2
  | 0x002A => some s.flt.s1
  | 0x002B => some s.flt.s2
  | 0x0030 => some (zext s.dly.size)
  | 0x0031 => some (zext s.dly.wp)
  | 0x0032 => some (zext s.dly.rp)
  | 0x0033 => some (zext s.dly.time)
  | 0x0034 => some s.dly.fb
  | 0x0040 => some s.pan.thr
  | 0x0041 => some s.pan.gr
  | 0x0042 => some s.pan.gl
  | _ => none

/-- The register at an address: below 0x1000 a unit's register; at 0x1000 + 16·k + f field f of oscillator k, an 8-bit
index, if it is present (R35, R44; assumption 18). `none` where R44 has no such address. -/
def readReg (s : State) (addr : Nat) : Option Word64 :=
  if addr < 0x1000 then unitReg s addr
  else if addr < 0x2000 then
    match osc? s ((addr - 0x1000) / 16) with
    | some o => oscField o (addr % 16)
    | none => none
  else none

end Sys2Proof.Machine
end

