-- ==== Sys2Proof/Machine/Delay.lean ====
section
/-! DEFINITION. The feedback delay line (43_delay.md). -/

namespace Sys2Proof.Machine

/-! ### The step (R106) -/

/-- The tap y = BUF[RP] (R106). -/
def dlyTap (s : State) : F64 := memRead s.buf s.dly.rp.toNat

/-- The value of `DlyStep(x)`: the mix, which is also what is written (R106). -/
def dlyOut (x : F64) (s : State) : F64 :=
  fAdd (fMul x (fSub cOne s.dly.fb)) (fMul s.dly.fb (dlyTap s))

/-- `(p + 1) mod SIZE` (R106). -/
def nextPointer (size p : Word) : Word := BitVec.ofNat 32 ((p.toNat + 1) % size.toNat)

/-- The state after `DlyStep(x)`: the read came before the write, and both pointers advance (R106). -/
def dlyAdvance (x : F64) (s : State) : State :=
  { s with
    buf := memWrite s.buf s.dly.wp.toNat (dlyOut x s)
    dly := { s.dly with wp := nextPointer s.dly.size s.dly.wp, rp := nextPointer s.dly.size s.dly.rp } }

/-! ### Commands -/

/-- The effect of an accepted `dly.size`: every present cell +0.0, both pointers and the time 0 (R109). -/
def dlySizeEffect (n : Int) (s : State) : State :=
  { s with
    buf := []
    dly := { s.dly with size := intWord n, wp := 0, rp := 0, time := 0 }
    cfg := { s.cfg with dtime := false, dsize := true } }

/-- `dly.size N` (R109). -/
def execDlySize (n : Int) (s : State) : Host.Outcome State Fault Refusal :=
  runCommand (commandWord (.dlySize n)) true
    [(decide (n ≤ 0), .cfgBufferSize), (decide ((s.params.delayCapacity : Int) < n), .cfgCapacity)] none
    (dlySizeEffect n s, []) s

/-- `WP − D`, with SIZE added when it is negative (R110). -/
def tapPointer (s : State) (d : Int) : Int :=
  let r := (s.dly.wp.toNat : Int) - d
  if r < 0 then r + s.dly.size.toNat else r

/-- The effect of an accepted `dly.time` (R110). -/
def dlyTimeEffect (d : Int) (s : State) : State :=
  { s with
    dly := { s.dly with rp := intWord (tapPointer s d), time := intWord d }
    cfg := { s.cfg with dtime := true } }

/-- `dly.time D` (R110). -/
def execDlyTime (d : Int) (s : State) : Host.Outcome State Fault Refusal :=
  runCommand (commandWord (.dlyTime d)) true
    [ (!s.cfg.dsize, .cfgOrder),
      (decide (d < 0) || decide ((s.dly.size.toNat : Int) ≤ d), .cfgDelayTime) ] none
    (dlyTimeEffect d s, []) s

/-- `dly.fb F` (R111): the incoming value is the one checked. -/
def execDlyFb (f : F64) (s : State) : Host.Outcome State Fault Refusal :=
  runCommand (commandWord (.dlyFb f)) true [(!s.cfg.dsize, .cfgOrder), (outsideUnit f, .cfgFeedback)] none
    ({ s with dly := { s.dly with fb := f }, cfg := { s.cfg with dfb := true } }, []) s

/-- `dly.step X` (R112). -/
def execDlyStep (x : F64) (s : State) : Host.Outcome State Fault Refusal :=
  runCommand (commandWord (.dlyStep x)) true
    [(!s.cfg.dsize || !s.cfg.dtime || !s.cfg.dfb, .cfgNotConfigured), (!finite x, .cfgValue)]
    (absentDelayCell s) (dlyAdvance x s, dataWords (dlyOut x s)) s

end Sys2Proof.Machine
end

