-- ==== Sys2Proof/Machine/Transcendental.lean ====
section
/-! DEFINITION. The default parameters SIN, EXP2 and TAN (R8, 92 D11): the correctly rounded functions. Each is
evaluated in fixed point with 512 fraction bits, far beyond the 400 bits that 93 G6 used, and rounded once
(assumption 7). -/

namespace Sys2Proof.Machine

/-- Fraction bits of the fixed-point evaluation. -/
def fixBits : Nat := 512

/-- 1.0 in fixed point. -/
def fixOne : Nat := 2 ^ fixBits

/-- Fraction bits of the argument reduction. -/
def redBits : Nat := 1600

/-- ⌊(π/2) · 2^1600⌋. -/
def halfPiFix : Nat :=
  0x1921fb54442d18469898cc51701b839a252049c1114cf98e804177d4c76273644a29410f31c6809bbdf2a33679a748636605614dbe4be286e9fc26adadaa3848bc90b6aecc4bcfd8de89885d34c6fdad617feb96de80d6fdbdc70d7f6b5133f4b5d3e4822f8963fcc9250cca3d9c8b67b8400f97142c77e0b31b4906c38aba734d22c7f51fa499ebf06caba47b9475b2c38c5e6ac410aa5773daa520ee12d2cdace186a9c95793009e2e8d811943042f86520bc8c5c6d9c77c73cee58301d0c07364f0745d80f451f

/-- ⌊(ln 2) · 2^512⌋. -/
def ln2Fix : Nat :=
  0xb17217f7d1cf79abc9e3b39803f2f6af40f343267298b62d8a0d175b8baafa2be7b876206debac98559552fb4afa1b10ed2eae35c138214427573b291169b825

/-- 1 − r²/(2j(2j+1)) · (1 − r²/((2j+2)(2j+3)) · (…)), `n` levels deep: with j = 1, sin r divided by r. -/
def sinSeries (r2 : Nat) : Nat → Nat → Nat
  | 0, _ => fixOne
  | n + 1, j => fixOne - r2 * sinSeries r2 n (j + 1) / (fixOne * (2 * j * (2 * j + 1)))

/-- 1 − r²/((2j−1)2j) · (1 − r²/((2j+1)(2j+2)) · (…)), `n` levels deep: with j = 1, cos r. -/
def cosSeries (r2 : Nat) : Nat → Nat → Nat
  | 0, _ => fixOne
  | n + 1, j => fixOne - r2 * cosSeries r2 n (j + 1) / (fixOne * ((2 * j - 1) * (2 * j)))

/-- 1 + u/j · (1 + u/(j+1) · (…)), `n` levels deep: with j = 1, e^u. -/
def expSeries (u : Nat) : Nat → Nat → Nat
  | 0, _ => fixOne
  | n + 1, j => fixOne + u * expSeries u n (j + 1) / (fixOne * j)

/-- sin and cos of `r` in [0, π/2], in fixed point, neither above 1; cos, a divisor of TAN, not below the last fraction
bit (cos of a binary64 never comes near it). -/
def sinCosFix (r : Nat) : Nat × Nat :=
  let r2 := r * r / fixOne
  (min (r * sinSeries r2 64 1 / fixOne) fixOne, max 1 (min (cosSeries r2 64 1) fixOne))

/-- The quadrant of a magnitude in units of 2^−1074, and the rest in [0, π/2] in fixed point. -/
def reduceAngle (mag : Nat) : Nat × Nat :=
  let x := 2 ^ (redBits - 1074) * mag
  (x / halfPiFix % 4, x % halfPiFix / 2 ^ (redBits - fixBits))

/-- Below 2^−27 in magnitude, sin and tan of a binary64 round to the value itself: they differ from it by less than
half a unit in its last place. -/
def tinyAngle (mag : Nat) : Bool := decide (mag < 2 ^ (1074 - 27))

/-- The sign and the magnitude of sin, in fixed point, for a magnitude in units of 2^−1074. -/
def sinFix (mag : Nat) : Bool × Nat :=
  let (q, r) := reduceAngle mag
  let (s, c) := sinCosFix r
  (decide (2 ≤ q), if q % 2 = 0 then s else c)

/-- `SIN` (R8, D11). -/
@[irreducible] def fSin (x : F64) : F64 :=
  if !finite x then nanOf .sin x x
  else if tinyAngle (units x) then x
  else
    let (neg, v) := sinFix (units x)
    roundF64 (isNeg x != neg) (2 ^ 1074 * v) fixOne

/-- `TAN` (R8, D11): sin over cos, and minus cos over sin in the odd quadrants. -/
@[irreducible] def fTan (x : F64) : F64 :=
  if !finite x then nanOf .tan x x
  else if tinyAngle (units x) then x
  else
    let (q, r) := reduceAngle (units x)
    let (s, c) := sinCosFix r
    if q % 2 = 0 then roundF64 (isNeg x) (2 ^ 1074 * s) c else roundF64 (!isNeg x) (2 ^ 1074 * c) s

/-- `EXP2` (R8, D11): 2^x = 2^n · e^(f ln 2), n the floor of x and f the rest. -/
@[irreducible] def fExp2 (x : F64) : F64 :=
  if isNaN x then nanOf .exp2 x x
  else
    let n := signedUnits x / 2 ^ 1074
    let f := (signedUnits x % 2 ^ 1074).toNat
    if 1024 ≤ n then cInf
    else if n < -1075 then cZero
    else
      let u := ln2Fix * (f / 2 ^ (1074 - fixBits)) / fixOne
      roundF64 false (expSeries u 96 1 * 2 ^ (n + 1075).toNat) (2 * fixOne)

end Sys2Proof.Machine
end

