-- ==== Sys2Proof/Machine/Oscillator.lean ====
section
/-! DEFINITION. The phase oscillator and the pulse generator's commands (40_oscillator.md). -/

namespace Sys2Proof.Machine

/-! ### Primitives (R76 to R78) -/

/-- The phase after one advance: one subtraction of 1.0 at most, and only above 1.0 (R77). -/
def nextPhase (o : Osc) : F64 :=
  let p := fAdd o.phase o.delta
  if fGt p cOne then fSub p cOne else p

/-- `Wave(kind, p)` (R78). -/
def wave (kind : WaveKind) (p : F64) : F64 :=
  match kind with
  | .sine => fSin (fMul cTwoPi p)
  | .triangle => fSub (fAbs (fSub p cHalf)) cHalf
  | .saw => fSub p cHalf
  | .square => if fLe p cHalf then cHalf else fNeg cHalf

/-- The oscillator after one advance (R77). -/
def advanced (o : Osc) : Osc := { o with phase := nextPhase o }

/-- The output of one advance: the waveform at the new phase (R77). -/
def stepOut (o : Osc) : F64 := wave o.kind (nextPhase o)

/-- The oscillator with its sample rate set; DELTA is not recomputed (R81, R151). -/
def rated (sr : F64) (o : Osc) : Osc := { o with sr := sr, srv := true }

/-- The oscillator with its frequency set, and DELTA with it (R76). -/
def tuned (f : F64) (o : Osc) : Osc := { o with freq := f, delta := fDiv f o.sr, fqv := true }

/-- An oscillator set up by its unit: rate, frequency, and starting phase (R103, R116). -/
def started (sr f phase : F64) (o : Osc) : Osc := { tuned f (rated sr o) with phase := phase }

/-- The state with oscillator `k` replaced. -/
def withOsc (k : Nat) (o : Osc) (s : State) : State := { s with bank := s.bank.setOsc k o }

/-- Oscillator `k` as `osc.step` finds it once its check has passed. -/
def oscOr (s : State) (k : Nat) : Osc := (osc? s k).getD s.bank.pulse

/-! ### Commands -/

/-- `osc.sr OSC, SR` (R81). -/
def execOscSr (osc : Nat) (sr : F64) (s : State) : Host.Outcome State Fault Refusal :=
  runCommand (commandWord (.oscSr osc sr)) true [(notPulse osc, .cmdBadOsc), (badRate sr, .cfgSampleRate)] none
    (withOsc 0 (rated sr s.bank.pulse) s, []) s

/-- `osc.freq OSC, F` (R82). -/
def execOscFreq (osc : Nat) (f : F64) (s : State) : Host.Outcome State Fault Refusal :=
  runCommand (commandWord (.oscFreq osc f)) true
    [(notPulse osc, .cmdBadOsc), (!s.bank.pulse.srv, .cfgNoSampleRate), (!finite f, .cfgValue)] none
    (withOsc 0 (tuned f s.bank.pulse) s, []) s

/-- `osc.phase OSC, P` (R83). -/
def execOscPhase (osc : Nat) (p : F64) (s : State) : Host.Outcome State Fault Refusal :=
  runCommand (commandWord (.oscPhase osc p)) true [(notPulse osc, .cmdBadOsc), (!finite p, .cfgValue)] none
    (withOsc 0 { s.bank.pulse with phase := p } s, []) s

/-- `osc.kind OSC, KIND` (R84). -/
def execOscKind (osc : Nat) (kind : WaveKind) (s : State) : Host.Outcome State Fault Refusal :=
  runCommand (commandWord (.oscKind osc kind)) true [(notPulse osc, .cmdBadOsc)] none
    (withOsc 0 { s.bank.pulse with kind := kind } s, []) s

/-- `osc.step OSC` (R85). -/
def execOscStep (osc : Nat) (s : State) : Host.Outcome State Fault Refusal :=
  runCommand (commandWord (.oscStep osc)) true
    [((osc? s osc).isNone, .cmdBadOsc), (!hasFreq (osc? s osc), .cfgNotConfigured)] none
    (withOsc osc (advanced (oscOr s osc)) s, dataWords (stepOut (oscOr s osc))) s

end Sys2Proof.Machine
end

