-- ==== Sys2Proof/Machine/Filter.lean ====
section
/-! DEFINITION. The resonant filter coefficient modulator (42_filter.md), with the default `LPF` (R98 to R100;
assumption 10). -/

namespace Sys2Proof.Machine

/-! ### The default LPF -/

/-- `LpfCoef(sr, fc, q)` (R99). -/
def lpfCoef (sr fc q : F64) : Coef :=
  let n := fDiv cOne (fTan (fDiv (fMul cPi fc) sr))
  let n2 := fMul n n
  let iq := fDiv cOne q
  let c1 := fDiv cOne (fAdd (fAdd cOne (fMul iq n)) n2)
  { b0 := c1
    b1 := fMul cTwo c1
    b2 := c1
    a1 := fMul (fMul c1 cTwo) (fSub cOne n2)
    a2 := fMul c1 (fAdd (fSub cOne (fMul iq n)) n2) }

/-- The output of `LpfStep` (R100). -/
def lpfOut (c : Coef) (s1 m : F64) : F64 := fAdd (fMul c.b0 m) s1

/-- FLT_S1 after `LpfStep` with output `y` (R100). -/
def lpfS1 (c : Coef) (s2 m y : F64) : F64 := fAdd (fSub (fMul c.b1 m) (fMul c.a1 y)) s2

/-- FLT_S2 after `LpfStep` with output `y` (R100). -/
def lpfS2 (c : Coef) (m y : F64) : F64 := fSub (fMul c.b2 m) (fMul c.a2 y)

/-! ### The filter-modulator step (R95, R97, R101) -/

/-- The cutoff of this step (R95). -/
def nextCutoff (s : State) : F64 := fAdd (fMul (stepOut s.bank.lfoCut) c500) s.flt.baseCut

/-- The resonance of this step (R95). -/
def nextReson (s : State) : F64 := fMul (fAdd cThree (stepOut s.bank.lfoRes)) s.flt.baseRes

/-- The coefficients of this step, computed anew (R101, R102). -/
def nextCoef (s : State) : Coef := lpfCoef s.flt.sr (nextCutoff s) (nextReson s)

/-- The carrier times the input sample (R97). -/
def modulated (s : State) (x : F64) : F64 := fMul (stepOut s.bank.carrier) x

/-- The value of `FltStep(x)` (R101). -/
def fltOut (x : F64) (s : State) : F64 := lpfOut (nextCoef s) s.flt.s1 (modulated s x)

/-- The state after `FltStep(x)` (R101). -/
def fltAdvance (x : F64) (s : State) : State :=
  { s with
    bank :=
      { s.bank with
        carrier := advanced s.bank.carrier
        lfoCut := advanced s.bank.lfoCut
        lfoRes := advanced s.bank.lfoRes }
    flt :=
      { s.flt with
        cutoff := nextCutoff s
        reson := nextReson s
        coef := nextCoef s
        s1 := lpfS1 (nextCoef s) s.flt.s2 (modulated s x) (fltOut x s)
        s2 := lpfS2 (nextCoef s) (modulated s x) (fltOut x s) } }

/-! ### Commands -/

/-- The effect of an accepted `flt.setup` (R103). -/
def fltSetupEffect (sr carrierF cutLfoF baseCut resLfoF baseRes : F64) (s : State) : State :=
  { s with
    cfg := { s.cfg with flt := true }
    bank :=
      { s.bank with
        carrier := started sr carrierF cZero s.bank.carrier
        lfoCut := started sr cutLfoF c055 s.bank.lfoCut
        lfoRes := started sr resLfoF c077 s.bank.lfoRes }
    flt :=
      { sr := sr, baseCut := baseCut, baseRes := baseRes, cutoff := cZero, reson := cZero, coef := Coef.zero,
        s1 := cZero, s2 := cZero } }

/-- `flt.setup SR, CARRIER_F, CUT_LFO_F, BASE_CUT, RES_LFO_F, BASE_RES` (R103). -/
def execFltSetup (sr carrierF cutLfoF baseCut resLfoF baseRes : F64) (s : State) :
    Host.Outcome State Fault Refusal :=
  runCommand (commandWord (.fltSetup sr carrierF cutLfoF baseCut resLfoF baseRes)) true
    [ (badRate sr, .cfgSampleRate),
      (!finite carrierF, .cfgValue),
      (!finite cutLfoF, .cfgValue),
      (!finite baseCut, .cfgFilter),
      (!finite resLfoF, .cfgValue),
      (!(finite baseRes && fGt baseRes cZero), .cfgFilter),
      (badBand sr baseCut, .cfgFilter) ] none
    (fltSetupEffect sr carrierF cutLfoF baseCut resLfoF baseRes s, []) s

/-- `flt.step X` (R104). -/
def execFltStep (x : F64) (s : State) : Host.Outcome State Fault Refusal :=
  runCommand (commandWord (.fltStep x)) true [(!s.cfg.flt, .cfgNotConfigured), (!finite x, .cfgValue)] none
    (fltAdvance x s, dataWords (fltOut x s)) s

end Sys2Proof.Machine
end

