-- ==== Sys2Proof/Machine/Panner.lean ====
section
/-! DEFINITION. The auto-panner (44_panner.md). -/

namespace Sys2Proof.Machine

/-! ### The step (R113) -/

/-- The panning oscillator as it is advanced: under order A its phase is first overwritten with the modulator's output
of this call; under B it is advanced as it stands (R113, R114). -/
def panSource (s : State) : Osc :=
  match s.params.panOrder with
  | .a => { s.bank.pan with phase := stepOut s.bank.pmod }
  | .b => s.bank.pan

/-- The panning oscillator after the step: advanced under A; under B advanced and then overwritten (R113). -/
def panAfter (s : State) : Osc :=
  match s.params.panOrder with
  | .a => advanced (panSource s)
  | .b => { advanced (panSource s) with phase := stepOut s.bank.pmod }

/-- A gain raised to the threshold when below it (R113). -/
def floorAt (thr g : F64) : F64 := if fLt g thr then thr else g

/-- PAN_GR of this step (R113). -/
def panGr (s : State) : F64 := floorAt s.pan.thr (fMul (fAdd (stepOut (panSource s)) cOne) cHalf)

/-- PAN_GL of this step (R113). DEDUCED (assumption 15): the pseudocode is followed where R115 bounds GL by 1 − THR
after raw was raised to THR, so for THR > 0.5 it is THR. -/
def panGl (s : State) : F64 := floorAt s.pan.thr (fSub cOne (panGr s))

/-- The state after `PanStep()` (R113). -/
def panAdvance (s : State) : State :=
  { s with
    bank := { s.bank with pan := panAfter s, pmod := advanced s.bank.pmod }
    pan := { s.pan with gr := panGr s, gl := panGl s } }

/-! ### Commands -/

/-- The modulator as `pan.setup` starts it, before its seed step (R116). -/
def pmodStart (sr modF : F64) (o : Osc) : Osc := started sr modF cQuarter o

/-- The effect of an accepted `pan.setup`: the panning phase is seeded from one modulator output (R116). -/
def panSetupEffect (sr panF modF thr : F64) (s : State) : State :=
  { s with
    cfg := { s.cfg with pan := true }
    bank :=
      { s.bank with
        pan := started sr panF (stepOut (pmodStart sr modF s.bank.pmod)) s.bank.pan
        pmod := advanced (pmodStart sr modF s.bank.pmod) }
    pan := { thr := thr, gr := cZero, gl := cZero } }

/-- `pan.setup SR, PAN_F, MOD_F, THR` (R116). -/
def execPanSetup (sr panF modF thr : F64) (s : State) : Host.Outcome State Fault Refusal :=
  runCommand (commandWord (.panSetup sr panF modF thr)) true
    [ (badRate sr, .cfgSampleRate),
      (!finite panF, .cfgValue),
      (!finite modF, .cfgValue),
      (outsideUnit thr, .cfgThreshold) ] none
    (panSetupEffect sr panF modF thr s, []) s

/-- `pan.thr T` (R117). -/
def execPanThr (t : F64) (s : State) : Host.Outcome State Fault Refusal :=
  runCommand (commandWord (.panThr t)) true [(!s.cfg.pan, .cfgOrder), (outsideUnit t, .cfgThreshold)] none
    ({ s with pan := { s.pan with thr := t } }, []) s

/-- `pan.step` (R118): right, then left. -/
def execPanStep (s : State) : Host.Outcome State Fault Refusal :=
  runCommand (commandWord .panStep) true [(!s.cfg.pan, .cfgNotConfigured)] none
    (panAdvance s, dataWords (panGr s) ++ dataWords (panGl s)) s

end Sys2Proof.Machine
end

