-- ==== Sys2Proof/Machine/Synth.lean ====
section
/-! DEFINITION. The additive synth (41_synth.md). -/

namespace Sys2Proof.Machine

/-! ### Primitives (R87 to R89) -/

/-- `F0(note)` (R87). -/
def fundamental (note : Nat) : F64 := fMul c440 (fExp2 (fDiv (fSub (fOfNat note) c69) cTwelve))

/-- Harmonic `i` tuned to `(i+1) × f0`; no PHASE changes (R88). -/
def tuneHarm (f0 : F64) (i : Nat) (o : Osc) : Osc :=
  { o with freq := fMul (fOfNat (i + 1)) f0, delta := fDiv (fMul (fOfNat (i + 1)) f0) o.sr }

/-- `Tune(f0)`: every harmonic below SYN_COUNT (R88). -/
def tune (count : Nat) (f0 : F64) (harm : List Osc) : List Osc :=
  harm.mapIdx fun i o => if i < count then tuneHarm f0 i o else o

/-- `Retune(n)`: Tune(F0(n)), and SYN_NOTE records the note (R93). -/
def retune (note : Nat) (s : State) : State :=
  { s with
    bank := { s.bank with harm := tune s.syn.count.toNat (fundamental note) s.bank.harm }
    syn := { s.syn with note := BitVec.ofNat 32 note } }

/-- The harmonics after one advance of each below `count` (R89). -/
def advanceHarm (count : Nat) (harm : List Osc) : List Osc :=
  harm.mapIdx fun i o => if i < count then advanced o else o

/-- The running sum over the harmonics from index `i` on, ascending, each output divided by `2.0 × f64(i+1)` (R89). -/
def harmSum (count : Nat) : Nat → F64 → List Osc → F64
  | _, acc, [] => acc
  | i, acc, o :: rest =>
    if i < count then harmSum count (i + 1) (fAdd acc (fDiv (stepOut o) (fMul cTwo (fOfNat (i + 1))))) rest else acc

/-- The value of `SynStep()` (R89). -/
def synOut (s : State) : F64 :=
  fDiv (harmSum s.syn.count.toNat 0 cZero s.bank.harm) (fOfNat s.syn.count.toNat)

/-- The state after `SynStep()` (R89). -/
def synAdvance (s : State) : State :=
  { s with bank := { s.bank with harm := advanceHarm s.syn.count.toNat s.bank.harm } }

/-! ### Commands -/

/-- A harmonic created anew at setup: rate set, phase 0, frequency about to be set (R92). -/
def createHarm (sr : F64) (o : Osc) : Osc := { rated sr o with phase := cZero, fqv := true }

/-- The effect of an accepted `syn.setup` (R92). -/
def synSetupEffect (count note : Nat) (sr : F64) (s : State) : State :=
  retune note
    { s with
      cfg := { s.cfg with syn := true }
      syn := { s.syn with count := BitVec.ofNat 32 count }
      bank := { s.bank with harm := s.bank.harm.mapIdx fun i o => if i < count then createHarm sr o else o } }

/-- `syn.setup COUNT, NOTE, SR` (R92): the sample rate is checked before the count. -/
def execSynSetup (count note : Nat) (sr : F64) (s : State) : Host.Outcome State Fault Refusal :=
  runCommand (commandWord (.synSetup count note sr)) true
    [(badRate sr, .cfgSampleRate), (decide (count < 1) || decide (s.params.maxHarm < count), .cfgOscCount)] none
    (synSetupEffect count note sr s, []) s

/-- `syn.retune NOTE` (R93). -/
def execSynRetune (note : Nat) (s : State) : Host.Outcome State Fault Refusal :=
  runCommand (commandWord (.synRetune note)) true [(!s.cfg.syn, .cfgOrder)] none (retune note s, []) s

/-- `syn.step` (R94). -/
def execSynStep (s : State) : Host.Outcome State Fault Refusal :=
  runCommand (commandWord .synStep) true [(!s.cfg.syn, .cfgNotConfigured)] none
    (synAdvance s, dataWords (synOut s)) s

end Sys2Proof.Machine
end

