-- ==== Sys2Proof/Machine/Pipeline.lean ====
section
/-! DEFINITION. The trigger, the sample step, the mixer's configuration and PROCESS (45_pipeline.md). -/

namespace Sys2Proof.Machine

/-! ### Trigger (R120) -/

/-- Whether a pulse output fires the trigger (R120). -/
def fires (mode : TrigMode) (t : Trigger) (p : F64) : Bool :=
  match mode with
  | .edge => t.prevValid && fLe t.prev cZero && fGt p cZero
  | .level => fGt p cZero

/-- The note of a draw: LO + (r mod (HI − LO + 1)) (R120). -/
def drawnNote (range r : Word) : Nat := rangeLo range + r.toNat % (rangeHi range - rangeLo range + 1)

/-- The pulse generator advanced and its output remembered (R120). -/
def pulseAdvance (s : State) : State :=
  { s with
    bank := { s.bank with pulse := advanced s.bank.pulse }
    trig := { prevValid := true, prev := stepOut s.bank.pulse } }

/-- One draw, and the retune to its note (R119, R120). -/
def drawAndRetune (s : State) : State :=
  retune (drawnNote s.range (randDraw s.ports).1) { s with ports := (randDraw s.ports).2 }

/-- `Trigger()` (R120). -/
def trigger (s : State) : State :=
  if fires s.params.trigMode s.trig (stepOut s.bank.pulse) then drawAndRetune (pulseAdvance s) else pulseAdvance s

/-! ### The sample step (R122) -/

/-- The sample after stage 2: the synth's, times GAIN, from the state after the trigger. -/
def stageSyn (s : State) : F64 := fMul (synOut s) s.gain

/-- The state and the sample after stages 1 and 2 (R122). -/
def afterSyn (s : State) : State × F64 := (synAdvance (trigger s), stageSyn (trigger s))

/-- The state and the sample after stage 3 (R122). -/
def afterFlt (s : State) : State × F64 :=
  (fltAdvance (afterSyn s).2 (afterSyn s).1, fltOut (afterSyn s).2 (afterSyn s).1)

/-- The state and the sample after stage 4 (R122). -/
def afterDly (s : State) : State × F64 :=
  (dlyAdvance (afterFlt s).2 (afterFlt s).1, dlyOut (afterFlt s).2 (afterFlt s).1)

/-- The state after `SampleStep()` (R122). -/
def sampleAdvance (s : State) : State := { panAdvance (afterDly s).1 with samples := s.samples + 1 }

/-- The two data words of `SampleStep()`, left then right (R122). -/
def sampleWords (s : State) : List Word :=
  [toF32 (fMul (panGl (afterDly s).1) (afterDly s).2), toF32 (fMul (panGr (afterDly s).1) (afterDly s).2)]

/-- `SampleStep()`: the state after it and its two data words (R122). -/
def sampleStep (s : State) : State × List Word := (sampleAdvance s, sampleWords s)

/-- `n` sample steps and their data words in sample order (R126). -/
def sampleSteps : Nat → State → State × List Word
  | 0, s => (s, [])
  | n + 1, s =>
    ((sampleSteps n (sampleStep s).1).1, (sampleStep s).2 ++ (sampleSteps n (sampleStep s).1).2)

/-! ### Commands -/

/-- `mix.gain G` (R124). -/
def execMixGain (g : F64) (s : State) : Host.Outcome State Fault Refusal :=
  runCommand (commandWord (.mixGain g)) true [(!finite g, .cfgValue)] none
    ({ s with gain := g, cfg := { s.cfg with gain := true } }, []) s

/-- RANGE as `trg.range` writes it: (HI << 8) | LO (R125). -/
def rangeWord (lo hi : Nat) : Word := BitVec.ofNat 32 (putField 7 8 hi + putField 7 0 lo)

/-- `trg.range LO, HI` (R125). -/
def execTrgRange (lo hi : Nat) (s : State) : Host.Outcome State Fault Refusal :=
  runCommand (commandWord (.trgRange lo hi)) true [(decide (hi < lo), .cfgRange)] none
    ({ s with range := rangeWord lo hi, cfg := { s.cfg with range := true } }, []) s

/-- The absent cell a PROCESS of `n` samples would reach, if any; one of 0 samples reaches none (R126). -/
def processAbsent (n : Nat) (s : State) : Option Fault := if n = 0 then none else absentDelayCell s

/-- `process N` (R126). -/
def execProcess (n : Nat) (s : State) : Host.Outcome State Fault Refusal :=
  runCommand (commandWord (.process n)) true [(!ready s, .cfgNotConfigured)] (processAbsent n s)
    (sampleSteps n s) s

end Sys2Proof.Machine
end

