-- ==== Sys2Proof/Machine/System.lean ====
section
/-! DEFINITION. The system commands (46_system.md): they execute while STATUS.ERR = 1 (R135). -/

namespace Sys2Proof.Machine

/-- `nop` (R127). -/
def execNop (s : State) : Host.Outcome State Fault Refusal :=
  runCommand (commandWord .nop) false [] none (s, []) s

/-- `reset` (R128): ResetState, then the response. -/
def execReset (s : State) : Host.Outcome State Fault Refusal :=
  runCommand (commandWord .reset) false [] none (resetState s, []) s

/-- `clr.err` (R129). -/
def execClrErr (s : State) : Host.Outcome State Fault Refusal :=
  runCommand (commandWord .clrErr) false [] none (clearError s, []) s

/-- `reg.rd ADDR` (R130). -/
def execRegRd (addr : Nat) (s : State) : Host.Outcome State Fault Refusal :=
  runCommand (commandWord (.regRd addr)) false [((readReg s addr).isNone, .cmdBadReg)] none
    (s, dataWords ((readReg s addr).getD 0)) s

/-- `buf.rd I` (R131). -/
def execBufRd (index : Int) (s : State) : Host.Outcome State Fault Refusal :=
  runCommand (commandWord (.bufRd index)) false [(badIndex s index, .cmdBadIndex)] none
    (s, dataWords (memRead s.buf index.toNat)) s

end Sys2Proof.Machine
end

