-- ==== Sys2Proof/Machine/Dispatch.lean ====
section
/-! DEFINITION. One arm per command, each one direct call of its meaning. -/

namespace Sys2Proof.Machine

def exec (i : Instr) (s : State) : Host.Outcome State Fault Refusal :=
  match i with
  | .nop => Sys2Proof.Machine.execNop s
  | .reset => Sys2Proof.Machine.execReset s
  | .clrErr => Sys2Proof.Machine.execClrErr s
  | .regRd addr => Sys2Proof.Machine.execRegRd addr s
  | .bufRd index => Sys2Proof.Machine.execBufRd index s
  | .oscSr osc sr => Sys2Proof.Machine.execOscSr osc sr s
  | .oscFreq osc f => Sys2Proof.Machine.execOscFreq osc f s
  | .oscPhase osc p => Sys2Proof.Machine.execOscPhase osc p s
  | .oscKind osc kind => Sys2Proof.Machine.execOscKind osc kind s
  | .oscStep osc => Sys2Proof.Machine.execOscStep osc s
  | .synSetup count note sr => Sys2Proof.Machine.execSynSetup count note sr s
  | .synRetune note => Sys2Proof.Machine.execSynRetune note s
  | .synStep => Sys2Proof.Machine.execSynStep s
  | .fltSetup sr carrierF cutLfoF baseCut resLfoF baseRes => Sys2Proof.Machine.execFltSetup sr carrierF cutLfoF baseCut resLfoF baseRes s
  | .fltStep x => Sys2Proof.Machine.execFltStep x s
  | .dlySize n => Sys2Proof.Machine.execDlySize n s
  | .dlyTime d => Sys2Proof.Machine.execDlyTime d s
  | .dlyFb f => Sys2Proof.Machine.execDlyFb f s
  | .dlyStep x => Sys2Proof.Machine.execDlyStep x s
  | .panSetup sr panF modF thr => Sys2Proof.Machine.execPanSetup sr panF modF thr s
  | .panThr t => Sys2Proof.Machine.execPanThr t s
  | .panStep => Sys2Proof.Machine.execPanStep s
  | .mixGain g => Sys2Proof.Machine.execMixGain g s
  | .trgRange lo hi => Sys2Proof.Machine.execTrgRange lo hi s
  | .process n => Sys2Proof.Machine.execProcess n s

end Sys2Proof.Machine
end

