-- ==== Sys2Proof/Machine/Sequencer.lean ====
section
/-! DEFINITION. The sequencer: it takes one whole command from the command port, runs it and answers it (R3, R63, R70,
R71), waits while none has arrived (R146, R149), and obeys the reset input (R148). `run` is the meaning of a command. -/

namespace Sys2Proof.Machine

/-- The state with these words left on the command port and the reset input released. -/
def withCmd (ws : List Word) (s : State) : State :=
  { s with ports := { s.ports with cmd := ws, pin := .released } }

/-- A command word and its operand words, taken from the port: the legal command runs, any other word is rejected with
CMD_ILLEGAL, its LEN words consumed (R70, R71). -/
def runWords (run : Instr → State → Host.Outcome State Fault Refusal) (w : Word) (ops : List Word) (s : State) :
    Host.Outcome State Fault Refusal :=
  match decode w ops with
  | .ok i => run i s
  | .error _ => .next (reject .cmdIllegal w s)

/-- Sample steps begun when `words` words of a PROCESS response are out: the response word and two for each step
finished, and the one under way if its left word is out or `inStep` says so (R122, R126, R148). -/
def stepsBegun (words : Nat) (inStep : Bool) : Nat :=
  (words - 1) / 2 + if words % 2 = 0 ∧ words ≠ 0 ∨ words ≠ 0 ∧ inStep = true then 1 else 0

/-- The ports' random source after an abandoned command: the draws of the sample steps begun are consumed (R119,
R148). -/
def randAfterAbandon (run : Instr → State → Host.Outcome State Fault Refusal) (words : Nat) (inStep : Bool) (w : Word)
    (ops : List Word) (s : State) : List Word × Nat :=
  match decode w ops with
  | .ok (.process n) =>
    match run (.process (min n (stepsBegun words inStep))) s with
    | .next t => (t.ports.rand, t.ports.drawn)
    | _ => (s.ports.rand, s.ports.drawn)
  | _ => (s.ports.rand, s.ports.drawn)

/-- A command abandoned by the reset input when `words` words of its response are out: those stay, no further word is
sent, the words of a command that has not wholly arrived behind it are dropped, and the state is reset (R148;
assumption 4). -/
def abandon (run : Instr → State → Host.Outcome State Fault Refusal) (words : Nat) (inStep : Bool) (w : Word)
    (ops : List Word) (s : State) : Host.Outcome State Fault Refusal :=
  match runWords run w ops s with
  | .next t =>
    let sent := (t.ports.resp.drop s.ports.resp.length).take words
    let (rand, drawn) := randAfterAbandon run words inStep w ops s
    let ports := { s.ports with cmd := wholeCommands s.ports.cmd, rand := rand, drawn := drawn }
    .next (resetState (send sent { s with ports := ports }))
  | other => other

/-- One step: a whole command, or nothing while the command port holds none (R3, R57, R148, R149). The reset input drops
the words of a command that has not wholly arrived, so that the next word the host sends is decoded as a command word
(R148). DESIGN CHOICE (assumption 4): whole commands that already wait on the port when the input is asserted stay there
and are decoded after the reset. -/
def sequencer (run : Instr → State → Host.Outcome State Fault Refusal) (s : State) :
    Host.Outcome State Fault Refusal :=
  match s.ports.pin with
  | .betweenCommands => .next (resetState (withCmd (wholeCommands s.ports.cmd) s))
  | .released =>
    match splitCommand s.ports.cmd with
    | none => .next s
    | some (w, ops, rest) => runWords run w ops (withCmd rest s)
  | .during words inStep =>
    match splitCommand s.ports.cmd with
    | none => .next (resetState (withCmd [] s))
    | some (w, ops, rest) => abandon run words inStep w ops (withCmd rest s)

/-- The state in which the host's next words are these (assumption 13). -/
def supply (ws : List Word) (s : State) : State := withCmd (ws ++ s.ports.cmd) s

end Sys2Proof.Machine
end

