-- ==== Sys2Proof/Machine/Step.lean ====
section
/-! DEFINITION. The step, and how the host lays an instruction where the next step takes it. -/

namespace Sys2Proof.Machine

/-- One step of the Drone CORE: the sequencer over the meanings of the commands. -/
def step (s : State) : Host.Outcome State Fault Refusal := Sys2Proof.Machine.sequencer Sys2Proof.Machine.exec s

/-- The state in which the next words on the command port are the table word's: its command word and its LEN operand
words, zeros above `nbits` (assumption 13). -/
def State.withFetchWord (s : State) (nbits w : Nat) : State :=
  Sys2Proof.Machine.supply (Sys2Proof.tableWords nbits w) s

end Sys2Proof.Machine
end

