-- ==== Sys2Proof/Machine/Assembler.lean ====
section
/-! DEFINITION. The assembler of R73 and the pseudo-instructions of R74: from one line of text to the command words it
stands for, or the reason the assembler emits none (93 U10). It is no part of the step (assumption 21). -/

namespace Sys2Proof.Asm

open Sys2Proof.Machine

/-- Why the assembler emits no word for a line (R73). -/
inductive AsmError where
  | unknownMnemonic
  | operandCount
  | badReal
  | badInteger
  | badOscillator
  | badKind
  | badRegister
  /-- An integer that does not fit its subfield or word (R73, 93 U10). -/
  | doesNotFit
  deriving DecidableEq, Repr

/-! ### Splitting a line -/

/-- The text of a line before its comment (R73). -/
def uncommented (line : List Char) : List Char := line.takeWhile (fun c => c != ';')

/-- A space or a tab. -/
def isBlank (c : Char) : Bool := c == ' ' || c == '\t'

/-- The text without blanks at either end. -/
def trimmed (cs : List Char) : List Char := ((cs.dropWhile isBlank).reverse.dropWhile isBlank).reverse

/-- The pieces between commas. -/
def splitCommas : List Char → List (List Char)
  | [] => [[]]
  | c :: rest =>
    if c = ',' then [] :: splitCommas rest
    else
      match splitCommas rest with
      | [] => [[c]]
      | piece :: pieces => (c :: piece) :: pieces

/-- The operands of a line after its mnemonic: none, or the pieces between commas. -/
def operandTexts (cs : List Char) : List (List Char) :=
  if trimmed cs = [] then [] else (splitCommas cs).map trimmed

/-- The mnemonic of a line and its operands (R73). -/
def splitLine (line : List Char) : List Char × List (List Char) :=
  let cs := trimmed (uncommented line)
  (cs.takeWhile (fun c => !isBlank c), operandTexts (cs.dropWhile (fun c => !isBlank c)))

/-! ### Numbers -/

/-- The value of a decimal or hexadecimal digit. -/
def digitOf (base : Nat) (c : Char) : Option Nat :=
  let n := c.toNat
  let d :=
    if 48 ≤ n ∧ n ≤ 57 then n - 48
    else if 65 ≤ n ∧ n ≤ 70 then n - 55
    else if 97 ≤ n ∧ n ≤ 102 then n - 87
    else base
  if d < base then some d else none

/-- The number a list of digits writes, continuing from `acc`. -/
def digitsFrom (base : Nat) : Nat → List Char → Option Nat
  | acc, [] => some acc
  | acc, c :: rest =>
    match digitOf base c with
    | some d => digitsFrom base (base * acc + d) rest
    | none => none

/-- A number of at least one digit. -/
def natural (base : Nat) (cs : List Char) : Option Nat := if cs = [] then none else digitsFrom base 0 cs

/-- A sign at the head, if there is one: whether it is a minus, and the rest. -/
def signOf : List Char → Bool × List Char
  | '-' :: rest => (true, rest)
  | '+' :: rest => (false, rest)
  | cs => (false, cs)

/-- `int`: a decimal integer, optionally signed, or 0x and hexadecimal digits (R73). -/
def integer (cs : List Char) : Option Int :=
  match cs with
  | '0' :: 'x' :: digits => (natural 16 digits).map Int.ofNat
  | _ =>
    let (neg, digits) := signOf cs
    (natural 10 digits).map (fun n => if neg then -(n : Int) else (n : Int))

/-- An exponent: absent, or e and a signed decimal integer. -/
def exponent : List Char → Option Int
  | [] => some 0
  | c :: rest =>
    if c = 'e' ∨ c = 'E' then
      let (neg, digits) := signOf rest
      (natural 10 digits).map (fun n => if neg then -(n : Int) else (n : Int))
    else none

/-- The binary64 nearest to plus or minus `m · 10^e`, ties to even (R73). -/
def decimalToF64 (neg : Bool) (m : Nat) (e : Int) : F64 :=
  if 0 ≤ e then roundF64 neg (2 ^ 1074 * (m * 10 ^ e.toNat)) 1 else roundF64 neg (2 ^ 1074 * m) (10 ^ (-e).toNat)

/-- A decimal floating literal: digits, perhaps a point and digits, perhaps an exponent (R73). -/
def decimal (cs : List Char) : Option F64 :=
  let (neg, body) := signOf cs
  let isDigit := fun c => (digitOf 10 c).isSome
  let whole := body.takeWhile isDigit
  let rest := body.dropWhile isDigit
  let (fraction, tail) :=
    match rest with
    | '.' :: more => (more.takeWhile isDigit, more.dropWhile isDigit)
    | _ => ([], rest)
  match natural 10 (whole ++ fraction), exponent tail with
  | some m, some e => some (decimalToF64 neg m (e - fraction.length))
  | _, _ => none

/-- `real`: a decimal floating literal, or the raw bits after f64: (R73). -/
def real (cs : List Char) : Except AsmError F64 :=
  match cs with
  | 'f' :: '6' :: '4' :: ':' :: '0' :: 'x' :: digits =>
    if digits.length = 16 then
      match natural 16 digits with
      | some bits => .ok (BitVec.ofNat 64 bits)
      | none => .error .badReal
    else .error .badReal
  | _ =>
    match decimal cs with
    | some v => .ok v
    | none => .error .badReal

/-! ### Operands -/

/-- An unsigned operand that must be below `limit` (R73). -/
def unsignedBelow (limit : Nat) (other : AsmError) (cs : List Char) : Except AsmError Nat :=
  match integer cs with
  | none => .error other
  | some i => if 0 ≤ i ∧ i < limit then .ok i.toNat else .error .doesNotFit

/-- An integer operand word (R66, R73). -/
def word32 (cs : List Char) : Except AsmError Int :=
  match integer cs with
  | none => .error .badInteger
  | some i => if fitsS32 i then .ok i else .error .doesNotFit

/-- The value a name has in a table. -/
def named (table : List (String × Nat)) (cs : List Char) : Option Nat :=
  (table.find? (fun row => row.1.toList == cs)).map Prod.snd

/-- The oscillators' names (R73). -/
def oscNames : List (String × Nat) :=
  [("pulse", 0), ("carrier", 1), ("lfo.cut", 2), ("lfo.res", 3), ("pan", 4), ("pmod", 5)]

/-- `h<i>`: harmonic i, 0 to 247, is oscillator 8 + i (R73). -/
def harmonicName : List Char → Option (Except AsmError Nat)
  | 'h' :: digits => (natural 10 digits).map (fun i => if i ≤ 247 then .ok (i + 8) else .error .doesNotFit)
  | _ => none

/-- `oscname` (R73). -/
def oscillator (cs : List Char) : Except AsmError Nat :=
  match named oscNames cs with
  | some k => .ok k
  | none =>
    match harmonicName cs with
    | some r => r
    | none => unsignedBelow 256 .badOscillator cs

/-- `kindname` (R73). -/
def kind (cs : List Char) : Except AsmError WaveKind :=
  match named [("sine", 0), ("tri", 1), ("saw", 2), ("square", 3)] cs with
  | some k => .ok (kindOfNat k)
  | none =>
    match unsignedBelow 4 .badKind cs with
    | .ok k => .ok (kindOfNat k)
    | .error e => .error e

/-- The registers below 0x1000 by name (R44). -/
def regNames : List (String × Nat) :=
  [("STATUS", 0x0000), ("ERRCMD", 0x0001), ("CFG", 0x0002), ("SAMPLE_COUNT", 0x0003), ("GAIN", 0x0004),
    ("RANGE", 0x0005), ("TRIG", 0x0006), ("TRIG_PREV", 0x0007), ("ID", 0x0008), ("PARAM", 0x0009),
    ("CAPACITY", 0x000A), ("SYN_COUNT", 0x0010), ("SYN_NOTE", 0x0011)] ++
  [("FLT_SR", 0x0020), ("FLT_BASE_CUT", 0x0021), ("FLT_BASE_RES", 0x0022), ("FLT_CUTOFF", 0x0023),
    ("FLT_RESON", 0x0024), ("FLT_B0", 0x0025), ("FLT_B1", 0x0026), ("FLT_B2", 0x0027), ("FLT_A1", 0x0028),
    ("FLT_A2", 0x0029), ("FLT_S1", 0x002A), ("FLT_S2", 0x002B)] ++
  [("DLY_SIZE", 0x0030), ("DLY_WP", 0x0031), ("DLY_RP", 0x0032), ("DLY_TIME", 0x0033), ("DLY_FB", 0x0034),
    ("PAN_THR", 0x0040), ("PAN_GR", 0x0041), ("PAN_GL", 0x0042)]

/-- An oscillator's fields by name (R44, R73). -/
def fieldNames : List (String × Nat) :=
  [("SR", 0), ("FREQ", 1), ("DELTA", 2), ("PHASE", 3), ("KIND", 4), ("FLAGS", 5)]

/-- `osc[<oscname>].<field>` (R73). -/
def oscRegister (cs : List Char) : Except AsmError Nat :=
  let inner := cs.takeWhile (fun c => c != ']')
  match cs.dropWhile (fun c => c != ']') with
  | ']' :: '.' :: field =>
    match oscillator inner, named fieldNames field with
    | .ok k, some f => .ok (0x1000 + 16 * k + f)
    | .error e, _ => .error e
    | _, none => .error .badRegister
  | _ => .error .badRegister

/-- `regname` (R73). -/
def register (cs : List Char) : Except AsmError Nat :=
  match named regNames cs with
  | some addr => .ok addr
  | none =>
    match cs with
    | 'o' :: 's' :: 'c' :: '[' :: rest => oscRegister rest
    | _ => unsignedBelow 0x10000 .badRegister cs

/-! ### Commands and pseudo-instructions -/

/-- The process commands of `process.long M` (R74). -/
def processLong (m : Nat) : List Instr :=
  List.replicate (m / 65535) (.process 65535) ++ if m % 65535 = 0 then [] else [.process (m % 65535)]

/-- The commands with no operand, and `status` (R73, R74). -/
def plainCommands : List (String × Instr) :=
  [("nop", .nop), ("reset", .reset), ("clr.err", .clrErr), ("syn.step", .synStep), ("pan.step", .panStep),
    ("status", .regRd 0)]

/-- A MIDI note, 0 to 127 (R64). -/
def note (cs : List Char) : Except AsmError Nat := unsignedBelow 128 .badInteger cs

/-- The commands a mnemonic and its operands stand for (R73, R74). -/
def commandsOf (mnemonic : List Char) (args : List (List Char)) : Except AsmError (List Instr) := do
  let is := fun name : String => mnemonic == name.toList
  match plainCommands.find? (fun row => is row.1), args with
  | some row, [] => return [row.2]
  | some _, _ => throw .operandCount
  | none, _ => pure ()
  match args with
  | [a] =>
    if is "reg.rd" then return [.regRd (← register a)]
    if is "buf.rd" then return [.bufRd (← word32 a)]
    if is "osc.step" then return [.oscStep (← oscillator a)]
    if is "syn.retune" then return [.synRetune (← note a)]
    if is "flt.step" then return [.fltStep (← real a)]
    if is "dly.size" then return [.dlySize (← word32 a)]
    if is "dly.time" then return [.dlyTime (← word32 a)]
    if is "dly.fb" then return [.dlyFb (← real a)]
    if is "dly.step" then return [.dlyStep (← real a)]
    if is "pan.thr" then return [.panThr (← real a)]
    if is "mix.gain" then return [.mixGain (← real a)]
    if is "process" then return [.process (← unsignedBelow 0x10000 .badInteger a)]
    if is "trg.note" then
      let n ← note a
      return [.trgRange n n]
    if is "process.long" then
      match integer a with
      | some m => if 0 ≤ m then return processLong m.toNat else throw .doesNotFit
      | none => throw .badInteger
  | [a, b] =>
    if is "osc.sr" then return [.oscSr (← oscillator a) (← real b)]
    if is "osc.freq" then return [.oscFreq (← oscillator a) (← real b)]
    if is "osc.phase" then return [.oscPhase (← oscillator a) (← real b)]
    if is "osc.kind" then return [.oscKind (← oscillator a) (← kind b)]
    if is "trg.range" then return [.trgRange (← note a) (← note b)]
    if is "pulse.init" then
      let sr ← real a
      let f ← real b
      return [.oscSr 0 sr, .oscFreq 0 f]
  | [a, b, c] =>
    if is "syn.setup" then return [.synSetup (← unsignedBelow 256 .badInteger a) (← note b) (← real c)]
    if is "dly.init" then
      let n ← word32 a
      let d ← word32 b
      let f ← real c
      return [.dlySize n, .dlyTime d, .dlyFb f]
  | [a, b, c, d] =>
    if is "pan.setup" then return [.panSetup (← real a) (← real b) (← real c) (← real d)]
  | [a, b, c, d, e, f] =>
    if is "flt.setup" then return [.fltSetup (← real a) (← real b) (← real c) (← real d) (← real e) (← real f)]
  | _ => pure ()
  if mnemonics.any is then throw .operandCount else throw .unknownMnemonic
where
  mnemonics : List String :=
    ["reg.rd", "buf.rd", "osc.sr", "osc.freq", "osc.phase", "osc.kind", "osc.step", "syn.setup", "syn.retune",
      "flt.setup", "flt.step", "dly.size", "dly.time", "dly.fb", "dly.step", "pan.setup", "pan.thr", "mix.gain",
      "trg.range", "process", "pulse.init", "dly.init", "trg.note", "process.long"]

/-- The commands of a line: none for an empty one (R73). -/
def parseLine (line : List Char) : Except AsmError (List Instr) :=
  let (mnemonic, args) := splitLine line
  if mnemonic = [] then .ok [] else commandsOf mnemonic args

/-- The words the assembler emits for a line (R73, R74). -/
def assemble (line : String) : Except AsmError (List Word) :=
  match parseLine line.toList with
  | .ok is => .ok (is.flatMap encode)
  | .error e => .error e

end Sys2Proof.Asm
end

