-- ==== Sys2Proof/Safety.lean ====
section
/-! DEFINITION. What the claims speak of: the invariant of the block (one named field per sentence of the spec), an
accepted command, a rejected command, and what it is for two states to agree outside some registers. -/

namespace Sys2Proof.Machine

/-! ### The invariant -/

/-- The error record is one the rules can leave (R24, R25, R133): nothing recorded while ERR = 0, a cause code of R133
while ERR = 1. -/
structure ErrRecord.Ok (r : ErrRecord) : Prop where
  clear : r.err = false → r.multi = false ∧ r.cause = 0 ∧ r.errcmd = 0
  coded : r.err = true → ∃ c : Cause, r.cause = c.code

/-- Waveform kinds are fixed, but for oscillator 0 (R37). -/
structure Bank.KindsFixed (b : Bank) : Prop where
  carrier : b.carrier.kind = .triangle
  lfoCut : b.lfoCut.kind = .sine
  lfoRes : b.lfoRes.kind = .sine
  pan : b.pan.kind = .sine
  pmod : b.pmod.kind = .sine
  harm : ∀ o ∈ b.harm, o.kind = .sine

/-- An oscillator its unit has set up: both flags set and a sample rate above 0 (R76). -/
structure Osc.SetUp (o : Osc) : Prop where
  srv : o.srv = true
  fqv : o.fqv = true
  rate : badRate o.sr = false

/-- The delay line (R41, R105): the pointer equation, every pointer below the size, the buffer in its canonical form
with no cell at or above the size, and which CFG bits go together. -/
structure DelayOk (s : State) : Prop where
  sized : s.cfg.dsize = true ↔ 0 < s.dly.size.toNat
  capacity : s.dly.size.toNat ≤ s.params.delayCapacity
  wp : s.cfg.dsize = true → s.dly.wp.toNat < s.dly.size.toNat
  time : s.cfg.dsize = true → s.dly.time.toNat < s.dly.size.toNat
  rp : s.cfg.dsize = true →
    s.dly.rp.toNat = (s.dly.wp.toNat + s.dly.size.toNat - s.dly.time.toNat) % s.dly.size.toNat
  dtime : s.cfg.dtime = true → s.cfg.dsize = true
  dfb : s.cfg.dfb = true → s.cfg.dsize = true ∧ outsideUnit s.dly.fb = false
  canonical : Memory.wf s.buf = true
  present : ∀ c ∈ s.buf, c.1 < s.dly.size.toNat

/-- The invariant of the block. -/
structure State.Inv (s : State) : Prop where
  /-- MAX_HARM is 1 to 248 (R8). -/
  maxHarm : 1 ≤ s.params.maxHarm ∧ s.params.maxHarm ≤ 248
  /-- DELAY_CAPACITY is 1 to 2^31 − 1 (R8). -/
  delayCapacity : 1 ≤ s.params.delayCapacity ∧ s.params.delayCapacity ≤ 2147483647
  record : s.record.Ok
  /-- The bank holds MAX_HARM harmonics (R35). -/
  bankSize : s.bank.harm.length = s.params.maxHarm
  kinds : s.bank.KindsFixed
  /-- 1 ≤ SYN_COUNT ≤ MAX_HARM while CFG.SYN = 1, and 0 before (R38). -/
  synCount : if s.cfg.syn then 1 ≤ s.syn.count.toNat ∧ s.syn.count.toNat ≤ s.params.maxHarm
    else s.syn.count.toNat = 0
  /-- A present harmonic has been set up (R92). -/
  synHarm : ∀ i o, i < s.syn.count.toNat → s.bank.harm[i]? = some o → o.SetUp
  /-- SYN_NOTE is a MIDI note (R39). -/
  synNote : s.syn.note.toNat < 128
  /-- PFREQ is set only when PSR is set, and then the sample rate is above 0 (R27, R76). -/
  pulse : s.bank.pulse.fqv = true → s.bank.pulse.SetUp
  pulseRate : s.bank.pulse.srv = true → badRate s.bank.pulse.sr = false
  /-- While CFG.FLT = 1, the unit's oscillators are set up and the cutoff band and resonance are valid (R103). -/
  filter : s.cfg.flt = true → s.bank.carrier.SetUp ∧ s.bank.lfoCut.SetUp ∧ s.bank.lfoRes.SetUp ∧
    badRate s.flt.sr = false ∧ badBand s.flt.sr s.flt.baseCut = false ∧ finite s.flt.baseRes = true ∧
    fGt s.flt.baseRes cZero = true
  delay : DelayOk s
  /-- While CFG.PAN = 1, the unit's oscillators are set up and 0 ≤ THR < 1 (R43). -/
  panner : s.cfg.pan = true → s.bank.pan.SetUp ∧ s.bank.pmod.SetUp ∧ outsideUnit s.pan.thr = false
  /-- GAIN is finite (R124). -/
  gain : finite s.gain = true
  /-- LO ≤ HI, and the reserved bits of RANGE are 0 (R30). -/
  range : rangeLo s.range ≤ rangeHi s.range ∧ s.range = rangeWord (rangeLo s.range) (rangeHi s.range)
  /-- TRIG_PREV is +0.0 until a sample step has set PREV_VALID (R31, R32). -/
  trig : s.trig.prevValid = false → s.trig.prev = cZero

/-! ### Commands accepted and rejected -/

/-- Command `i` is accepted in state `s`: it leaves state `t`, which has sent nothing, and then answers REJ = 0 with
these data words (R67, R68). -/
def Accepts (i : Instr) (s t : State) (data : List Word) : Prop :=
  exec i s = .next (respondOk (commandWord i) data t) ∧ t.ports.resp = s.ports.resp

/-- Command `i` is rejected in state `s` with this cause (R132, R134). -/
def Rejects (i : Instr) (s : State) (c : Cause) : Prop := exec i s = .next (reject c (commandWord i) s)

/-- The five commands that execute while STATUS.ERR = 1 (R135). -/
def RunsWhilePending : Instr → Bool
  | .nop => true
  | .reset => true
  | .clrErr => true
  | .regRd _ => true
  | .bufRd _ => true
  | _ => false

/-- The data words of an accepted command (R68). -/
def dataCount : Instr → Nat
  | .regRd _ => 2
  | .bufRd _ => 2
  | .oscStep _ => 2
  | .synStep => 2
  | .fltStep _ => 2
  | .dlyStep _ => 2
  | .panStep => 4
  | .process n => 2 * n
  | _ => 0

/-! ### Agreement -/

/-- Every delay-buffer cell reads in `t` as it reads in `s` (R48). -/
def SameBuffer (s t : State) : Prop := ∀ i, memRead t.buf i = memRead s.buf i

/-- The streams at the ports, but for the words sent, and the parameters are the same (R46, R119). -/
def SameStreams (s t : State) : Prop :=
  t.params = s.params ∧ t.ports.cmd = s.ports.cmd ∧ t.ports.rand = s.ports.rand ∧ t.ports.drawn = s.ports.drawn ∧
    t.ports.pin = s.ports.pin

/-- The register address of field `f` of oscillator `k` (R44). -/
def oscAddr (k f : Nat) : Nat := 0x1000 + 16 * k + f

/-- An address of the register space that belongs to a harmonic (R35, R44). -/
def isHarmAddr (a : Nat) : Bool := decide (0x1080 ≤ a) && decide (a < 0x2000)

/-- An address of one of the oscillators `lo` to `hi` (R44). -/
def isOscAddr (lo hi a : Nat) : Bool := decide (oscAddr lo 0 ≤ a) && decide (a ≤ oscAddr hi 15)

/-- The register addresses an accepted command may change, from its own rule. STATUS (0x0000) is named where READY may
change, CFG (0x0002) where a CFG bit may. -/
def mayWrite : Instr → Nat → Bool
  | .nop, _ => false
  | .reset, _ => true
  | .clrErr, a => [0x0000, 0x0001].contains a
  | .regRd _, _ => false
  | .bufRd _, _ => false
  | .oscSr _ _, a => [0x0002, 0x1000, 0x1005].contains a
  | .oscFreq _ _, a => [0x0000, 0x0002, 0x1001, 0x1002, 0x1005].contains a
  | .oscPhase _ _, a => a == 0x1003
  | .oscKind _ _, a => a == 0x1004
  | .oscStep osc, a => a == oscAddr osc 3
  | .synSetup _ _ _, a => [0x0000, 0x0002, 0x0010, 0x0011].contains a || isHarmAddr a
  | .synRetune _, a => a == 0x0011 || isHarmAddr a && (a % 16 == 1 || a % 16 == 2)
  | .synStep, a => isHarmAddr a && a % 16 == 3
  | .fltSetup _ _ _ _ _ _, a =>
    [0x0000, 0x0002].contains a || decide (0x0020 ≤ a) && decide (a ≤ 0x002B) || isOscAddr 1 3 a && a % 16 != 4
  | .fltStep _, a => decide (0x0023 ≤ a) && decide (a ≤ 0x002B) || isOscAddr 1 3 a && a % 16 == 3
  | .dlySize _, a => [0x0000, 0x0002, 0x0030, 0x0031, 0x0032, 0x0033].contains a
  | .dlyTime _, a => [0x0000, 0x0002, 0x0032, 0x0033].contains a
  | .dlyFb _, a => [0x0000, 0x0002, 0x0034].contains a
  | .dlyStep _, a => [0x0031, 0x0032].contains a
  | .panSetup _ _ _ _, a =>
    [0x0000, 0x0002, 0x0040, 0x0041, 0x0042].contains a || isOscAddr 4 5 a && a % 16 != 4
  | .panThr _, a => a == 0x0040
  | .panStep, a => [0x0041, 0x0042].contains a || isOscAddr 4 5 a && a % 16 == 3
  | .mixGain _, a => [0x0000, 0x0002, 0x0004].contains a
  | .trgRange _ _, a => [0x0000, 0x0002, 0x0005].contains a
  | .process _, a =>
    [0x0003, 0x0006, 0x0007, 0x0011, 0x0031, 0x0032, 0x0041, 0x0042].contains a
      || decide (0x0023 ≤ a) && decide (a ≤ 0x002B) || isOscAddr 0 5 a && a % 16 == 3
      || isHarmAddr a && (a % 16 == 1 || a % 16 == 2 || a % 16 == 3)

/-- The CFG bits after an accepted command (R26): each configuration command sets its bit, DLY_SIZE clears DTIME, reset
clears all. PFREQ and PSR are oscillator 0's flags. -/
def cfgAfter : Instr → CfgBits → CfgBits
  | .reset, _ => CfgBits.reset
  | .synSetup _ _ _, c => { c with syn := true }
  | .fltSetup _ _ _ _ _ _, c => { c with flt := true }
  | .dlySize _, c => { c with dsize := true, dtime := false }
  | .dlyTime _, c => { c with dtime := true }
  | .dlyFb _, c => { c with dfb := true }
  | .panSetup _ _ _ _, c => { c with pan := true }
  | .mixGain _, c => { c with gain := true }
  | .trgRange _ _, c => { c with range := true }
  | _, c => c

/-- What an accepted command leaves unchanged: every register it may not write, the other CFG bits, the error record,
and the streams at the ports. -/
structure Keeps (i : Instr) (s t : State) : Prop where
  regs : ∀ a, mayWrite i a = false → readReg t a = readReg s a
  cfg : t.cfg = cfgAfter i s.cfg
  record : t.record = s.record
  streams : SameStreams s t

/-! ### What the statements name -/

/-- The command's word carries this OPC and this LEN, and LEN operand words follow it (R62, R63, R69). -/
def EncodedAs (i : Instr) (opc len : Nat) : Prop :=
  opcOf (commandWord i) = opc ∧ lenOf (commandWord i) = len ∧ (operandWords i).length = len

/-- Bit `b` of CFG as software reads it (R26). -/
def cfgBit (s : State) (b : Nat) : Bool := (cfgReg s).getLsbD b

/-- Oscillator index `k` is present (R35). -/
def isPresent (s : State) (k : Nat) : Prop := k ≤ 5 ∨ 8 ≤ k ∧ k < 8 + s.syn.count.toNat

/-- The subfield bits of IMM16 that each legal OPC with its LEN names, every other bit reserved (R64, R69). -/
def legalShapes : List (Nat × Nat × Nat) :=
  [(0x00, 0, 0x0000), (0x01, 0, 0x0000), (0x02, 0, 0x0000), (0x03, 0, 0xFFFF), (0x04, 1, 0x0000), (0x10, 2, 0x00FF),
    (0x11, 2, 0x00FF), (0x12, 2, 0x00FF), (0x13, 0, 0x03FF), (0x14, 0, 0x00FF), (0x20, 2, 0xFF7F), (0x21, 0, 0x007F),
    (0x22, 0, 0x0000)] ++
  [(0x30, 12, 0x0000), (0x31, 2, 0x0000), (0x40, 1, 0x0000), (0x41, 1, 0x0000), (0x42, 2, 0x0000), (0x43, 2, 0x0000),
    (0x50, 8, 0x0000), (0x51, 2, 0x0000), (0x52, 0, 0x0000), (0x60, 2, 0x0000), (0x61, 0, 0x7F7F), (0x62, 0, 0xFFFF)]

/-- A command word is legal: its OPC has a row, its LEN is the row's, RSV is 0 and no reserved bit is set (R71). -/
def LegalWord (w : Word) : Prop :=
  ∃ shape ∈ legalShapes, opcOf w = shape.1 ∧ lenOf w = shape.2.1 ∧ rsvOf w = 0 ∧
    bitField w 15 0 &&& shape.2.2 = bitField w 15 0

/-- The state after `j` delay-line steps on the inputs `x 0`, `x 1`, … (R106). -/
def dlyRun (x : Nat → F64) (s : State) : Nat → State
  | 0 => s
  | j + 1 => dlyAdvance (x j) (dlyRun x s j)

/-- The output of delay-line step `t` (R106). -/
def dlyOutAt (x : Nat → F64) (s : State) (t : Nat) : F64 := dlyOut (x t) (dlyRun x s t)

/-- The tap that delay-line step `t` reads (R106). -/
def dlyTapAt (x : Nat → F64) (s : State) (t : Nat) : F64 := dlyTap (dlyRun x s t)

/-- The delay seen at the tap: DTIME, or SIZE where it is 0 (R107). -/
def tapDelay (s : State) : Nat := if s.dly.time.toNat = 0 then s.dly.size.toNat else s.dly.time.toNat

/-- The state after `n` sample steps (R122). -/
def sampleRun (s : State) : Nat → State
  | 0 => s
  | n + 1 => (sampleStep (sampleRun s n)).1

/-- A cell one of the first `n` sample steps from `s` stores to (R106, R122). -/
def storedByProcess (n : Nat) (s : State) (i : Nat) : Prop :=
  ∃ j, j < n ∧ i = (sampleRun s j).dly.wp.toNat

/-- The magnitude of a binary32 in units of 2^−149. Read the same way, an infinity is 2^277 units. -/
def units32 (y : F32) : Nat :=
  let bits := y.toNat % 2 ^ 31
  if bits < 2 ^ 23 then bits else (2 ^ 23 + bits % 2 ^ 23) * 2 ^ (bits / 2 ^ 23 - 1)

/-- The value of a binary32 in units of 2^−149, signed. -/
def signedUnits32 (y : F32) : Int := if 2 ^ 31 ≤ y.toNat then -(units32 y : Int) else (units32 y : Int)

/-- A binary32 that is neither an infinity nor a NaN. -/
def finite32 (y : F32) : Bool := y.toNat / 2 ^ 23 % 2 ^ 8 != 255

/-- −1.0. -/
def cNegOne : F64 := 0xBFF0000000000000#64

/-- −0.5. -/
def cNegHalf : F64 := 0xBFE0000000000000#64

/-- −0.0. -/
def cNegZero : F64 := 0x8000000000000000#64

/-- 4.0. -/
def cFour : F64 := 0x4010000000000000#64

/-- 5.0. -/
def cFive : F64 := 0x4014000000000000#64

/-- −6.0. -/
def cNegSix : F64 := 0xC018000000000000#64

/-- `lo ≤ v ≤ hi` as IEEE comparisons, false when one is a NaN. -/
def between (lo hi v : F64) : Bool := fLe lo v && fLe v hi

end Sys2Proof.Machine
end

