-- ==== Sys2Proof/Certificates/Slice0/Obligations.lean ====
section
/-! DEFINITION. The statements for the provers. Each docstring names the rules of spec/ it formalises. -/

section

open Sys2Proof Sys2Proof.Machine

/-! ### Encoding, framing and the step -/

/-- Every well-formed command is read back from its own words, each operand at every value its place admits (R62 to
R66, R69), and framing takes exactly its words from a stream (R63). -/
def Obligations.DecodeOfEncode : Prop :=
  ∀ (i : Instr) (rest : List Word), i.wellFormed = true →
    encode i = commandWord i :: operandWords i ∧
    decode (commandWord i) (operandWords i) = .ok i ∧
    splitCommand (encode i ++ rest) = some (commandWord i, operandWords i, rest)

/-- Every word list that decodes is the encoding of the command it decodes to: no bit of it is ignored (R64, R69). -/
def Obligations.EncodeOfDecode : Prop :=
  ∀ (w : Word) (ops : List Word) (i : Instr), decode w ops = .ok i → i.wellFormed = true ∧ encode i = w :: ops

/-- R70: decoding is total, a word matches at most one row, the rows fix OPC to different values, and a word whose LEN
is not the row's matches no row. -/
def Obligations.RowsNeverOverlap : Prop :=
  (∀ (j k : Nat) (r q : Row), rows[j]? = some r → rows[k]? = some q → opcOf r.word = opcOf q.word → j = k) ∧
  (∀ (w : Word) (j k : Nat) (r q : Row), rows[j]? = some r → rows[k]? = some q →
    r.accepts w = true → q.accepts w = true → j = k) ∧
  (∀ (w : Word) (ops : List Word) (r : Row), r ∈ rows → r.accepts w = true →
    lenOf w = r.len ∧ rsvOf w = 0 ∧ (ops.length = lenOf w → decode w ops = .ok (r.build w ops))) ∧
  (∀ (w : Word) (ops : List Word), (∀ r ∈ rows, r.accepts w = false) → decode w ops = .error (illegalReason w))

/-- R71: a word is illegal exactly when its OPC has no row, its LEN is not the row's, RSV is not 0 or a reserved bit is
set; an illegal command changes only the error record, its LEN words are consumed, and the next command starts after
them. -/
def Obligations.IllegalWordsRejected : Prop :=
  ∀ (w : Word) (ops rest : List Word) (s : State), ops.length = lenOf w → s.ports.pin = .released →
    s.ports.cmd = w :: (ops ++ rest) →
    (LegalWord w → ∃ i, decode w ops = .ok i) ∧
    (¬ LegalWord w →
      step s = .next (reject .cmdIllegal w { s with ports := { s.ports with cmd := rest } }))

/-- The worked encodings: each line of assembly is these words, and these words decode to the command (the table R75,
which the spec derives from R69, R64 and R65). -/
def Obligations.WorkedEncodings : Prop :=
  (Asm.assemble "dly.size 4" = .ok [0x40100000#32, 0x00000004#32] ∧
    decode 0x40100000#32 [0x00000004#32] = .ok (.dlySize 4)) ∧
  (Asm.assemble "dly.time 2" = .ok [0x41100000#32, 0x00000002#32] ∧
    decode 0x41100000#32 [0x00000002#32] = .ok (.dlyTime 2)) ∧
  (Asm.assemble "dly.fb 0.5" = .ok [0x42200000#32, 0x00000000#32, 0x3FE00000#32] ∧
    decode 0x42200000#32 [0x00000000#32, 0x3FE00000#32] = .ok (.dlyFb cHalf)) ∧
  (Asm.assemble "osc.sr pulse, 8.0" = .ok [0x10200000#32, 0x00000000#32, 0x40200000#32] ∧
    decode 0x10200000#32 [0x00000000#32, 0x40200000#32] = .ok (.oscSr 0 0x4020000000000000#64)) ∧
  (Asm.assemble "osc.kind pulse, saw" = .ok [0x13000200#32] ∧
    decode 0x13000200#32 [] = .ok (.oscKind 0 .saw)) ∧
  (Asm.assemble "osc.step h2" = .ok [0x1400000A#32] ∧ decode 0x1400000A#32 [] = .ok (.oscStep 10)) ∧
  (Asm.assemble "syn.setup 3, 60, 48000.0" = .ok [0x2020033C#32, 0x00000000#32, 0x40E77000#32] ∧
    decode 0x2020033C#32 [0x00000000#32, 0x40E77000#32] = .ok (.synSetup 3 60 0x40E7700000000000#64)) ∧
  (Asm.assemble "syn.retune 69" = .ok [0x21000045#32] ∧ decode 0x21000045#32 [] = .ok (.synRetune 69)) ∧
  (Asm.assemble "trg.range 48, 72" = .ok [0x61004830#32] ∧ decode 0x61004830#32 [] = .ok (.trgRange 48 72)) ∧
  (Asm.assemble "reg.rd DLY_WP" = .ok [0x03000031#32] ∧ decode 0x03000031#32 [] = .ok (.regRd 0x31)) ∧
  (Asm.assemble "process 100" = .ok [0x62000064#32] ∧ decode 0x62000064#32 [] = .ok (.process 100)) ∧
  (Asm.assemble "dly.size -1" = .ok [0x40100000#32, 0xFFFFFFFF#32] ∧
    decode 0x40100000#32 [0xFFFFFFFF#32] = .ok (.dlySize (-1)))

/-- R51: on the ports a word is four bytes, bits [7:0] first, and the words are read back from their bytes. -/
def Obligations.PortWordsAreLittleEndian : Prop :=
  (∀ (w : Word) (j : Nat), j < 4 → (bytesOfWord w)[j]? = some (w.extractLsb' (8 * j) 8)) ∧
  (∀ ws : List Word, wordsOfBytes (bytesOfWords ws) = ws ∧ (bytesOfWords ws).length = 4 * ws.length) ∧
  (∀ (w : Word) (ops rest : List Word), ops.length = lenOf w →
    decodeBytes (bytesOfWords (w :: (ops ++ rest))) = some (decode w ops, rest))

/-- A step runs the decoded command: when the words at the head of the command port decode to `i`, the step is `exec i`
on the state with exactly those words taken from the port (R3, R23, R63). -/
def Obligations.StepRunsCommand : Prop :=
  ∀ (s : State) (w : Word) (ops rest : List Word) (i : Instr), s.ports.pin = .released →
    s.ports.cmd = w :: (ops ++ rest) → decode w ops = .ok i →
    step s = exec i { s with ports := { s.ports with cmd := rest } }

/-- While the port holds no whole command, the block waits and no state changes by itself (R45, R146, R149). -/
def Obligations.StepWaitsForCommand : Prop :=
  ∀ s : State, s.ports.pin = .released →
    (s.ports.cmd = [] ∨ ∃ w arrived, s.ports.cmd = w :: arrived ∧ arrived.length < lenOf w) →
    step s = .next s

/-- The reset input (R148, at the moments assumption 4 lets it be asserted): every register takes its reset value, a
command being executed is abandoned, the words of its response already sent stay and no further one is sent. The words
of a command that has not wholly arrived are dropped: no word sent after the reset is an operand of a command begun
before it, so that the next word sent is decoded as a command word. The whole commands already waiting stay, in their
order (the model's choice, assumption 4). The random sequence is not restarted (R119): the draws of the sample steps
begun stay taken, and no other command takes one. -/
def Obligations.ResetInput : Prop :=
  (∀ ws : List Word, splitCommand ws = none → wholeCommands ws = []) ∧
  (∀ (w : Word) (ops rest : List Word), ops.length = lenOf w →
    wholeCommands (w :: (ops ++ rest)) = w :: (ops ++ wholeCommands rest)) ∧
  ∀ s t : State, step s = .next t →
    (s.ports.pin ≠ .released → ∀ later, wholeCommands (t.ports.cmd ++ later) = t.ports.cmd ++ wholeCommands later) ∧
    (s.ports.pin = .betweenCommands →
      t = State.cleared s.params { s.ports with cmd := wholeCommands s.ports.cmd, pin := .released }) ∧
    (∀ (words : Nat) (inStep : Bool), s.ports.pin = .during words inStep →
      t = State.cleared s.params t.ports ∧ t.ports.pin = .released ∧
      s.ports.drawn ≤ t.ports.drawn ∧ t.ports.rand = s.ports.rand.drop (t.ports.drawn - s.ports.drawn) ∧
      (splitCommand s.ports.cmd = none → t.ports = { s.ports with cmd := [], pin := .released }) ∧
      (∀ (w : Word) (ops rest : List Word), s.ports.cmd = w :: (ops ++ rest) → ops.length = lenOf w →
        t.ports.cmd = wholeCommands rest ∧
        ((∀ n, decode w ops ≠ .ok (.process n)) → t.ports.drawn = s.ports.drawn) ∧
        (∀ (n : Nat) (v : State), decode w ops = .ok (.process n) →
          exec (.process (min n (stepsBegun words inStep)))
            { s with ports := { s.ports with cmd := rest, pin := .released } } = .next v →
          t.ports.drawn = v.ports.drawn) ∧
        ∀ u : State, step { s with ports := { s.ports with pin := .released } } = .next u →
          ∃ sent unsent, sent.length ≤ words ∧ (unsent ≠ [] → sent.length = words) ∧
            t.ports.resp = s.ports.resp ++ sent ∧ u.ports.resp = s.ports.resp ++ sent ++ unsent))

/-! ### System commands and registers -/

/-- R127 and R129: `nop` changes nothing and answers 0x00000000; `clr.err` clears ERR, MULTI, CAUSE and ERRCMD and
changes nothing else, and nothing at all when ERR = 0. Both execute while ERR = 1. -/
def Obligations.NopAndClrErr : Prop :=
  ∀ s : State,
    (EncodedAs .nop 0x00 0 ∧ responseWord (commandWord .nop) false 0 = 0x00000000#32 ∧ Accepts .nop s s []) ∧
    (EncodedAs .clrErr 0x02 0 ∧
      Accepts .clrErr s { s with record := { err := false, multi := false, cause := 0, errcmd := 0 } } [] ∧
      (s.record.err = false → s.record.Ok → Accepts .clrErr s s []))

/-- R128: `reset` gives every register its reset value, keeps the parameters and the ports, and answers 0x01000000,
while ERR = 1 too. -/
def Obligations.ResetCommand : Prop :=
  ∀ s : State, EncodedAs .reset 0x01 0 ∧ responseWord (commandWord .reset) false 0 = 0x01000000#32 ∧
    Accepts .reset s (State.cleared s.params s.ports) []

/-- R47: what each piece of state holds after reset, and that the machine's first state is the reset state. -/
def Obligations.ResetValues : Prop :=
  (∀ (params : Params) (ports : Ports),
    let s := State.cleared params ports
    (statusReg s = 0 ∧ s.record.errcmd = 0 ∧ cfgReg s = 0 ∧ s.samples = 0 ∧ s.gain = cZero ∧ s.trig.prev = cZero ∧
      s.range = 0 ∧ trigReg s = 0 ∧ s.syn.count = 0 ∧ s.syn.note = 0) ∧
    (s.bank.pulse =
        { sr := cZero, freq := cZero, delta := cZero, phase := cZero, kind := .square, srv := false, fqv := false } ∧
      s.bank.carrier = { s.bank.pulse with kind := .triangle } ∧
      s.bank.lfoCut = { s.bank.pulse with kind := .sine } ∧ s.bank.lfoRes = { s.bank.pulse with kind := .sine } ∧
      s.bank.pan = { s.bank.pulse with kind := .sine } ∧ s.bank.pmod = { s.bank.pulse with kind := .sine } ∧
      s.bank.harm = List.replicate params.maxHarm { s.bank.pulse with kind := .sine }) ∧
    (s.flt.sr = cZero ∧ s.flt.baseCut = cZero ∧ s.flt.baseRes = cZero ∧ s.flt.cutoff = cZero ∧ s.flt.reson = cZero ∧
      s.flt.coef = { b0 := cZero, b1 := cZero, b2 := cZero, a1 := cZero, a2 := cZero } ∧ s.flt.s1 = cZero ∧
      s.flt.s2 = cZero) ∧
    (s.dly.size = 0 ∧ s.dly.wp = 0 ∧ s.dly.rp = 0 ∧ s.dly.time = 0 ∧ s.dly.fb = cZero) ∧
    (s.pan.thr = cZero ∧ s.pan.gr = cZero ∧ s.pan.gl = cZero) ∧
    (s.params = params ∧ s.ports = ports)) ∧
  State.reset = State.cleared Config.params State.reset.ports

/-- R130: `reg.rd` answers the register's 64 bits, low word first, and changes nothing; an address that names no
register is rejected with CMD_BAD_REG. It executes while ERR = 1. -/
def Obligations.RegRd : Prop :=
  ∀ (addr : Nat) (s : State), EncodedAs (.regRd addr) 0x03 0 ∧
    (∀ v : Word64, readReg s addr = some v → Accepts (.regRd addr) s s [lowWord v, highWord v]) ∧
    (readReg s addr = none → Rejects (.regRd addr) s .cmdBadReg)

/-- R44: the register map, every address of it, and no other: `reg.rd` of another is rejected with CMD_BAD_REG. The
premise on the bank is part of the invariant (`State.Inv`). -/
def Obligations.RegisterMap : Prop :=
  ∀ s : State, s.syn.count.toNat ≤ s.bank.harm.length →
    (readReg s 0x0000 = some ((statusReg s).setWidth 64) ∧ readReg s 0x0001 = some (s.record.errcmd.setWidth 64) ∧
      readReg s 0x0002 = some ((cfgReg s).setWidth 64) ∧ readReg s 0x0003 = some s.samples ∧
      readReg s 0x0004 = some s.gain ∧ readReg s 0x0005 = some (s.range.setWidth 64) ∧
      readReg s 0x0006 = some ((trigReg s).setWidth 64) ∧ readReg s 0x0007 = some s.trig.prev ∧
      readReg s 0x0008 = some 0x44524E01#64 ∧ readReg s 0x0009 = some ((paramReg s.params).setWidth 64) ∧
      readReg s 0x000A = some ((capacityReg s.params).setWidth 64)) ∧
    (readReg s 0x0010 = some (s.syn.count.setWidth 64) ∧ readReg s 0x0011 = some (s.syn.note.setWidth 64)) ∧
    (readReg s 0x0020 = some s.flt.sr ∧ readReg s 0x0021 = some s.flt.baseCut ∧
      readReg s 0x0022 = some s.flt.baseRes ∧ readReg s 0x0023 = some s.flt.cutoff ∧
      readReg s 0x0024 = some s.flt.reson ∧ readReg s 0x0025 = some s.flt.coef.b0 ∧
      readReg s 0x0026 = some s.flt.coef.b1 ∧ readReg s 0x0027 = some s.flt.coef.b2 ∧
      readReg s 0x0028 = some s.flt.coef.a1 ∧ readReg s 0x0029 = some s.flt.coef.a2 ∧
      readReg s 0x002A = some s.flt.s1 ∧ readReg s 0x002B = some s.flt.s2) ∧
    (readReg s 0x0030 = some (s.dly.size.setWidth 64) ∧ readReg s 0x0031 = some (s.dly.wp.setWidth 64) ∧
      readReg s 0x0032 = some (s.dly.rp.setWidth 64) ∧ readReg s 0x0033 = some (s.dly.time.setWidth 64) ∧
      readReg s 0x0034 = some s.dly.fb) ∧
    (readReg s 0x0040 = some s.pan.thr ∧ readReg s 0x0041 = some s.pan.gr ∧ readReg s 0x0042 = some s.pan.gl) ∧
    (∀ (k : Nat) (o : Osc), k < 256 → osc? s k = some o →
      readReg s (0x1000 + 16 * k + 0) = some o.sr ∧ readReg s (0x1000 + 16 * k + 1) = some o.freq ∧
      readReg s (0x1000 + 16 * k + 2) = some o.delta ∧ readReg s (0x1000 + 16 * k + 3) = some o.phase ∧
      readReg s (0x1000 + 16 * k + 4) = some (BitVec.ofNat 64 (kindCode o.kind)) ∧
      readReg s (0x1000 + 16 * k + 5) =
        some (BitVec.ofNat 64 ((if o.srv then 1 else 0) + (if o.fqv then 2 else 0)))) ∧
    (∀ addr : Nat, (readReg s addr).isSome = true ↔
      addr ≤ 0x000A ∨ (0x0010 ≤ addr ∧ addr ≤ 0x0011) ∨ (0x0020 ≤ addr ∧ addr ≤ 0x002B) ∨
      (0x0030 ≤ addr ∧ addr ≤ 0x0034) ∨ (0x0040 ≤ addr ∧ addr ≤ 0x0042) ∨
      ∃ k f, k < 256 ∧ f ≤ 5 ∧ isPresent s k ∧ addr = 0x1000 + 16 * k + f) ∧
    (∀ addr : Nat, readReg s addr = none → Rejects (.regRd addr) s .cmdBadReg)

/-- The bits of STATUS (table of R24), READY as the conjunction of R27, the bits of CFG (table of R26), and those of
TRIG (R31). -/
def Obligations.StatusAndCfgBits : Prop :=
  ∀ (s : State) (b : Nat),
    ((statusReg s).getLsbD 0 = s.record.err ∧ (statusReg s).getLsbD 1 = s.record.multi ∧
      (statusReg s).getLsbD 2 =
        (cfgBit s 0 && cfgBit s 1 && cfgBit s 2 && cfgBit s 3 && cfgBit s 4 && cfgBit s 5 && cfgBit s 6
          && cfgBit s 7 && cfgBit s 8) ∧
      (3 ≤ b → b < 8 → (statusReg s).getLsbD b = false) ∧
      (b < 8 → (statusReg s).getLsbD (8 + b) = s.record.cause.getLsbD b) ∧
      (16 ≤ b → (statusReg s).getLsbD b = false)) ∧
    (cfgBit s 0 = s.cfg.syn ∧ cfgBit s 1 = s.cfg.flt ∧ cfgBit s 2 = s.cfg.dsize ∧ cfgBit s 3 = s.cfg.dtime ∧
      cfgBit s 4 = s.cfg.dfb ∧ cfgBit s 5 = s.cfg.pan ∧ cfgBit s 6 = s.bank.pulse.fqv ∧ cfgBit s 7 = s.cfg.gain ∧
      cfgBit s 8 = s.cfg.range ∧ cfgBit s 9 = s.bank.pulse.srv ∧ (10 ≤ b → cfgBit s b = false)) ∧
    ((trigReg s).getLsbD 0 = s.trig.prevValid ∧ (1 ≤ b → (trigReg s).getLsbD b = false))

/-- R34: PARAM and CAPACITY report the build parameters, and no step changes them. -/
def Obligations.ParametersNeverChange : Prop :=
  (∀ (p : Params) (b : Nat), p.maxHarm < 256 → p.delayCapacity < 2 ^ 32 →
    bitField (paramReg p) 7 0 = p.maxHarm ∧ ((paramReg p).getLsbD 8 = true ↔ p.trigMode = .level) ∧
    ((paramReg p).getLsbD 9 = true ↔ p.panOrder = .b) ∧ (10 ≤ b → (paramReg p).getLsbD b = false) ∧
    (capacityReg p).toNat = p.delayCapacity) ∧
  (∀ s t : State, step s = .next t → t.params = s.params)

/-- R131: `buf.rd` answers the entry, low word first, and changes nothing; an index that names no present entry is
rejected with CMD_BAD_INDEX. It executes while ERR = 1. -/
def Obligations.BufRd : Prop :=
  ∀ (index : Int) (s : State), EncodedAs (.bufRd index) 0x04 1 ∧
    (s.cfg.dsize = false ∨ index < 0 ∨ (s.dly.size.toNat : Int) ≤ index →
      Rejects (.bufRd index) s .cmdBadIndex) ∧
    (s.cfg.dsize = true → 0 ≤ index → index < s.dly.size.toNat →
      Accepts (.bufRd index) s s
        [lowWord (memRead s.buf index.toNat), highWord (memRead s.buf index.toNat)])

/-! ### The rejection -/

/-- R134, and R132's atomicity: a rejection writes the error record and one response word and nothing else; every
command that reaches a next state is rejected with exactly one cause or accepted, never both; the record stays set until
`clr.err` or reset. -/
def Obligations.RejectionRecord : Prop :=
  (∀ (c : Cause) (w : Word) (s : State),
    (s.record.err = false →
      reject c w s =
        { s with
          record := { s.record with err := true, cause := c.code, errcmd := w }
          ports := { s.ports with resp := s.ports.resp ++ [responseWord w true c.code] } }) ∧
    (s.record.err = true →
      reject c w s =
        { s with
          record := { s.record with multi := true }
          ports := { s.ports with resp := s.ports.resp ++ [responseWord w true c.code] } })) ∧
  (∀ (i : Instr) (s t : State), exec i s = .next t → (∃ c, Rejects i s c) ∨ ∃ u data, Accepts i s u data) ∧
  (∀ (i : Instr) (s : State) (c c' : Cause), Rejects i s c → Rejects i s c' → c = c') ∧
  (∀ (i : Instr) (s u : State) (c : Cause) (data : List Word), Rejects i s c → ¬ Accepts i s u data) ∧
  (∀ (i : Instr) (s t : State), exec i s = .next t → i ≠ .clrErr → i ≠ .reset → s.record.err = true →
    t.record.err = true ∧ t.record.cause = s.record.cause ∧ t.record.errcmd = s.record.errcmd)

/-- R135: while ERR = 1 every legal command but nop, reset, clr.err, reg.rd and buf.rd is rejected with
CMD_ERR_PENDING before its own checks, MULTI is set and the recorded cause stays; those five are never rejected so. -/
def Obligations.PendingErrorBlocks : Prop :=
  ∀ (i : Instr) (s : State), s.record.err = true →
    (RunsWhilePending i = false →
      exec i s =
        .next
          { s with
            record := { s.record with multi := true }
            ports := { s.ports with resp := s.ports.resp ++ [responseWord (commandWord i) true 0x14#8] } }) ∧
    (RunsWhilePending i = true → ¬ Rejects i s .cmdErrPending)

/-- R67: every command gets exactly one response, its word first, its fields as the table says; data words follow only
an acceptance, as many as R68's table gives. An illegal word's rejection is one such word too. -/
def Obligations.OneResponse : Prop :=
  (∀ (i : Instr) (s t : State), exec i s = .next t →
    ∃ word data, t.ports.resp = s.ports.resp ++ word :: data ∧
      bitField word 31 24 = opcOf (commandWord i) ∧ bitField word 23 16 = 0 ∧ bitField word 14 8 = 0 ∧
      ((bitField word 15 15 = 1 ∧ data = [] ∧ ∃ c : Cause, bitField word 7 0 = c.code.toNat) ∨
        (bitField word 15 15 = 0 ∧ bitField word 7 0 = 0 ∧ data.length = dataCount i))) ∧
  (∀ (w : Word) (c : Cause) (s : State),
    ∃ word, (reject c w s).ports.resp = s.ports.resp ++ [word] ∧ bitField word 31 24 = opcOf w ∧
      bitField word 23 16 = 0 ∧ bitField word 15 15 = 1 ∧ bitField word 14 8 = 0 ∧
      bitField word 7 0 = c.code.toNat)

/-! ### Oscillators -/

/-- R81. -/
def Obligations.OscSr : Prop :=
  ∀ (osc : Nat) (sr : F64) (s : State),
    EncodedAs (.oscSr osc sr) 0x10 2 ∧
    (s.record.err = true → Rejects (.oscSr osc sr) s .cmdErrPending) ∧
    (s.record.err = false → osc ≠ 0 → Rejects (.oscSr osc sr) s .cmdBadOsc) ∧
    (s.record.err = false → osc = 0 → ¬ (fGt sr cZero = true ∧ finite sr = true) →
      Rejects (.oscSr osc sr) s .cfgSampleRate) ∧
    (s.record.err = false → osc = 0 → fGt sr cZero = true → finite sr = true →
      ∃ t, Accepts (.oscSr osc sr) s t [] ∧ cfgBit t 9 = true ∧
        t = { s with bank := { s.bank with pulse := { s.bank.pulse with sr := sr, srv := true } } })

/-- The pseudocode of R82: DELTA is F over the sample rate, PHASE is unchanged. -/
def Obligations.OscFreq : Prop :=
  ∀ (osc : Nat) (f : F64) (s : State),
    EncodedAs (.oscFreq osc f) 0x11 2 ∧
    (s.record.err = true → Rejects (.oscFreq osc f) s .cmdErrPending) ∧
    (s.record.err = false → osc ≠ 0 → Rejects (.oscFreq osc f) s .cmdBadOsc) ∧
    (s.record.err = false → osc = 0 → s.bank.pulse.srv = false → Rejects (.oscFreq osc f) s .cfgNoSampleRate) ∧
    (s.record.err = false → osc = 0 → s.bank.pulse.srv = true → finite f = false →
      Rejects (.oscFreq osc f) s .cfgValue) ∧
    (s.record.err = false → osc = 0 → s.bank.pulse.srv = true → finite f = true →
      ∃ t, Accepts (.oscFreq osc f) s t [] ∧ cfgBit t 6 = true ∧
        t = { s with
          bank :=
            { s.bank with
              pulse := { s.bank.pulse with freq := f, delta := fDiv f s.bank.pulse.sr, fqv := true } } })

/-- R83 and R84: `osc.phase` sets the pulse generator's phase to any finite value, `osc.kind` its waveform to any of
the four, and neither changes anything else. -/
def Obligations.OscPhaseAndKind : Prop :=
  ∀ (osc : Nat) (p : F64) (kind : WaveKind) (s : State),
    (EncodedAs (.oscPhase osc p) 0x12 2 ∧
      (s.record.err = true → Rejects (.oscPhase osc p) s .cmdErrPending) ∧
      (s.record.err = false → osc ≠ 0 → Rejects (.oscPhase osc p) s .cmdBadOsc) ∧
      (s.record.err = false → osc = 0 → finite p = false → Rejects (.oscPhase osc p) s .cfgValue) ∧
      (s.record.err = false → osc = 0 → finite p = true →
        Accepts (.oscPhase osc p) s { s with bank := { s.bank with pulse := { s.bank.pulse with phase := p } } } [])) ∧
    (EncodedAs (.oscKind osc kind) 0x13 0 ∧
      (s.record.err = true → Rejects (.oscKind osc kind) s .cmdErrPending) ∧
      (s.record.err = false → osc ≠ 0 → Rejects (.oscKind osc kind) s .cmdBadOsc) ∧
      (s.record.err = false → osc = 0 →
        Accepts (.oscKind osc kind) s { s with bank := { s.bank with pulse := { s.bank.pulse with kind := kind } } }
          []))

/-- R77 and R85: `osc.step` of a present, configured oscillator adds DELTA to PHASE, subtracts 1.0 once if the sum is
above 1.0, writes the phase back and answers the waveform at the new phase; nothing else changes. -/
def Obligations.OscStep : Prop :=
  ∀ (osc : Nat) (s : State),
    EncodedAs (.oscStep osc) 0x14 0 ∧
    (s.record.err = true → Rejects (.oscStep osc) s .cmdErrPending) ∧
    (s.record.err = false → osc? s osc = none → Rejects (.oscStep osc) s .cmdBadOsc) ∧
    (∀ o : Osc, s.record.err = false → osc? s osc = some o → o.fqv = false →
      Rejects (.oscStep osc) s .cfgNotConfigured) ∧
    (∀ (o : Osc) (p : F64), s.record.err = false → osc? s osc = some o → o.fqv = true →
      p = (if fGt (fAdd o.phase o.delta) cOne then fSub (fAdd o.phase o.delta) cOne else fAdd o.phase o.delta) →
      ∃ t, Accepts (.oscStep osc) s t [lowWord (wave o.kind p), highWord (wave o.kind p)] ∧
        t = { s with bank := t.bank } ∧ osc? t osc = some { o with phase := p } ∧
        ∀ k, k ≠ osc → osc? t k = osc? s k)

/-- The table of R78, and the ranges of R79 (the spec's own inference from R77 and R78): with 0 ≤ PHASE ≤ 1 and
0 ≤ DELTA < 1 one step leaves the phase in [0, 1], the output is in its kind's range, and the subtraction of 1.0 is
exact. The sine's range rests on the law of SIN (D11; assumption 7). -/
def Obligations.PhaseStaysInUnit : Prop :=
  (∀ p : F64, wave .sine p = fSin (fMul cTwoPi p) ∧ wave .triangle p = fSub (fAbs (fSub p cHalf)) cHalf ∧
    wave .saw p = fSub p cHalf ∧ wave .square p = if fLe p cHalf then cHalf else cNegHalf) ∧
  (∀ o : Osc, between cZero cOne o.phase = true → fLe cZero o.delta = true → fLt o.delta cOne = true →
    between cZero cOne (nextPhase o) = true ∧
    (fGt (fAdd o.phase o.delta) cOne = true →
      signedUnits (nextPhase o) = signedUnits (fAdd o.phase o.delta) - signedUnits cOne) ∧
    match o.kind with
    | .sine => between cNegOne cOne (stepOut o) = true
    | .triangle => between cNegHalf cZero (stepOut o) = true
    | .saw => between cNegHalf cHalf (stepOut o) = true
    | .square => stepOut o = cHalf ∨ stepOut o = cNegHalf)

/-- R35: which oscillators are present; writing one leaves every other as it was. The premise on the bank is part of
the invariant (`State.Inv`). -/
def Obligations.OscillatorBank : Prop :=
  ∀ (s : State) (k : Nat) (o : Osc), s.syn.count.toNat ≤ s.bank.harm.length →
    ((osc? s k).isSome = true ↔ isPresent s k) ∧
    (isPresent s k → osc? (withOsc k o s) k = some o) ∧
    (∀ j, j ≠ k → osc? (withOsc k o s) j = osc? s j)

/-- R37: the kind of oscillators 1 to 5 and of the harmonics never changes, and that of oscillator 0 only by `osc.kind`
and by reset. -/
def Obligations.KindsNeverChange : Prop :=
  ∀ (i : Instr) (s t : State), exec i s = .next t →
    (s.bank.KindsFixed → t.bank.KindsFixed) ∧
    ((∀ osc kind, i ≠ .oscKind osc kind) → i ≠ .reset → t.bank.pulse.kind = s.bank.pulse.kind)

/-! ### Additive synth -/

/-- R88 and R92: the checks of `syn.setup` in order, and its effect: the count, the note, and each harmonic below the
count set up anew at phase 0 and tuned to (i+1) × F0(NOTE); the others as they were. -/
def Obligations.SynSetup : Prop :=
  ∀ (count note : Nat) (sr : F64) (s : State),
    EncodedAs (.synSetup count note sr) 0x20 2 ∧
    (s.record.err = true → Rejects (.synSetup count note sr) s .cmdErrPending) ∧
    (s.record.err = false → ¬ (fGt sr cZero = true ∧ finite sr = true) →
      Rejects (.synSetup count note sr) s .cfgSampleRate) ∧
    (s.record.err = false → fGt sr cZero = true → finite sr = true → (count < 1 ∨ s.params.maxHarm < count) →
      Rejects (.synSetup count note sr) s .cfgOscCount) ∧
    (∀ f0 : F64, s.record.err = false → fGt sr cZero = true → finite sr = true → 1 ≤ count →
      count ≤ s.params.maxHarm → f0 = fMul c440 (fExp2 (fDiv (fSub (fOfNat note) c69) cTwelve)) → count < 2 ^ 8 →
      ∃ t, Accepts (.synSetup count note sr) s t [] ∧ cfgBit t 0 = true ∧
        t = { s with
          cfg := { s.cfg with syn := true }
          syn := { count := BitVec.ofNat 32 count, note := BitVec.ofNat 32 note }
          bank := { s.bank with harm := t.bank.harm } } ∧
        t.bank.harm.length = s.bank.harm.length ∧
        ∀ (j : Nat) (o : Osc), s.bank.harm[j]? = some o →
          t.bank.harm[j]? =
            some (if j < count then
              { o with
                sr := sr, srv := true, phase := cZero, fqv := true
                freq := fMul (fOfNat (j + 1)) f0, delta := fDiv (fMul (fOfNat (j + 1)) f0) sr }
            else o))

/-- R93: `syn.retune` scales the frequencies of the present harmonics in place, keeps their phases, rates and the count,
records the note, and changes nothing when repeated; it is the `retune` of the trigger (see `TriggerRule`). -/
def Obligations.SynRetune : Prop :=
  ∀ (note : Nat) (s : State),
    EncodedAs (.synRetune note) 0x21 0 ∧
    (s.record.err = true → Rejects (.synRetune note) s .cmdErrPending) ∧
    (s.record.err = false → s.cfg.syn = false → Rejects (.synRetune note) s .cfgOrder) ∧
    (∀ f0 : F64, s.record.err = false → s.cfg.syn = true →
      f0 = fMul c440 (fExp2 (fDiv (fSub (fOfNat note) c69) cTwelve)) →
      ∃ t, Accepts (.synRetune note) s t [] ∧ Accepts (.synRetune note) t t [] ∧ t = retune note s ∧
        t = { s with
          syn := { s.syn with note := BitVec.ofNat 32 note }
          bank := { s.bank with harm := t.bank.harm } } ∧
        t.bank.harm.length = s.bank.harm.length ∧
        ∀ (j : Nat) (o : Osc), s.bank.harm[j]? = some o →
          t.bank.harm[j]? =
            some (if j < s.syn.count.toNat then
              { o with freq := fMul (fOfNat (j + 1)) f0, delta := fDiv (fMul (fOfNat (j + 1)) f0) o.sr }
            else o))

/-- R89 and R94: `syn.step` advances every harmonic below the count once and answers the sum, in ascending order from
+0.0, of each output over 2.0 × (i+1), divided by the count; nothing else changes. -/
def Obligations.SynStep : Prop :=
  ∀ s : State,
    EncodedAs .synStep 0x22 0 ∧
    (s.record.err = true → Rejects .synStep s .cmdErrPending) ∧
    (s.record.err = false → s.cfg.syn = false → Rejects .synStep s .cfgNotConfigured) ∧
    (∀ sum v : F64, s.record.err = false → s.cfg.syn = true → s.syn.count.toNat ≤ s.bank.harm.length →
      sum = (List.range s.syn.count.toNat).foldl
        (fun acc j => fAdd acc (fDiv (stepOut (s.bank.harm.getD j (Osc.reset .sine))) (fMul cTwo (fOfNat (j + 1)))))
        cZero →
      v = fDiv sum (fOfNat s.syn.count.toNat) →
      ∃ t, Accepts .synStep s t [lowWord v, highWord v] ∧ t = { s with bank := { s.bank with harm := t.bank.harm } } ∧
        t.bank.harm.length = s.bank.harm.length ∧
        ∀ (j : Nat) (o : Osc), s.bank.harm[j]? = some o →
          t.bank.harm[j]? = some (if j < s.syn.count.toNat then { o with phase := nextPhase o } else o))

/-! ### Filter modulator -/

/-- R103: the checks of `flt.setup` in operand order, then the cross-operand check, and its effect. -/
def Obligations.FltSetup : Prop :=
  ∀ (sr carrierF cutLfoF baseCut resLfoF baseRes : F64) (s : State) (i : Instr),
    i = .fltSetup sr carrierF cutLfoF baseCut resLfoF baseRes →
    EncodedAs i 0x30 12 ∧
    (s.record.err = true → Rejects i s .cmdErrPending) ∧
    (s.record.err = false → ¬ (fGt sr cZero = true ∧ finite sr = true) → Rejects i s .cfgSampleRate) ∧
    (s.record.err = false → fGt sr cZero = true → finite sr = true →
      (finite carrierF = false → Rejects i s .cfgValue) ∧
      (finite carrierF = true → finite cutLfoF = false → Rejects i s .cfgValue) ∧
      (finite carrierF = true → finite cutLfoF = true → finite baseCut = false → Rejects i s .cfgFilter) ∧
      (finite carrierF = true → finite cutLfoF = true → finite baseCut = true → finite resLfoF = false →
        Rejects i s .cfgValue) ∧
      (finite carrierF = true → finite cutLfoF = true → finite baseCut = true → finite resLfoF = true →
        (¬ (finite baseRes = true ∧ fGt baseRes cZero = true) ∨
          ¬ (fGt (fSub baseCut c500) cZero = true ∧ fLt (fAdd baseCut c500) (fMul sr cHalf) = true) →
          Rejects i s .cfgFilter) ∧
        (finite baseRes = true → fGt baseRes cZero = true → fGt (fSub baseCut c500) cZero = true →
          fLt (fAdd baseCut c500) (fMul sr cHalf) = true →
          ∃ t, Accepts i s t [] ∧ cfgBit t 1 = true ∧
            t = { s with
              cfg := { s.cfg with flt := true }
              bank :=
                { s.bank with
                  carrier :=
                    { s.bank.carrier with
                      sr := sr, srv := true, freq := carrierF, delta := fDiv carrierF sr, fqv := true,
                      phase := cZero }
                  lfoCut :=
                    { s.bank.lfoCut with
                      sr := sr, srv := true, freq := cutLfoF, delta := fDiv cutLfoF sr, fqv := true,
                      phase := c055 }
                  lfoRes :=
                    { s.bank.lfoRes with
                      sr := sr, srv := true, freq := resLfoF, delta := fDiv resLfoF sr, fqv := true,
                      phase := c077 } }
              flt :=
                { sr := sr, baseCut := baseCut, baseRes := baseRes, cutoff := cZero, reson := cZero,
                  coef := { b0 := cZero, b1 := cZero, b2 := cZero, a1 := cZero, a2 := cZero }, s1 := cZero,
                  s2 := cZero } })))

/-- R95, R100 and R101: `flt.step` advances the two LFOs and the carrier, recomputes cutoff, resonance and the five
coefficients (the default `LPF` of R99), filters carrier × X through the transposed direct form II, and answers the
result; nothing else changes. -/
def Obligations.FltStep : Prop :=
  ∀ (x : F64) (s : State),
    EncodedAs (.fltStep x) 0x31 2 ∧
    (s.record.err = true → Rejects (.fltStep x) s .cmdErrPending) ∧
    (s.record.err = false → s.cfg.flt = false → Rejects (.fltStep x) s .cfgNotConfigured) ∧
    (s.record.err = false → s.cfg.flt = true → finite x = false → Rejects (.fltStep x) s .cfgValue) ∧
    (∀ cutoff reson n n2 iq c1 m y s1 s2 : F64, ∀ coef : Coef,
      s.record.err = false → s.cfg.flt = true → finite x = true →
      cutoff = fAdd (fMul (stepOut s.bank.lfoCut) c500) s.flt.baseCut →
      reson = fMul (fAdd cThree (stepOut s.bank.lfoRes)) s.flt.baseRes →
      n = fDiv cOne (fTan (fDiv (fMul cPi cutoff) s.flt.sr)) → n2 = fMul n n → iq = fDiv cOne reson →
      c1 = fDiv cOne (fAdd (fAdd cOne (fMul iq n)) n2) →
      coef = { b0 := c1, b1 := fMul cTwo c1, b2 := c1, a1 := fMul (fMul c1 cTwo) (fSub cOne n2),
               a2 := fMul c1 (fAdd (fSub cOne (fMul iq n)) n2) } →
      m = fMul (stepOut s.bank.carrier) x →
      y = fAdd (fMul coef.b0 m) s.flt.s1 →
      s1 = fAdd (fSub (fMul coef.b1 m) (fMul coef.a1 y)) s.flt.s2 →
      s2 = fSub (fMul coef.b2 m) (fMul coef.a2 y) →
      Accepts (.fltStep x) s
        { s with
          bank :=
            { s.bank with
              carrier := { s.bank.carrier with phase := nextPhase s.bank.carrier }
              lfoCut := { s.bank.lfoCut with phase := nextPhase s.bank.lfoCut }
              lfoRes := { s.bank.lfoRes with phase := nextPhase s.bank.lfoRes } }
          flt := { s.flt with cutoff := cutoff, reson := reson, coef := coef, s1 := s1, s2 := s2 } }
        [lowWord y, highWord y])

/-- The ranges of R96 (the spec's own inference from R95), in binary64: with both LFO outputs in [−1, 1] the cutoff lies
between BASE_CUT − 500 and BASE_CUT + 500, hence inside (0, SR/2), and the resonance between 2 and 4 times BASE_RES. -/
def Obligations.CutoffAndResonanceRanges : Prop :=
  ∀ s : State, finite s.flt.baseCut = true → badBand s.flt.sr s.flt.baseCut = false →
    finite s.flt.baseRes = true → fGt s.flt.baseRes cZero = true →
    between cNegOne cOne (stepOut s.bank.lfoCut) = true → between cNegOne cOne (stepOut s.bank.lfoRes) = true →
    between (fSub s.flt.baseCut c500) (fAdd s.flt.baseCut c500) (nextCutoff s) = true ∧
    fGt (nextCutoff s) cZero = true ∧ fLt (nextCutoff s) (fMul s.flt.sr cHalf) = true ∧
    between (fMul cTwo s.flt.baseRes) (fMul cFour s.flt.baseRes) (nextReson s) = true ∧
    fGt (nextReson s) cZero = true

/-! ### Delay line -/

/-- R109: the checks of `dly.size` and its effect: every present entry reads +0.0, both pointers and the time are 0,
CFG.DSIZE is set and CFG.DTIME cleared; DLY_FB and CFG.DFB stay. -/
def Obligations.DlySize : Prop :=
  ∀ (n : Int) (s : State),
    EncodedAs (.dlySize n) 0x40 1 ∧
    (s.record.err = true → Rejects (.dlySize n) s .cmdErrPending) ∧
    (s.record.err = false → n ≤ 0 → Rejects (.dlySize n) s .cfgBufferSize) ∧
    (s.record.err = false → 0 < n → (s.params.delayCapacity : Int) < n → Rejects (.dlySize n) s .cfgCapacity) ∧
    (s.record.err = false → 0 < n → n ≤ s.params.delayCapacity →
      ∃ t, Accepts (.dlySize n) s t [] ∧ (∀ j : Nat, j < n → memRead t.buf j = cZero) ∧ cfgBit t 2 = true ∧
        cfgBit t 3 = false ∧
        t = { s with
          buf := t.buf
          dly := { s.dly with size := BitVec.ofInt 32 n, wp := 0, rp := 0, time := 0 }
          cfg := { s.cfg with dtime := false, dsize := true } })

/-- R110: the checks of `dly.time` and its effect: RP is (WP − D) mod SIZE, the buffer and WP stay. The premise on WP is
part of the invariant (`DelayOk`, R41). -/
def Obligations.DlyTime : Prop :=
  ∀ (d : Int) (s : State),
    EncodedAs (.dlyTime d) 0x41 1 ∧
    (s.record.err = true → Rejects (.dlyTime d) s .cmdErrPending) ∧
    (s.record.err = false → s.cfg.dsize = false → Rejects (.dlyTime d) s .cfgOrder) ∧
    (s.record.err = false → s.cfg.dsize = true → (d < 0 ∨ (s.dly.size.toNat : Int) ≤ d) →
      Rejects (.dlyTime d) s .cfgDelayTime) ∧
    (s.record.err = false → s.cfg.dsize = true → 0 ≤ d → d < s.dly.size.toNat → s.dly.wp < s.dly.size →
      ∃ t, Accepts (.dlyTime d) s t [] ∧ cfgBit t 3 = true ∧
        (t.dly.rp.toNat : Int) = ((s.dly.wp.toNat : Int) - d) % (s.dly.size.toNat : Int) ∧
        (t.dly.time.toNat : Int) = d ∧
        t = { s with
          dly := { s.dly with rp := t.dly.rp, time := t.dly.time }
          cfg := { s.cfg with dtime := true } })

/-- R111: the incoming value is checked against [0, 1) and stored as it is. -/
def Obligations.DlyFb : Prop :=
  ∀ (f : F64) (s : State),
    EncodedAs (.dlyFb f) 0x42 2 ∧
    (s.record.err = true → Rejects (.dlyFb f) s .cmdErrPending) ∧
    (s.record.err = false → s.cfg.dsize = false → Rejects (.dlyFb f) s .cfgOrder) ∧
    (s.record.err = false → s.cfg.dsize = true → ¬ (fGe f cZero = true ∧ fLt f cOne = true) →
      Rejects (.dlyFb f) s .cfgFeedback) ∧
    (s.record.err = false → s.cfg.dsize = true → fGe f cZero = true → fLt f cOne = true →
      ∃ t, Accepts (.dlyFb f) s t [] ∧ cfgBit t 4 = true ∧
        t = { s with dly := { s.dly with fb := f }, cfg := { s.cfg with dfb := true } })

/-- The pseudocode of R106 and the checks of R112: the tap is read at RP, the mix `X × (1 − FB) + FB × y` is written at
WP and answered, and both pointers advance modulo SIZE. With FB = +0.0 and a finite tap the answer has X's own value,
up to the sign of a zero: that condition is assumption 15's. The premises on the pointers are part of the invariant
(`DelayOk`, R50). -/
def Obligations.DlyStep : Prop :=
  ∀ (x : F64) (s : State),
    EncodedAs (.dlyStep x) 0x43 2 ∧
    (s.record.err = true → Rejects (.dlyStep x) s .cmdErrPending) ∧
    (s.record.err = false → ¬ (s.cfg.dsize = true ∧ s.cfg.dtime = true ∧ s.cfg.dfb = true) →
      Rejects (.dlyStep x) s .cfgNotConfigured) ∧
    (s.record.err = false → s.cfg.dsize = true → s.cfg.dtime = true → s.cfg.dfb = true → finite x = false →
      Rejects (.dlyStep x) s .cfgValue) ∧
    (∀ y out : F64, s.record.err = false → s.cfg.dsize = true → s.cfg.dtime = true → s.cfg.dfb = true →
      finite x = true → s.dly.rp < s.dly.size → s.dly.wp < s.dly.size →
      y = memRead s.buf s.dly.rp.toNat →
      out = fAdd (fMul x (fSub cOne s.dly.fb)) (fMul s.dly.fb y) →
      (∃ t, Accepts (.dlyStep x) s t [lowWord out, highWord out] ∧
        (Memory.wf s.buf = true → memRead t.buf s.dly.wp.toNat = out) ∧
        (∀ j, j ≠ s.dly.wp.toNat → memRead t.buf j = memRead s.buf j) ∧
        t.dly.wp.toNat = (s.dly.wp.toNat + 1) % s.dly.size.toNat ∧
        t.dly.rp.toNat = (s.dly.rp.toNat + 1) % s.dly.size.toNat ∧
        t = { s with buf := t.buf, dly := { s.dly with wp := t.dly.wp, rp := t.dly.rp } }) ∧
      (s.dly.fb = cZero → finite y = true → signedUnits out = signedUnits x))

/-- The delay seen at the tap (R107, the spec's own inference from R105 and R106): step t + D reads the output of step
t, D being DTIME or, where that is 0, SIZE. Before step D the tap is what the buffer held at first, t entries on from
RP: +0.0 where the buffer lists nothing, as after `dly.size`. -/
def Obligations.TapDelay : Prop :=
  ∀ (x : Nat → F64) (s : State) (t : Nat), DelayOk s → s.cfg.dtime = true →
    dlyTapAt x s (t + tapDelay s) = dlyOutAt x s t ∧
    (t < tapDelay s → dlyTapAt x s t = memRead s.buf ((s.dly.rp.toNat + t) % s.dly.size.toNat)) ∧
    (t < tapDelay s → s.buf = [] → dlyTapAt x s t = cZero)

/-- The pointer invariant (R105, the spec's own inference from R106, R109 and R110) with the buffer's canonical form: a
command keeps it. The premise on the capacity is R8's bound. -/
def Obligations.DelayPointersKept : Prop :=
  ∀ (i : Instr) (s t : State), s.params.delayCapacity ≤ 2147483647 → DelayOk s → exec i s = .next t → DelayOk t

/-! ### Panner -/

/-- R116: the checks of `pan.setup` in operand order and its effect: the modulator starts at 0.25, is advanced once,
and its output seeds the panning phase. -/
def Obligations.PanSetup : Prop :=
  ∀ (sr panF modF thr : F64) (s : State) (i : Instr), i = .panSetup sr panF modF thr →
    EncodedAs i 0x50 8 ∧
    (s.record.err = true → Rejects i s .cmdErrPending) ∧
    (s.record.err = false → ¬ (fGt sr cZero = true ∧ finite sr = true) → Rejects i s .cfgSampleRate) ∧
    (s.record.err = false → fGt sr cZero = true → finite sr = true →
      (finite panF = false → Rejects i s .cfgValue) ∧
      (finite panF = true → finite modF = false → Rejects i s .cfgValue) ∧
      (finite panF = true → finite modF = true → ¬ (fGe thr cZero = true ∧ fLt thr cOne = true) →
        Rejects i s .cfgThreshold) ∧
      (∀ pmod : Osc, finite panF = true → finite modF = true → fGe thr cZero = true → fLt thr cOne = true →
        pmod = { s.bank.pmod with
          sr := sr, srv := true, freq := modF, delta := fDiv modF sr, fqv := true, phase := cQuarter } →
        ∃ t, Accepts i s t [] ∧ cfgBit t 5 = true ∧
          t = { s with
            cfg := { s.cfg with pan := true }
            bank :=
              { s.bank with
                pan :=
                  { s.bank.pan with
                    sr := sr, srv := true, freq := panF, delta := fDiv panF sr, fqv := true,
                    phase := wave pmod.kind (nextPhase pmod) }
                pmod := { pmod with phase := nextPhase pmod } }
            pan := { thr := thr, gr := cZero, gl := cZero } }))

/-- R117: the new floor is checked against [0, 1) and stored; the gains stay until the next step. -/
def Obligations.PanThr : Prop :=
  ∀ (v : F64) (s : State),
    EncodedAs (.panThr v) 0x51 2 ∧
    (s.record.err = true → Rejects (.panThr v) s .cmdErrPending) ∧
    (s.record.err = false → s.cfg.pan = false → Rejects (.panThr v) s .cfgOrder) ∧
    (s.record.err = false → s.cfg.pan = true → ¬ (fGe v cZero = true ∧ fLt v cOne = true) →
      Rejects (.panThr v) s .cfgThreshold) ∧
    (s.record.err = false → s.cfg.pan = true → fGe v cZero = true → fLt v cOne = true →
      Accepts (.panThr v) s { s with pan := { s.pan with thr := v } } [])

/-- R113 and R118: `pan.step` under both orders of the two advances, the two floors, and the answer: right, then
left. -/
def Obligations.PanStep : Prop :=
  ∀ s : State,
    EncodedAs .panStep 0x52 0 ∧
    (s.record.err = true → Rejects .panStep s .cmdErrPending) ∧
    (s.record.err = false → s.cfg.pan = false → Rejects .panStep s .cfgNotConfigured) ∧
    (∀ (m v raw gr left gl : F64) (before after : Osc), s.record.err = false → s.cfg.pan = true →
      m = wave s.bank.pmod.kind (nextPhase s.bank.pmod) →
      before = (match s.params.panOrder with
        | .a => { s.bank.pan with phase := m }
        | .b => s.bank.pan) →
      v = wave before.kind (nextPhase before) →
      after = (match s.params.panOrder with
        | .a => { s.bank.pan with phase := nextPhase before }
        | .b => { s.bank.pan with phase := m }) →
      raw = fMul (fAdd v cOne) cHalf → gr = (if fLt raw s.pan.thr then s.pan.thr else raw) →
      left = fSub cOne gr → gl = (if fLt left s.pan.thr then s.pan.thr else left) →
      Accepts .panStep s
        { s with
          bank :=
            { s.bank with pan := after, pmod := { s.bank.pmod with phase := nextPhase s.bank.pmod } }
          pan := { s.pan with gr := gr, gl := gl } }
        [lowWord gr, highWord gr, lowWord gl, highWord gl])

/-- The floors and bounds of R115 (the spec's own inference from R113), in binary64: with the panning output in [−1, 1]
and 0 ≤ THR < 1, both gains of a step are at least THR and at most 1. -/
def Obligations.GainFloors : Prop :=
  ∀ s : State, between cNegOne cOne (stepOut (panSource s)) = true → outsideUnit s.pan.thr = false →
    between s.pan.thr cOne (panGr s) = true ∧ between s.pan.thr cOne (panGl s) = true ∧
    (panAdvance s).pan = { s.pan with gr := panGr s, gl := panGl s }

/-! ### Pipeline -/

/-- R124 and R125: `mix.gain` stores any finite gain; `trg.range` stores (HI << 8) | LO when LO ≤ HI. -/
def Obligations.MixGainAndTrgRange : Prop :=
  ∀ (g : F64) (lo hi : Nat) (s : State),
    (EncodedAs (.mixGain g) 0x60 2 ∧
      (s.record.err = true → Rejects (.mixGain g) s .cmdErrPending) ∧
      (s.record.err = false → finite g = false → Rejects (.mixGain g) s .cfgValue) ∧
      (s.record.err = false → finite g = true →
        ∃ t, Accepts (.mixGain g) s t [] ∧ cfgBit t 7 = true ∧
          t = { s with gain := g, cfg := { s.cfg with gain := true } })) ∧
    (EncodedAs (.trgRange lo hi) 0x61 0 ∧
      (s.record.err = true → Rejects (.trgRange lo hi) s .cmdErrPending) ∧
      (s.record.err = false → hi < lo → Rejects (.trgRange lo hi) s .cfgRange) ∧
      (s.record.err = false → lo ≤ hi → hi < 128 →
        ∃ t, Accepts (.trgRange lo hi) s t [] ∧ cfgBit t 8 = true ∧
          t = { s with range := BitVec.ofNat 32 (2 ^ 8 * hi + lo), cfg := { s.cfg with range := true } } ∧
          rangeLo t.range = lo ∧ rangeHi t.range = hi))

/-- R120: the pulse generator is advanced and its output remembered; the trigger fires under EDGE when an earlier
output exists, was at most 0 and this one is above 0, under LEVEL when this one is above 0; a firing trigger takes one
draw and retunes to LO + (r mod (HI − LO + 1)), a note of [LO, HI]. A retune keeps every harmonic phase and the count,
and no command but `process` and `reset` changes what the trigger remembers. -/
def Obligations.TriggerRule : Prop :=
  ∀ (s : State) (p : F64) (fire : Bool), p = wave s.bank.pulse.kind (nextPhase s.bank.pulse) →
    fire = (match s.params.trigMode with
      | .edge => s.trig.prevValid && fLe s.trig.prev cZero && fGt p cZero
      | .level => fGt p cZero) →
    let advancedState : State :=
      { s with
        bank := { s.bank with pulse := { s.bank.pulse with phase := nextPhase s.bank.pulse } }
        trig := { prevValid := true, prev := p } }
    (fire = false → trigger s = advancedState) ∧
    (fire = true → ∀ r rest, randDraw s.ports = (r, rest) →
      trigger s =
        retune (rangeLo s.range + r.toNat % (rangeHi s.range - rangeLo s.range + 1))
          { advancedState with ports := rest }) ∧
    (rangeLo s.range ≤ rangeHi s.range → ∀ r : Word, rangeLo s.range ≤ drawnNote s.range r ∧
      drawnNote s.range r ≤ rangeHi s.range ∧ rangeHi s.range ≤ 127) ∧
    (s.params.trigMode = .edge → s.trig.prevValid = false → fire = false) ∧
    (∀ note, (retune note s).syn.count = s.syn.count ∧
      ∀ (j : Nat) (o : Osc), s.bank.harm[j]? = some o →
        ∃ o', (retune note s).bank.harm[j]? = some o' ∧ o'.phase = o.phase) ∧
    (∀ (i : Instr) (t : State), exec i s = .next t → (∀ n, i ≠ .process n) → i ≠ .reset → t.trig = s.trig)

/-- R122: one sample step runs its stages in order: trigger, synth × GAIN, filter, delay, panner, and answers the left
then the right sample as binary32; SAMPLE_COUNT goes up by 1. -/
def Obligations.SampleStepStages : Prop :=
  ∀ (s s1 s2 s3 s4 : State) (x2 x3 x4 : F64), ready s = true → s.record.err = false → s.dly.rp < s.dly.size →
    s.dly.wp < s.dly.size → s1 = trigger s → x2 = fMul (synOut s1) s1.gain → s2 = synAdvance s1 →
    x3 = fltOut x2 s2 → s3 = fltAdvance x2 s2 → x4 = dlyOut x3 s3 → s4 = dlyAdvance x3 s3 →
    Accepts (.process 1) s { panAdvance s4 with samples := s.samples + 1 }
      [toF32 (fMul (panGl s4) x4), toF32 (fMul (panGr s4) x4)]

/-- R126: `process` is rejected while READY = 0; otherwise it runs N sample steps, with 2·N data words; N = 0 changes
nothing; N + M samples are N samples and then M. The premise on the pointers is part of the invariant (`DelayOk`,
R50). -/
def Obligations.ProcessRule : Prop :=
  ∀ (n m : Nat) (s : State),
    EncodedAs (.process n) 0x62 0 ∧
    (s.record.err = true → Rejects (.process n) s .cmdErrPending) ∧
    (s.record.err = false → ready s = false → Rejects (.process n) s .cfgNotConfigured) ∧
    (s.record.err = false → ready s = true → Accepts (.process 0) s s []) ∧
    (s.record.err = false → ready s = true → s.dly.rp < s.dly.size → s.dly.wp < s.dly.size →
      ∃ u v out out', Accepts (.process n) s u out ∧ out.length = 2 * n ∧ u = sampleRun s n ∧
        u.samples = s.samples + BitVec.ofNat 64 n ∧
        Accepts (.process m) u v out' ∧ Accepts (.process (n + m)) s v (out ++ out'))

/-- A draw is taken only by a firing trigger, once, in the order of the port's sequence, which reset does not restart;
no other command reads the port (R119). That the values come from a list in State and, once it is used up, from
`Config.randomDraw` at the counter is the model's form (assumption 3). -/
def Obligations.RandomDraws : Prop :=
  (∀ (i : Instr) (s t : State), (∀ n, i ≠ .process n) → exec i s = .next t →
    t.ports.rand = s.ports.rand ∧ t.ports.drawn = s.ports.drawn) ∧
  (∀ s : State,
    (sampleStep s).1.ports =
      if fires s.params.trigMode s.trig (stepOut s.bank.pulse) then (randDraw s.ports).2 else s.ports) ∧
  (∀ p : Ports, (randDraw p).2.drawn = p.drawn + 1 ∧
    (∀ r rest, p.rand = r :: rest → randDraw p = (r, { p with rand := rest, drawn := p.drawn + 1 })) ∧
    (p.rand = [] → randDraw p = (Config.randomDraw p.drawn, { p with drawn := p.drawn + 1 })))

/-- R28: a PROCESS of N samples that is accepted adds N to SAMPLE_COUNT modulo 2^64, reset sets it to 0, and no other
command changes it. -/
def Obligations.SampleCount : Prop :=
  ∀ (i : Instr) (s t : State), exec i s = .next t →
    ((∀ n, i ≠ .process n) → i ≠ .reset → t.samples = s.samples) ∧
    (i = .reset → t.samples = 0) ∧
    (∀ n u data, i = .process n → Accepts i s u data → t.samples = s.samples + BitVec.ofNat 64 n)

/-! ### Arithmetic -/

/-- The sum and the difference of R15 are IEEE 754's: of finite operands, the binary64 nearest to the exact result, the
one with an even fraction on a tie, an infinity of the result's sign exactly when the result rounds to 2^1024 or beyond;
an exact 0 is +0.0, but for a sum of two −0.0 and a difference −0.0 − (+0.0), which are −0.0. -/
def Obligations.RoundedSum : Prop :=
  ∀ x y : F64, finite x = true → finite y = true → ∀ (r : F64) (z : Int),
    (r = fAdd x y ∧ z = signedUnits x + signedUnits y ∨ r = fSub x y ∧ z = signedUnits x - signedUnits y) →
    (finite r = true → ∀ v : F64, finite v = true →
      |signedUnits r - z| ≤ |signedUnits v - z| ∧
      (signedUnits v ≠ signedUnits r → |signedUnits r - z| = |signedUnits v - z| → fracField r % 2 = 0)) ∧
    (finite r = false ↔ (2 : Int) ^ 2098 - 2 ^ 2044 ≤ |z|) ∧
    (finite r = false → isInf r = true ∧ (isNeg r = true ↔ z < 0)) ∧
    (signedUnits x + signedUnits y = 0 → fAdd x y = if x = cNegZero ∧ y = cNegZero then cNegZero else cZero) ∧
    (signedUnits x - signedUnits y = 0 → fSub x y = if x = cNegZero ∧ y = cZero then cNegZero else cZero)

/-- The product and the quotient of R15 are IEEE 754's: of finite operands (a nonzero divisor), the binary64 nearest to
the exact result, the one with an even fraction on a tie, the sign the exclusive or of the operands', an infinity
exactly when the result rounds to 2^1024 or beyond. -/
def Obligations.RoundedProductAndQuotient : Prop :=
  ∀ x y : F64, finite x = true → finite y = true → ∀ (r : F64) (num den : Int),
    (r = fMul x y ∧ num = signedUnits x * signedUnits y ∧ den = 2 ^ 1074 ∨
      r = fDiv x y ∧ num = signedUnits x * 2 ^ 1074 ∧ den = signedUnits y ∧ den ≠ 0) →
    (finite r = true → ∀ v : F64, finite v = true →
      |signedUnits r * den - num| ≤ |signedUnits v * den - num| ∧
      (signedUnits v ≠ signedUnits r → |signedUnits r * den - num| = |signedUnits v * den - num| →
        fracField r % 2 = 0)) ∧
    (finite r = false ↔ ((2 : Int) ^ 2098 - 2 ^ 2044) * |den| ≤ |num|) ∧
    (finite r = false → isInf r = true) ∧
    isNeg r = (isNeg x != isNeg y)

/-- R15's comparisons, `abs`, `f64` and the operations on infinities and NaNs: a comparison with a NaN is false, `abs`
clears the sign, `f64(n)` is exact up to 2^53, a NaN operand gives a NaN (which one is the free value of assumption 9),
an infinity absorbs a finite operand of a sum or a difference, a product with one and a quotient of one are infinities
of the sign the operands give, a finite value over one is a zero, a nonzero value over a zero is an infinity, the other
cases are NaNs, and `to_f32` keeps infinities and NaNs. -/
def Obligations.FloatSpecials : Prop :=
  ∀ x y : F64,
    ((isNaN x = true ∨ isNaN y = true) →
      fLt x y = false ∧ fLe x y = false ∧ fGt x y = false ∧ fGe x y = false ∧ isNaN (fAdd x y) = true ∧
      isNaN (fSub x y) = true ∧ isNaN (fMul x y) = true ∧ isNaN (fDiv x y) = true) ∧
    (isNaN x = false → isNaN y = false →
      (fLt x y = true ↔ signedUnits x < signedUnits y) ∧ (fLe x y = true ↔ signedUnits x ≤ signedUnits y) ∧
      (fGt x y = true ↔ signedUnits y < signedUnits x) ∧ (fGe x y = true ↔ signedUnits y ≤ signedUnits x)) ∧
    (isNeg (fAbs x) = false ∧ signedUnits (fAbs x) = |signedUnits x| ∧ signedUnits (fNeg x) = -signedUnits x) ∧
    (∀ n : Nat, n ≤ 2 ^ 53 → finite (fOfNat n) = true ∧ signedUnits (fOfNat n) = n * 2 ^ 1074) ∧
    (isInf x = true → isInf y = true →
      isNaN (fDiv x y) = true ∧ (isNeg x = isNeg y → fAdd x y = x ∧ isNaN (fSub x y) = true) ∧
      (isNeg x ≠ isNeg y → isNaN (fAdd x y) = true ∧ fSub x y = x)) ∧
    (isInf x = true → finite y = true →
      fAdd x y = x ∧ fAdd y x = x ∧ fSub x y = x ∧ fSub y x = fNeg x ∧
      isInf (fDiv x y) = true ∧ isNeg (fDiv x y) = (isNeg x != isNeg y) ∧
      units (fDiv y x) = 0 ∧ isNeg (fDiv y x) = (isNeg x != isNeg y)) ∧
    (isInf x = true → isNaN y = false → units y ≠ 0 →
      isInf (fMul x y) = true ∧ isNeg (fMul x y) = (isNeg x != isNeg y) ∧ fMul y x = fMul x y) ∧
    (isInf x = true → units y = 0 → isNaN (fMul x y) = true ∧ isNaN (fMul y x) = true) ∧
    (finite x = true → units x ≠ 0 → units y = 0 →
      isInf (fDiv x y) = true ∧ isNeg (fDiv x y) = (isNeg x != isNeg y)) ∧
    (units x = 0 → units y = 0 → isNaN (fDiv x y) = true) ∧
    (isInf x = true → toF32 x = if isNeg x then 0xFF800000#32 else 0x7F800000#32) ∧
    (isNaN x = true → (toF32 x).toNat / 2 ^ 23 % 2 ^ 8 = 255 ∧ (toF32 x).toNat % 2 ^ 23 ≠ 0)

/-- R15's `to_f32` of a finite value (see `FloatSpecials` for the others): the nearest binary32, the one with an even
fraction on a tie, the sign kept, an infinity exactly when the value rounds to 2^128 or beyond: no clipping (R122). -/
def Obligations.ToF32 : Prop :=
  ∀ x : F64, finite x = true →
    (finite32 (toF32 x) = true → ∀ v : F32, finite32 v = true →
      |signedUnits32 (toF32 x) * 2 ^ 925 - signedUnits x| ≤ |signedUnits32 v * 2 ^ 925 - signedUnits x| ∧
      (signedUnits32 v ≠ signedUnits32 (toF32 x) →
        |signedUnits32 (toF32 x) * 2 ^ 925 - signedUnits x| = |signedUnits32 v * 2 ^ 925 - signedUnits x| →
        (toF32 x).toNat % 2 = 0)) ∧
    (finite32 (toF32 x) = false ↔ (2 : Int) ^ 1202 - 2 ^ 1177 ≤ |signedUnits x|) ∧
    (finite32 (toF32 x) = false → (toF32 x).toNat % 2 ^ 31 = 255 * 2 ^ 23) ∧
    (2 ^ 31 ≤ (toF32 x).toNat ↔ isNeg x = true)

/-- The laws that 92 D11 lets a claim assume of SIN, EXP2 and TAN hold of the model's: SIN of a finite value lies in
[−1, 1] and SIN(+0.0) = +0.0; EXP2(0.0) = 1.0, and EXP2 is positive and finite on [−6, 5]; TAN is positive and finite on
(0, PI/2); F0(69) = 440.0 (R87). The functions themselves are assumption 7's. -/
def Obligations.TranscendentalLaws : Prop :=
  (∀ v : F64, finite v = true → between cNegOne cOne (fSin v) = true) ∧ fSin cZero = cZero ∧ fExp2 cZero = cOne ∧
  (∀ v : F64, between cNegSix cFive v = true → finite (fExp2 v) = true ∧ fGt (fExp2 v) cZero = true) ∧
  (∀ v : F64, fGt v cZero = true → fLt v (fDiv cPi cTwo) = true →
    finite (fTan v) = true ∧ fGt (fTan v) cZero = true) ∧
  fundamental 69 = c440

/-! ### Invariants -/

/-- Every step keeps the block's invariant `State.Inv`: the bounds and equations the spec states of its registers (R8,
R24, R27, R30 to R32, R35, R37 to R39, R41, R43, R105), from every state that meets it, whatever the host sends. -/
def Obligations.StepKeepsInv : Prop := ∀ s t : State, s.Inv → step s = .next t → t.Inv

/-- The reset state meets the invariant, for every choice of the build parameters within R8's bounds. -/
def Obligations.ResetMeetsInv : Prop :=
  State.reset.Inv ∧
  ∀ (params : Params) (ports : Ports), 1 ≤ params.maxHarm → params.maxHarm ≤ 248 → 1 ≤ params.delayCapacity →
    params.delayCapacity ≤ 2147483647 → (State.cleared params ports).Inv

/-- From every state that meets the invariant a step answers a next state, whatever the host sends: the block never
stops, and no delay step reaches an absent cell (R50, R123). -/
def Obligations.StepNeverStops : Prop := ∀ s : State, s.Inv → ∃ t, step s = .next t

/-! ### Frames -/

/-- What every command that stores nothing in the delay buffer leaves unchanged when it answers a next state: nop,
reg.rd, buf.rd, osc.sr, osc.freq, osc.phase, osc.kind, osc.step, syn.setup, syn.retune, syn.step, flt.setup, flt.step,
dly.time, dly.fb, pan.setup, pan.thr, pan.step, mix.gain and trg.range change only the registers `mayWrite` names from
the command's rule and the CFG bits `cfgAfter` names, and every buffer entry reads as before; clr.err changes only the
error record. A rejection (see `RejectionRecord`) changes only the error record. -/
def Obligations.FrameRegisters : Prop :=
  ∀ (i : Instr) (s t : State), exec i s = .next t → i ≠ .reset → (∀ n, i ≠ .dlySize n) → (∀ x, i ≠ .dlyStep x) →
    (∀ n, i ≠ .process n) →
    (∃ c, t = reject c (commandWord i) s) ∨
    (SameBuffer s t ∧ (∀ addr, mayWrite i addr = false → readReg t addr = readReg s addr) ∧
      t.cfg = cfgAfter i s.cfg ∧ SameStreams s t ∧ (i ≠ .clrErr → t.record = s.record))

/-- What the two commands that store in the delay buffer one cell or all of it leave unchanged: `dly.step` stores the
one cell at DLY_WP and changes only the two pointers; `dly.size` changes only the delay registers, STATUS and CFG (every
present entry reads +0.0 after it, see `DlySize`). -/
def Obligations.FrameDelay : Prop :=
  ∀ (i : Instr) (s t : State), exec i s = .next t → ((∃ n, i = .dlySize n) ∨ ∃ x, i = .dlyStep x) →
    (∃ c, t = reject c (commandWord i) s) ∨
    (Keeps i s t ∧ ((∃ x, i = .dlyStep x) → ∀ j, j ≠ s.dly.wp.toNat → memRead t.buf j = memRead s.buf j))

/-- What `process N` leaves unchanged when it answers a next state: every register but those its stages write, the
error record, CFG, the parameters and the command port; and every buffer entry but those at DLY_WP of its N sample
steps. -/
def Obligations.FrameProcess : Prop :=
  ∀ (n : Nat) (s t : State), exec (.process n) s = .next t →
    (∃ c, t = reject c (commandWord (.process n)) s) ∨
    ((∀ addr, mayWrite (.process n) addr = false → readReg t addr = readReg s addr) ∧ t.cfg = s.cfg ∧
      t.record = s.record ∧ t.params = s.params ∧ t.ports.cmd = s.ports.cmd ∧ t.ports.pin = s.ports.pin ∧
      ∀ j, ¬ storedByProcess n s j → memRead t.buf j = memRead s.buf j)

end
end

