-- ==== Sys2Proof/Laws/Float.lean ====
section
/-! SUPPORT. The rounding function and the order on a format's values, for any number `p` of fraction bits (52 for
binary64, 23 for binary32): magnitude bits and their values rise together, rounding is monotone, exact on representable
values, nearest, and even on a tie. -/

namespace Sys2Proof.Machine

/-! ### Values of magnitude bits -/

/-- The value, in units of the smallest subnormal, of the magnitude bits of a format with `p` fraction bits. -/
def unitsOf (p b : Nat) : Nat :=
  if b < 2 ^ p then b else (2 ^ p + b % 2 ^ p) * 2 ^ (b / 2 ^ p - 1)

/-- A significand of `p + 1` bits, or its carry, at scale `s`. -/
theorem unitsOf_scaled {p s k : Nat} (hlo : 2 ^ p ≤ k) (hhi : k ≤ 2 * 2 ^ p) :
    unitsOf p (2 ^ p * s + k) = k * 2 ^ s := by
  have hP : 0 < 2 ^ p := Nat.two_pow_pos p
  unfold unitsOf
  generalize 2 ^ p = P at *
  rw [if_neg (by omega)]
  rcases Nat.lt_or_ge k (2 * P) with h | h
  · have e : P * s + k = (k - P) + P * (s + 1) := by rw [Nat.mul_succ]; omega
    rw [e, Nat.add_mul_div_left _ _ hP, Nat.add_mul_mod_self_left, Nat.div_eq_of_lt (by omega),
      Nat.mod_eq_of_lt (by omega), Nat.add_sub_cancel' hlo, Nat.zero_add, Nat.add_sub_cancel]
  · have hk : k = 2 * P := by omega
    have e : P * s + k = P * (s + 2) := by rw [hk]; ring
    rw [e, Nat.mul_div_cancel_left _ hP, Nat.mul_mod_right, Nat.add_zero, show s + 2 - 1 = s + 1 by omega, pow_succ, hk]
    ring

/-- Up to `2^(p+1)` the bits are the value. -/
theorem unitsOf_small {p k : Nat} (h : k ≤ 2 * 2 ^ p) : unitsOf p k = k := by
  by_cases hk : k < 2 ^ p
  · unfold unitsOf; rw [if_pos hk]
  · have := unitsOf_scaled (s := 0) (k := k) (by omega) h
    simpa using this

/-- Every magnitude is a significand at a scale. -/
theorem unitsOf_form (p b : Nat) :
    ∃ s k, b = 2 ^ p * s + k ∧ unitsOf p b = k * 2 ^ s ∧ k < 2 * 2 ^ p ∧ (s = 0 ∨ 2 ^ p ≤ k) := by
  have hP : 0 < 2 ^ p := Nat.two_pow_pos p
  by_cases h : b < 2 * 2 ^ p
  · exact ⟨0, b, by omega, by rw [unitsOf_small (by omega)]; simp, h, .inl rfl⟩
  · have hd : 2 ≤ b / 2 ^ p := (Nat.le_div_iff_mul_le hP).2 (by omega)
    have hm := Nat.div_add_mod b (2 ^ p)
    have hr := Nat.mod_lt b hP
    have hs : b = 2 ^ p * (b / 2 ^ p - 1) + (2 ^ p + b % 2 ^ p) := by
      rw [Nat.mul_sub_one]
      have := Nat.mul_le_mul_left (2 ^ p) hd
      omega
    refine ⟨b / 2 ^ p - 1, 2 ^ p + b % 2 ^ p, hs, ?_, by omega, .inr (by omega)⟩
    conv_lhs => rw [hs]
    exact unitsOf_scaled (by omega) (by omega)

theorem unitsOf_lt_succ (p b : Nat) : unitsOf p b < unitsOf p (b + 1) := by
  obtain ⟨s, k, hb, hu, hk, hs⟩ := unitsOf_form p b
  rw [hu, hb, Nat.add_assoc]
  have hpos : 0 < 2 ^ s := Nat.two_pow_pos s
  rcases hs with rfl | hs
  · rw [show 2 ^ p * 0 + (k + 1) = k + 1 by omega, unitsOf_small (by omega)]
    simp
  · rw [unitsOf_scaled (by omega) (by omega)]
    exact Nat.mul_lt_mul_of_pos_right (by omega) hpos

theorem unitsOf_strictMono (p : Nat) : StrictMono (unitsOf p) := strictMono_nat_of_lt_succ (unitsOf_lt_succ p)

theorem unitsOf_le_iff {p a b : Nat} : unitsOf p a ≤ unitsOf p b ↔ a ≤ b := (unitsOf_strictMono p).le_iff_le

theorem unitsOf_lt_iff {p a b : Nat} : unitsOf p a < unitsOf p b ↔ a < b := (unitsOf_strictMono p).lt_iff_lt

theorem unitsOf_zero (p : Nat) : unitsOf p 0 = 0 := unitsOf_small (Nat.zero_le _)

/-! ### Rounding to a whole number -/

theorem roundNearest_spec (num den : Nat) (hd : 0 < den) :
    roundNearest num den * (2 * den) ≤ 2 * num + den ∧ 2 * num ≤ roundNearest num den * (2 * den) + den := by
  unfold roundNearest
  have h := Nat.div_add_mod num den
  have hr := Nat.mod_lt num hd
  generalize num / den = q at h ⊢
  generalize num % den = r at h hr ⊢
  have e1 : (q + 1) * (2 * den) = 2 * (den * q) + 2 * den := by ring
  have e2 : q * (2 * den) = 2 * (den * q) := by ring
  dsimp only
  split <;> omega

theorem roundNearest_mono {n d n' d' : Nat} (hd : 0 < d) (hd' : 0 < d') (h : n * d' ≤ n' * d) :
    roundNearest n d ≤ roundNearest n' d' := by
  have hq : n / d ≤ n' / d' := by
    rw [Nat.le_div_iff_mul_le hd']
    have h1 : n / d * d ≤ n := Nat.div_mul_le_self n d
    have : n / d * d' * d ≤ n' * d := by
      calc n / d * d' * d = n / d * d * d' := by ring
        _ ≤ n * d' := Nat.mul_le_mul_right _ h1
        _ ≤ n' * d := h
    exact Nat.le_of_mul_le_mul_right this hd
  have bnd : ∀ a b : Nat, a / b ≤ roundNearest a b ∧ roundNearest a b ≤ a / b + 1 := by
    intro a b; unfold roundNearest; dsimp only; split <;> omega
  rcases Nat.lt_or_ge (n / d) (n' / d') with hlt | hge
  · exact (bnd n d).2.trans (hlt.trans_le (bnd n' d').1)
  · have hqe : n / d = n' / d' := Nat.le_antisymm hq hge
    have e := Nat.div_add_mod n d
    have e' := Nat.div_add_mod n' d'
    have hrr : n % d * d' ≤ n' % d' * d := by
      have : (d * (n / d) + n % d) * d' ≤ (d' * (n' / d') + n' % d') * d := by rw [e, e']; exact h
      rw [hqe] at this
      have e3 : (d * (n' / d') + n % d) * d' = d * d' * (n' / d') + n % d * d' := by ring
      have e4 : (d' * (n' / d') + n' % d') * d = d * d' * (n' / d') + n' % d' * d := by ring
      rw [e3, e4] at this
      omega
    unfold roundNearest
    dsimp only
    rw [hqe]
    by_cases hc : d < 2 * (n % d) ∨ 2 * (n % d) = d ∧ n' / d' % 2 = 1
    · rw [if_pos hc, if_pos]
      rcases hc with hc | ⟨hc, hodd⟩
      · left
        by_contra hcon
        have h1 : d * d' < 2 * (n % d) * d' := Nat.mul_lt_mul_of_pos_right hc hd'
        have h2 : 2 * (n' % d') * d ≤ d' * d := Nat.mul_le_mul_right _ (by omega)
        have h3 : 2 * (n % d) * d' ≤ 2 * (n' % d') * d := by nlinarith
        nlinarith
      · have h3 : 2 * (n % d) * d' ≤ 2 * (n' % d') * d := by nlinarith
        rw [hc] at h3
        have h4 : d' ≤ 2 * (n' % d') := by
          by_contra hcon
          have := Nat.mul_lt_mul_of_pos_right (Nat.lt_of_not_le hcon) hd
          nlinarith
        rcases Nat.lt_or_ge d' (2 * (n' % d')) with h5 | h5
        · exact .inl h5
        · exact .inr ⟨by omega, hodd⟩
    · rw [if_neg hc]
      split <;> omega

/-- Half-way between two whole numbers the even one is taken. -/
theorem roundNearest_tie {num den : Nat}
    (h : 2 * |((roundNearest num den * den : Nat) : Int) - num| = den) (hd : 0 < den) :
    roundNearest num den % 2 = 0 := by
  have hm := Nat.div_add_mod num den
  have hr := Nat.mod_lt num hd
  unfold roundNearest at h ⊢
  dsimp only at h ⊢
  generalize num / den = q at *
  generalize num % den = r at *
  by_cases hc : den < 2 * r ∨ 2 * r = den ∧ q % 2 = 1
  · rw [if_pos hc] at h ⊢
    have e : (q + 1) * den = den * q + den := by ring
    rw [e] at h
    rcases abs_cases (((den * q + den : Nat) : Int) - num) with ⟨ha, -⟩ | ⟨ha, -⟩ <;> rw [ha] at h <;> omega
  · rw [if_neg hc] at h ⊢
    rw [Nat.mul_comm q den] at h
    rcases abs_cases (((den * q : Nat) : Int) - num) with ⟨ha, -⟩ | ⟨ha, -⟩ <;> rw [ha] at h <;> omega

theorem roundNearest_of_dvd {n d : Nat} (hd : 0 < d) (k : Nat) (h : n = k * d) : roundNearest n d = k := by
  subst h
  unfold roundNearest
  dsimp only
  rw [Nat.mul_div_cancel _ hd, Nat.mul_mod_left, if_neg (by omega)]

/-! ### Rounding to magnitude bits -/

/-- The scale `roundBits (p + 1)` rounds at. -/
def scaleOf (p q : Nat) : Nat := Nat.log2 q - p

theorem scaleOf_small {p q : Nat} (h : q < 2 * 2 ^ p) : scaleOf p q = 0 := by
  unfold scaleOf
  by_cases hq : q = 0
  · subst hq; simp
  · have := (Nat.log2_lt hq).2 (show q < 2 ^ (p + 1) by rw [pow_succ]; omega)
    omega

theorem scaleOf_bounds {p q : Nat} (h : 2 * 2 ^ p ≤ q) :
    2 ^ p * 2 ^ scaleOf p q ≤ q ∧ q < 2 * 2 ^ p * 2 ^ scaleOf p q := by
  have hq : q ≠ 0 := by
    have := Nat.two_pow_pos p
    omega
  have hl : p ≤ Nat.log2 q := (Nat.le_log2 hq).2 (by omega)
  have h1 := Nat.log2_self_le hq
  have h2 := @Nat.lt_log2_self q
  unfold scaleOf
  have e : 2 ^ p * 2 ^ (q.log2 - p) = 2 ^ q.log2 := by rw [← pow_add, Nat.add_sub_cancel' hl]
  rw [Nat.mul_assoc, e]
  rw [pow_succ] at h2
  exact ⟨h1, by omega⟩

theorem scaleOf_mono {p q q' : Nat} (h : q ≤ q') : scaleOf p q ≤ scaleOf p q' := by
  unfold scaleOf
  by_cases hq : q = 0
  · subst hq; simp
  · have : q.log2 ≤ q'.log2 := (Nat.le_log2 (by omega)).2 ((Nat.log2_self_le hq).trans h)
    omega

theorem significand_bounds (p : Nat) {n d : Nat} (hd : 0 < d) :
    let s := scaleOf p (n / d)
    let k := roundNearest n (d * 2 ^ s)
    k ≤ 2 * 2 ^ p ∧ (s = 0 ∨ 2 ^ p ≤ k) := by
  intro s k
  have hps : 0 < 2 ^ s := Nat.two_pow_pos s
  have hds : 0 < d * 2 ^ s := Nat.mul_pos hd hps
  have hP : 0 < 2 ^ p := Nat.two_pow_pos p
  by_cases hq : n / d < 2 * 2 ^ p
  · have hs : s = 0 := scaleOf_small hq
    refine ⟨?_, .inl hs⟩
    have hn : n < 2 * 2 ^ p * d := (Nat.div_lt_iff_lt_mul hd).1 hq
    have := roundNearest_mono (n := n) (d := d * 2 ^ s) (n' := 2 * 2 ^ p) (d' := 1) hds (by omega)
      (by rw [hs]; simp; nlinarith)
    rwa [roundNearest_of_dvd (n := 2 * 2 ^ p) (d := 1) (by omega) (2 * 2 ^ p) (by simp)] at this
  · obtain ⟨h1, h2⟩ := scaleOf_bounds (p := p) (q := n / d) (by omega)
    have hlo : 2 ^ p * 2 ^ s * d ≤ n := (Nat.mul_le_mul_right d h1).trans (Nat.div_mul_le_self n d)
    have hhi : n < 2 * 2 ^ p * 2 ^ s * d := (Nat.div_lt_iff_lt_mul hd).1 h2
    refine ⟨?_, .inr ?_⟩
    · have := roundNearest_mono (n := n) (d := d * 2 ^ s) (n' := 2 * 2 ^ p) (d' := 1) hds (by omega) (by nlinarith)
      rwa [roundNearest_of_dvd (n := 2 * 2 ^ p) (d := 1) (by omega) (2 * 2 ^ p) (by simp)] at this
    · have := roundNearest_mono (n := 2 ^ p) (d := 1) (n' := n) (d' := d * 2 ^ s) (by omega) hds (by nlinarith)
      rwa [roundNearest_of_dvd (n := 2 ^ p) (d := 1) (by omega) (2 ^ p) (by simp)] at this

/-- `roundBits (p + 1)` in the terms of this file. -/
theorem roundBits_eq (p top n d : Nat) :
    roundBits (p + 1) top n d =
      min (2 ^ p * scaleOf p (n / d) + roundNearest n (d * 2 ^ scaleOf p (n / d))) top := by
  unfold roundBits scaleOf
  rw [Nat.add_sub_cancel, Nat.add_sub_add_right]

/-- The value of the rounded bits, before the overflow clamp. -/
theorem unitsOf_round (p : Nat) {n d : Nat} (hd : 0 < d) :
    unitsOf p (2 ^ p * scaleOf p (n / d) + roundNearest n (d * 2 ^ scaleOf p (n / d))) =
      roundNearest n (d * 2 ^ scaleOf p (n / d)) * 2 ^ scaleOf p (n / d) := by
  obtain ⟨hk, hs⟩ := significand_bounds p (n := n) hd
  rcases hs with hs | hs
  · rw [hs] at hk ⊢
    simpa using unitsOf_small hk
  · exact unitsOf_scaled hs hk

/-- Rounding is monotone. -/
theorem roundBits_mono (p : Nat) {top n d n' d' : Nat} (hd : 0 < d) (hd' : 0 < d') (h : n * d' ≤ n' * d) :
    roundBits (p + 1) top n d ≤ roundBits (p + 1) top n' d' := by
  rw [roundBits_eq, roundBits_eq]
  refine min_le_min_right _ ?_
  have hq : n / d ≤ n' / d' := by
    rw [Nat.le_div_iff_mul_le hd']
    have : n / d * d' * d ≤ n' * d := by
      calc n / d * d' * d = n / d * d * d' := by ring
        _ ≤ n * d' := Nat.mul_le_mul_right _ (Nat.div_mul_le_self n d)
        _ ≤ n' * d := h
    exact Nat.le_of_mul_le_mul_right this hd
  have hs := scaleOf_mono (p := p) hq
  obtain ⟨hk, -⟩ := significand_bounds p (n := n) hd
  obtain ⟨-, hs'⟩ := significand_bounds p (n := n') hd'
  rcases Nat.lt_or_ge (scaleOf p (n / d)) (scaleOf p (n' / d')) with hlt | hge
  · have hm := Nat.mul_le_mul_left (2 ^ p) (Nat.succ_le_of_lt hlt)
    rw [Nat.mul_succ] at hm
    rcases hs' with hs' | hs'
    · omega
    · omega
  · have he : scaleOf p (n / d) = scaleOf p (n' / d') := Nat.le_antisymm hs hge
    rw [← he]
    refine Nat.add_le_add_left (roundNearest_mono ?_ ?_ ?_) _
    · exact Nat.mul_pos hd (Nat.two_pow_pos _)
    · exact Nat.mul_pos hd' (Nat.two_pow_pos _)
    · calc n * (d' * 2 ^ scaleOf p (n / d)) = n * d' * 2 ^ scaleOf p (n / d) := by ring
        _ ≤ n' * d * 2 ^ scaleOf p (n / d) := Nat.mul_le_mul_right _ h
        _ = n' * (d * 2 ^ scaleOf p (n / d)) := by ring

/-- Rounding a representable value gives its bits. -/
theorem roundBits_unitsOf (p : Nat) {top b d : Nat} (hd : 0 < d) (hb : b ≤ top) :
    roundBits (p + 1) top (unitsOf p b * d) d = b := by
  rw [roundBits_eq, Nat.mul_div_cancel _ hd]
  obtain ⟨s, k, hbe, hu, hk, hs⟩ := unitsOf_form p b
  have hscale : scaleOf p (unitsOf p b) = s := by
    rcases hs with rfl | hs
    · apply scaleOf_small; rw [hu]; simpa using hk
    · rw [hu]
      unfold scaleOf
      have hP : 0 < 2 ^ p := Nat.two_pow_pos p
      have hk0 : k ≠ 0 := by omega
      have hlog : (k * 2 ^ s).log2 = p + s := by
        have hne : k * 2 ^ s ≠ 0 := Nat.mul_ne_zero hk0 (Nat.two_pow_pos s).ne'
        have hps := Nat.two_pow_pos s
        apply Nat.le_antisymm
        · have : (k * 2 ^ s).log2 < p + 1 + s := (Nat.log2_lt hne).2 (by rw [pow_add, pow_succ]; nlinarith)
          omega
        · exact (Nat.le_log2 hne).2 (by rw [pow_add]; exact Nat.mul_le_mul_right _ hs)
      rw [hlog]; omega
  rw [hscale, hu, roundNearest_of_dvd (Nat.mul_pos hd (Nat.two_pow_pos s)) k (by ring), ← hbe]
  exact min_eq_left hb

theorem roundBits_le_top (prec top n d : Nat) : roundBits prec top n d ≤ top := min_le_right _ _

/-- A rounding that does not overflow, taken apart: scale `s`, significand `k`, half a step of error, and a whole step
to every other value on the side where the exact value lies. -/
theorem roundBits_cases (p : Nat) {top n d : Nat} (hd : 0 < d) (hlt : roundBits (p + 1) top n d < top) :
    ∃ s k, roundBits (p + 1) top n d = 2 ^ p * s + k ∧ k = roundNearest n (d * 2 ^ s) ∧
      (s = 0 ∨ 2 ^ p ≤ k) ∧ unitsOf p (roundBits (p + 1) top n d) = k * 2 ^ s ∧
      2 * |((k * 2 ^ s : Nat) : Int) * d - n| ≤ d * 2 ^ s ∧
      (∀ b, b < roundBits (p + 1) top n d → n < k * 2 ^ s * d → unitsOf p b + 2 ^ s ≤ k * 2 ^ s) ∧
      (∀ b, roundBits (p + 1) top n d < b → k * 2 ^ s + 2 ^ s ≤ unitsOf p b) := by
  have hmin := roundBits_eq p top n d
  have hR : roundBits (p + 1) top n d = 2 ^ p * scaleOf p (n / d) + roundNearest n (d * 2 ^ scaleOf p (n / d)) := by
    rw [hmin] at hlt ⊢
    exact min_eq_left (by omega)
  obtain ⟨hk, hs⟩ := significand_bounds p (n := n) hd
  have hval := unitsOf_round p (n := n) hd
  rw [← hR] at hval
  have hP : 0 < 2 ^ p := Nat.two_pow_pos p
  have hps : 0 < 2 ^ scaleOf p (n / d) := Nat.two_pow_pos _
  obtain ⟨hsp1, hsp2⟩ := roundNearest_spec n (d * 2 ^ scaleOf p (n / d)) (Nat.mul_pos hd hps)
  refine ⟨scaleOf p (n / d), _, hR, rfl, hs, hval, ?_, ?_, ?_⟩
  all_goals
    generalize hRb : roundBits (p + 1) top n d = R at *
    generalize hkk : roundNearest n (d * 2 ^ scaleOf p (n / d)) = k at *
    generalize hss : scaleOf p (n / d) = s at *
  · have e : (k * (2 * (d * 2 ^ s)) : Int) = 2 * ((k * 2 ^ s : Nat) : Int) * d := by push_cast; ring
    have h1 : (k * (2 * (d * 2 ^ s)) : Int) ≤ 2 * n + d * 2 ^ s := by exact_mod_cast hsp1
    have h2 : (2 * n : Int) ≤ k * (2 * (d * 2 ^ s)) + d * 2 ^ s := by exact_mod_cast hsp2
    rw [e] at h1 h2
    rcases abs_cases (((k * 2 ^ s : Nat) : Int) * d - n) with ⟨ha, -⟩ | ⟨ha, -⟩ <;> rw [ha] <;> linarith
  · intro b hb hn
    have hlt' : unitsOf p b < k * 2 ^ s := hval ▸ unitsOf_lt_iff.2 hb
    by_cases hs0 : s = 0
    · subst hs0; simpa using hlt'
    · have hs52 : 2 ^ p ≤ k := hs.resolve_left hs0
      rcases Nat.lt_or_ge (2 ^ p) k with hk52 | hk52
      · have h1 : unitsOf p b ≤ unitsOf p (2 ^ p * s + (k - 1)) := unitsOf_le_iff.2 (by omega)
        rw [unitsOf_scaled (by omega) (by omega)] at h1
        have h2 : (k - 1) * 2 ^ s + 2 ^ s = k * 2 ^ s := by
          rw [← Nat.succ_mul, Nat.succ_eq_add_one, Nat.sub_add_cancel (by omega)]
        omega
      · exfalso
        have h53 : 2 * 2 ^ p ≤ n / d := by
          by_contra hcon
          exact hs0 (by rw [← hss]; exact scaleOf_small (by omega))
        have hq := (scaleOf_bounds h53).1
        rw [hss] at hq
        have h3 := (Nat.mul_le_mul_right d hq).trans (Nat.div_mul_le_self n d)
        have hkeq : k = 2 ^ p := by omega
        rw [hkeq] at hn
        omega
  · intro b hb
    have h0 : unitsOf p (R + 1) ≤ unitsOf p b := unitsOf_le_iff.2 hb
    rcases hs with rfl | hs52
    · have := unitsOf_lt_succ p R
      simp only [pow_zero, Nat.mul_one] at hval ⊢
      omega
    · rcases Nat.lt_or_ge k (2 * 2 ^ p) with hk53 | hk53
      · have h1 : unitsOf p (R + 1) = (k + 1) * 2 ^ s := by
          rw [hR, Nat.add_assoc]; exact unitsOf_scaled (by omega) (by omega)
        rw [h1, Nat.succ_mul] at h0
        exact h0
      · have hkeq : k = 2 * 2 ^ p := by omega
        have h1 : unitsOf p (R + 1) = (2 ^ p + 1) * 2 ^ (s + 1) := by
          rw [hR, show 2 ^ p * s + k + 1 = 2 ^ p * (s + 1) + (2 ^ p + 1) by rw [hkeq, Nat.mul_succ]; ring]
          exact unitsOf_scaled (by omega) (by omega)
        rw [h1, pow_succ] at h0
        have hps' : 0 < 2 ^ s := Nat.two_pow_pos s
        have e : (2 ^ p + 1) * (2 ^ s * 2) = k * 2 ^ s + 2 ^ s + 2 ^ s := by rw [hkeq]; ring
        omega

/-- Another value is nowhere nearer, and as near only half a step away. -/
theorem roundBits_near (p : Nat) {top n d : Nat} (hd : 0 < d) (hlt : roundBits (p + 1) top n d < top) (b : Nat)
    (hb : b ≠ roundBits (p + 1) top n d) :
    |(unitsOf p (roundBits (p + 1) top n d) : Int) * d - n| ≤ |(unitsOf p b : Int) * d - n| ∧
    (|(unitsOf p (roundBits (p + 1) top n d) : Int) * d - n| = |(unitsOf p b : Int) * d - n| →
      roundBits (p + 1) top n d % 2 = 0 ∨ p = 0) := by
  obtain ⟨s, k, hR, hk, -, hval, half, below, above⟩ := roundBits_cases p hd hlt
  have tie : 2 * |((k * 2 ^ s : Nat) : Int) * d - n| = d * 2 ^ s → k % 2 = 0 := by
    intro h
    have hds : 0 < d * 2 ^ s := Nat.mul_pos hd (Nat.two_pow_pos s)
    have h' : 2 * |((roundNearest n (d * 2 ^ s) * (d * 2 ^ s) : Nat) : Int) - n| = ((d * 2 ^ s : Nat) : Int) := by
      rw [← hk]
      have e : ((k * (d * 2 ^ s) : Nat) : Int) = ((k * 2 ^ s : Nat) : Int) * d := by push_cast; ring
      rw [e]
      push_cast at h ⊢
      exact h
    rw [hk]
    exact roundNearest_tie h' hds
  have even : k % 2 = 0 → roundBits (p + 1) top n d % 2 = 0 ∨ p = 0 := by
    intro h
    rcases Nat.eq_zero_or_pos p with hp | hp
    · exact .inr hp
    · left
      obtain ⟨q, rfl⟩ : ∃ q, p = q + 1 := ⟨p - 1, by omega⟩
      rw [hR, show 2 ^ (q + 1) * s + k = k + 2 * (2 ^ q * s) by rw [pow_succ]; ring]
      omega
  have fin : (d * 2 ^ s : Int) - |((k * 2 ^ s : Nat) : Int) * d - n| ≤ |(unitsOf p b : Int) * d - n| ∨
      |((k * 2 ^ s : Nat) : Int) * d - n| < |(unitsOf p b : Int) * d - n| := by
    have hd' : (0 : Int) < d := by exact_mod_cast hd
    have hps : (0 : Int) < 2 ^ s := by positivity
    have ha := le_abs_self (((k * 2 ^ s : Nat) : Int) * d - n)
    have ha' := neg_abs_le (((k * 2 ^ s : Nat) : Int) * d - n)
    have hb1 := le_abs_self ((unitsOf p b : Int) * d - n)
    have hb2 := neg_abs_le ((unitsOf p b : Int) * d - n)
    rcases Nat.lt_or_gt_of_ne hb with hlt' | hgt
    · rcases Nat.lt_or_ge n (k * 2 ^ s * d) with hn | hn
      · left
        have h1 : ((unitsOf p b : Int) + 2 ^ s) * d ≤ ((k * 2 ^ s : Nat) : Int) * d :=
          mul_le_mul_of_nonneg_right (by exact_mod_cast below b hlt' hn) hd'.le
        have h2 : (n : Int) < ((k * 2 ^ s : Nat) : Int) * d := by exact_mod_cast hn
        have e : ((unitsOf p b : Int) + 2 ^ s) * d = unitsOf p b * d + d * 2 ^ s := by ring
        rw [e] at h1
        rw [abs_of_pos (show (0 : Int) < ((k * 2 ^ s : Nat) : Int) * d - n by linarith)]
        linarith
      · right
        have h1 : (unitsOf p b : Int) * d < ((k * 2 ^ s : Nat) : Int) * d :=
          mul_lt_mul_of_pos_right (by exact_mod_cast hval ▸ unitsOf_lt_iff.2 hlt') hd'
        have h2 : ((k * 2 ^ s : Nat) : Int) * d ≤ n := by exact_mod_cast hn
        rw [abs_of_nonpos (by linarith), abs_of_nonpos (by linarith)]
        linarith
    · have h1 : (((k * 2 ^ s : Nat) : Int) + 2 ^ s) * d ≤ (unitsOf p b : Int) * d :=
        mul_le_mul_of_nonneg_right (by exact_mod_cast above b hgt) hd'.le
      have e : (((k * 2 ^ s : Nat) : Int) + 2 ^ s) * d = ((k * 2 ^ s : Nat) : Int) * d + d * 2 ^ s := by ring
      rw [e] at h1
      left
      linarith
  rw [hval]
  rcases fin with h | h
  · exact ⟨by linarith, fun he => even (tie (by linarith))⟩
  · exact ⟨h.le, fun he => absurd he h.ne⟩

/-- Rounding overflows exactly from half a step below the value of `top` on, `top` being an exponent field of ones. -/
theorem roundBits_top (p e : Nat) {n d : Nat} (hd : 0 < d) :
    roundBits (p + 1) (2 ^ p * (e + 2)) n d = 2 ^ p * (e + 2) ↔ (4 * 2 ^ p - 1) * 2 ^ e * d ≤ 2 * n := by
  have hP : 0 < 2 ^ p := Nat.two_pow_pos p
  have hE : 0 < 2 ^ e := Nat.two_pow_pos e
  constructor
  · intro h
    rw [roundBits_eq] at h
    have hB : 2 ^ p * (e + 2) ≤ 2 ^ p * scaleOf p (n / d) + roundNearest n (d * 2 ^ scaleOf p (n / d)) :=
      min_eq_right_iff.1 h
    obtain ⟨hk, hs⟩ := significand_bounds p (n := n) hd
    obtain ⟨hsp, -⟩ := roundNearest_spec n (d * 2 ^ scaleOf p (n / d)) (Nat.mul_pos hd (Nat.two_pow_pos _))
    rcases Nat.lt_or_ge (scaleOf p (n / d)) (e + 1) with hlt | hge
    · generalize roundNearest n (d * 2 ^ scaleOf p (n / d)) = k at *
      generalize scaleOf p (n / d) = s at *
      have hm := Nat.mul_le_mul_left (2 ^ p) (Nat.le_of_lt_succ hlt)
      have e1 : 2 ^ p * (e + 2) = 2 ^ p * e + 2 * 2 ^ p := by ring
      have hke : k = 2 * 2 ^ p := by omega
      have hse : s = e := by
        have : 2 ^ p * e ≤ 2 ^ p * s := by omega
        exact Nat.le_antisymm (by omega) (Nat.le_of_mul_le_mul_left this hP)
      subst hke hse
      have e2 : 2 * 2 ^ p * (2 * (d * 2 ^ s)) = (4 * 2 ^ p - 1) * 2 ^ s * d + d * 2 ^ s := by
        rw [Nat.sub_mul, Nat.sub_mul, Nat.one_mul, Nat.mul_comm d]
        have : 2 ^ s * d ≤ 4 * 2 ^ p * 2 ^ s * d := by
          rw [Nat.mul_assoc]
          exact Nat.le_mul_of_pos_left _ (by omega)
        rw [Nat.sub_add_cancel this]
        ring
      omega
    · have h53 : 2 * 2 ^ p ≤ n / d := by
        by_contra hcon
        have := scaleOf_small (p := p) (q := n / d) (by omega)
        omega
      have h1 := (scaleOf_bounds h53).1
      have h2 : 2 ^ (e + 1) ≤ 2 ^ scaleOf p (n / d) := Nat.pow_le_pow_right (by omega) hge
      have h3 := (Nat.mul_le_mul_right d ((Nat.mul_le_mul_left (2 ^ p) h2).trans h1)).trans (Nat.div_mul_le_self n d)
      have h4 : (4 * 2 ^ p - 1) * 2 ^ e * d ≤ 2 * (2 ^ p * 2 ^ (e + 1) * d) := by
        have : (4 * 2 ^ p - 1) * 2 ^ e ≤ 4 * 2 ^ p * 2 ^ e := Nat.mul_le_mul_right _ (by omega)
        calc (4 * 2 ^ p - 1) * 2 ^ e * d ≤ 4 * 2 ^ p * 2 ^ e * d := Nat.mul_le_mul_right _ this
          _ = 2 * (2 ^ p * 2 ^ (e + 1) * d) := by rw [pow_succ]; ring
      omega
  · intro h
    by_contra hne
    have hlt : roundBits (p + 1) (2 ^ p * (e + 2)) n d < 2 ^ p * (e + 2) :=
      lt_of_le_of_ne (roundBits_le_top _ _ _ _) hne
    obtain ⟨s, k, hR, hk, h0, hval, half, -, -⟩ := roundBits_cases p hd hlt
    have hs : s ≤ e := by
      by_contra hcon
      have e2 : 2 ^ p * (e + 2) = 2 ^ p * (e + 1) + 2 ^ p := by ring
      have hm := Nat.mul_le_mul_left (2 ^ p) (show e + 1 ≤ s by omega)
      rcases h0 with h0 | h0 <;> omega
    have hmax : k * 2 ^ s ≤ (2 * 2 ^ p - 1) * 2 ^ e := by
      rw [← hval, ← unitsOf_scaled (p := p) (by omega) (by omega)]
      refine unitsOf_le_iff.2 ?_
      have e2 : 2 ^ p * (e + 2) = 2 ^ p * e + 2 * 2 ^ p := by ring
      omega
    have hse : 2 ^ s ≤ 2 ^ e := Nat.pow_le_pow_right (by omega) hs
    have hd' : (0 : Int) < d := by exact_mod_cast hd
    have e7 : (4 * 2 ^ p - 1) * 2 ^ e = 2 * ((2 * 2 ^ p - 1) * 2 ^ e) + 2 ^ e := by
      have : (4 * 2 ^ p - 1) = 2 * (2 * 2 ^ p - 1) + 1 := by omega
      rw [this]; ring
    have h' : (2 * (((2 * 2 ^ p - 1) * 2 ^ e : Nat) : Int) + (2 ^ e : Nat)) * d ≤ 2 * n := by
      rw [e7] at h
      exact_mod_cast h
    have hlow : 2 * (n : Int) ≤ 2 * (((k * 2 ^ s : Nat) : Int) * d) + d * (2 ^ s : Nat) := by
      have := neg_abs_le (((k * 2 ^ s : Nat) : Int) * d - n)
      push_cast at half this ⊢
      linarith
    have hmaxd : ((k * 2 ^ s : Nat) : Int) * d ≤ (((2 * 2 ^ p - 1) * 2 ^ e : Nat) : Int) * d :=
      mul_le_mul_of_nonneg_right (by exact_mod_cast hmax) hd'.le
    have hsed : (d : Int) * (2 ^ s : Nat) ≤ d * (2 ^ e : Nat) :=
      mul_le_mul_of_nonneg_left (by exact_mod_cast hse) hd'.le
    have e8 : (2 * (((2 * 2 ^ p - 1) * 2 ^ e : Nat) : Int) + (2 ^ e : Nat)) * d =
        2 * ((((2 * 2 ^ p - 1) * 2 ^ e : Nat) : Int) * d) + d * (2 ^ e : Nat) := by ring
    rw [e8] at h'
    have hpe : 2 ^ s = 2 ^ e := by
      have h9 : (d : Int) * (2 ^ s : Nat) = d * (2 ^ e : Nat) := by linarith
      exact_mod_cast mul_left_cancel₀ hd'.ne' h9
    have hkk : k * 2 ^ s = (2 * 2 ^ p - 1) * 2 ^ e := by
      have h9 : ((k * 2 ^ s : Nat) : Int) * d = (((2 * 2 ^ p - 1) * 2 ^ e : Nat) : Int) * d := by
        rw [hpe] at hsed hlow hmaxd ⊢; linarith
      exact_mod_cast mul_right_cancel₀ hd'.ne' h9
    have hkv : k = 2 * 2 ^ p - 1 := by
      rw [hpe] at hkk
      exact Nat.eq_of_mul_eq_mul_right hE hkk
    have htie : k % 2 = 0 := by
      rw [hk]
      refine roundNearest_tie ?_ (Nat.mul_pos hd (Nat.two_pow_pos s))
      rw [← hk]
      have e9 : ((k * (d * 2 ^ s) : Nat) : Int) = ((k * 2 ^ s : Nat) : Int) * d := by push_cast; ring
      rw [e9]
      have h10 : 2 * (n : Int) = 2 * (((k * 2 ^ s : Nat) : Int) * d) + d * (2 ^ s : Nat) := by
        rw [hkk, hpe] at *; linarith
      have hds : (0 : Int) < d * (2 ^ s : Nat) := by
        have := Nat.two_pow_pos s
        positivity
      rw [abs_of_nonpos (by linarith)]
      push_cast at h10 ⊢
      linarith
    omega

end Sys2Proof.Machine
end

