-- ==== Sys2Proof/Laws/Arith.lean ====
section
/-! SUPPORT. What the binary64 operations do, on values in units of 2^−1074 (an infinity is 2^2098 units): each is the
exact result rounded by one monotone function that keeps representable values. -/

namespace Sys2Proof.Machine

/-! ### Fields of a bit pattern -/

/-- The magnitude bits of a value. -/
def magBits (x : F64) : Nat := x.toNat % 2 ^ 63

/-- The magnitude bits of an infinity. -/
abbrev infBits : Nat := 2047 * 2 ^ 52

theorem expField_eq (x : F64) : expField x = magBits x / 2 ^ 52 := by
  unfold expField magBits
  have := x.isLt
  omega

theorem fracField_eq (x : F64) : fracField x = magBits x % 2 ^ 52 := by
  unfold fracField magBits
  omega

theorem magBits_lt (x : F64) : magBits x < 2 ^ 63 := Nat.mod_lt _ (by norm_num)

theorem units_eq (x : F64) : units x = unitsOf 52 (magBits x) := by
  unfold units unitsOf
  rw [expField_eq, fracField_eq]
  by_cases h : magBits x < 2 ^ 52
  · rw [if_pos (by omega), if_pos h]
    omega
  · rw [if_neg (by omega), if_neg h]

theorem finite_iff (x : F64) : finite x = true ↔ magBits x < infBits := by
  have := magBits_lt x
  unfold finite infBits
  rw [expField_eq, bne_iff_ne]
  omega

theorem isInf_iff (x : F64) : isInf x = true ↔ magBits x = infBits := by
  have := magBits_lt x
  unfold isInf infBits
  rw [expField_eq, fracField_eq, Bool.and_eq_true, beq_iff_eq, beq_iff_eq]
  omega

theorem isNaN_iff (x : F64) : isNaN x = true ↔ infBits < magBits x := by
  have := magBits_lt x
  unfold isNaN infBits
  rw [expField_eq, fracField_eq, Bool.and_eq_true, beq_iff_eq, bne_iff_ne]
  omega

theorem isNaN_false_iff (x : F64) : isNaN x = false ↔ magBits x ≤ infBits := by
  rw [← Bool.not_eq_true, isNaN_iff]; omega

theorem finite_isNaN {x : F64} (h : finite x = true) : isNaN x = false := by
  rw [isNaN_false_iff]
  exact ((finite_iff x).1 h).le

theorem finite_isInf {x : F64} (h : finite x = true) : isInf x = false := by
  rw [← Bool.not_eq_true, isInf_iff]
  have := (finite_iff x).1 h
  omega

/-! A power with a large literal exponent is not to be evaluated: its casts go through these two. -/

theorem cast_two_pow (k : Nat) : ((2 ^ k : Nat) : Int) = 2 ^ k := by push_cast; rfl

theorem cast_two_pow_sub {j k : Nat} (h : j ≤ k) : ((2 ^ k - 2 ^ j : Nat) : Int) = 2 ^ k - 2 ^ j := by
  rw [Nat.cast_sub (Nat.pow_le_pow_right (by omega) h), cast_two_pow, cast_two_pow]

theorem unitsOf_infBits : unitsOf 52 infBits = 2 ^ 2098 := by decide +kernel

/-- A value that is no NaN is finite exactly when it is below 2^2098 units. -/
theorem finite_iff_units {x : F64} (_h : isNaN x = false) : finite x = true ↔ units x < 2 ^ 2098 := by
  rw [finite_iff, units_eq, ← unitsOf_infBits, unitsOf_lt_iff]

theorem units_le_inf {x : F64} (h : isNaN x = false) : units x ≤ 2 ^ 2098 := by
  rw [units_eq, ← unitsOf_infBits, unitsOf_le_iff]
  exact (isNaN_false_iff x).1 h

theorem natAbs_signedUnits (x : F64) : (signedUnits x).natAbs = units x := by
  unfold signedUnits; split <;> simp

theorem signedUnits_of_pos {x : F64} (h : isNeg x = false) : signedUnits x = units x := by
  simp [signedUnits, h]

/-! ### Packing sign and magnitude -/

theorem pack_toNat {neg : Bool} {bits : Nat} (h : bits < 2 ^ 63) :
    (pack neg bits).toNat = (if neg then 2 ^ 63 else 0) + bits := by
  unfold pack
  rw [BitVec.toNat_ofNat, Nat.mod_eq_of_lt]
  split <;> omega

theorem magBits_pack {neg : Bool} {bits : Nat} (h : bits < 2 ^ 63) : magBits (pack neg bits) = bits := by
  unfold magBits
  rw [pack_toNat h]
  split <;> omega

theorem isNeg_pack {neg : Bool} {bits : Nat} (h : bits < 2 ^ 63) : isNeg (pack neg bits) = neg := by
  unfold isNeg
  rw [pack_toNat h]
  cases neg
  · simpa using h
  · simp

theorem signedUnits_pack {neg : Bool} {bits : Nat} (h : bits < 2 ^ 63) :
    signedUnits (pack neg bits) = if neg then -(unitsOf 52 bits : Int) else unitsOf 52 bits := by
  unfold signedUnits
  rw [isNeg_pack h, units_eq, magBits_pack h]

theorem infBits_lt : infBits < 2 ^ 63 := by decide

/-- A value is its sign and its magnitude bits. -/
theorem eq_of_fields {x y : F64} (hs : isNeg x = isNeg y) (hm : magBits x = magBits y) : x = y := by
  apply BitVec.eq_of_toNat_eq
  have hx := x.isLt
  have hy := y.isLt
  unfold isNeg at hs
  unfold magBits at hm
  have := decide_eq_decide.1 hs
  omega

theorem isNeg_fNeg (x : F64) : isNeg (fNeg x) = !isNeg x := by
  have key : ∀ x : F64, isNeg x = x.getLsbD 63 := by
    intro x
    unfold isNeg
    rw [BitVec.getLsbD, Nat.testBit_eq_decide_div_mod_eq, decide_eq_decide]
    have := x.isLt
    omega
  rw [key, key]
  unfold fNeg
  rw [BitVec.getLsbD_xor]
  have : (0x8000000000000000#64).getLsbD 63 = true := by decide
  rw [this, Bool.xor_true]

theorem magBits_eq_setWidth (x : F64) : magBits x = (x.setWidth 63).toNat := by
  rw [BitVec.toNat_setWidth]; rfl

theorem magBits_fNeg (x : F64) : magBits (fNeg x) = magBits x := by
  rw [magBits_eq_setWidth, magBits_eq_setWidth]
  unfold fNeg
  congr 1
  rw [BitVec.setWidth_xor]
  have : (0x8000000000000000#64).setWidth 63 = 0#63 := by decide
  rw [this, BitVec.xor_zero]

theorem magBits_fAbs (x : F64) : magBits (fAbs x) = magBits x := by
  unfold magBits fAbs
  rw [BitVec.toNat_and]
  have : (0x7FFFFFFFFFFFFFFF#64).toNat = 2 ^ 63 - 1 := by decide
  rw [this, Nat.and_two_pow_sub_one_eq_mod]
  omega

theorem isNeg_fAbs (x : F64) : isNeg (fAbs x) = false := by
  unfold isNeg fAbs
  rw [BitVec.toNat_and]
  have : (0x7FFFFFFFFFFFFFFF#64).toNat = 2 ^ 63 - 1 := by decide
  rw [this, Nat.and_two_pow_sub_one_eq_mod]
  simp only [decide_eq_false_iff_not]
  omega

theorem finite_congr {x y : F64} (h : magBits x = magBits y) : finite x = finite y := by
  rw [Bool.eq_iff_iff, finite_iff, finite_iff, h]

theorem isNaN_congr {x y : F64} (h : magBits x = magBits y) : isNaN x = isNaN y := by
  rw [Bool.eq_iff_iff, isNaN_iff, isNaN_iff, h]

theorem isInf_congr {x y : F64} (h : magBits x = magBits y) : isInf x = isInf y := by
  rw [Bool.eq_iff_iff, isInf_iff, isInf_iff, h]

theorem signedUnits_fNeg (x : F64) : signedUnits (fNeg x) = -signedUnits x := by
  unfold signedUnits
  rw [isNeg_fNeg, units_eq, units_eq, magBits_fNeg]
  cases isNeg x <;> simp

theorem signedUnits_fAbs (x : F64) : signedUnits (fAbs x) = |signedUnits x| := by
  rw [signedUnits_of_pos (isNeg_fAbs x), Int.abs_eq_natAbs, natAbs_signedUnits, units_eq, units_eq, magBits_fAbs]

/-- The NaN an operation answers is a NaN. -/
theorem isNaN_nanOf (op : FpOp) (x y : F64) : isNaN (nanOf op x y) = true := by
  rw [isNaN_iff]
  unfold magBits nanOf infBits
  have := (Config.nanBits op x y).isLt
  rw [BitVec.toNat_ofNat]
  omega

/-! ### Rounding of a signed rational -/

/-- The value of `num / den` units rounded to binary64. -/
def roundInt (num : Int) (den : Nat) : Int :=
  if num < 0 then -(unitsOf 52 (roundBits 53 infBits num.natAbs den) : Int)
  else unitsOf 52 (roundBits 53 infBits num.natAbs den)

theorem roundBits_lt (n d : Nat) : roundBits 53 infBits n d < 2 ^ 63 :=
  lt_of_le_of_lt (roundBits_le_top _ _ _ _) infBits_lt

theorem roundBits_zero (d : Nat) : roundBits 53 infBits 0 d = 0 := by
  rw [roundBits_eq 52]
  simp [scaleOf, roundNearest, Nat.log2]

theorem roundInt_mono {n n' : Int} {d : Nat} (hd : 0 < d) (h : n ≤ n') : roundInt n d ≤ roundInt n' d := by
  have key : ∀ a b : Nat, a ≤ b → unitsOf 52 (roundBits 53 infBits a d) ≤ unitsOf 52 (roundBits 53 infBits b d) :=
    fun a b hab => unitsOf_le_iff.2 (roundBits_mono 52 hd hd (Nat.mul_le_mul_right d hab))
  unfold roundInt
  split <;> split
  · have := key n'.natAbs n.natAbs (by omega)
    omega
  · omega
  · omega
  · have := key n.natAbs n'.natAbs (by omega)
    omega

theorem natAbs_roundInt (n : Int) (d : Nat) :
    (roundInt n d).natAbs = unitsOf 52 (roundBits 53 infBits n.natAbs d) := by
  unfold roundInt; split <;> simp

/-- A value of the format is rounded to itself. -/
theorem roundInt_exact {v : F64} {d : Nat} (hd : 0 < d) (hv : isNaN v = false) :
    roundInt (signedUnits v * d) d = signedUnits v := by
  have hb := (isNaN_false_iff v).1 hv
  have hn : (signedUnits v * (d : Int)).natAbs = unitsOf 52 (magBits v) * d := by
    rw [Int.natAbs_mul, natAbs_signedUnits, units_eq]; rfl
  have hd' : (0 : Int) < d := by exact_mod_cast hd
  unfold roundInt
  rw [hn, roundBits_unitsOf 52 hd hb, ← units_eq]
  have hs := natAbs_signedUnits v
  split
  · rename_i h
    have : signedUnits v < 0 := by
      by_contra hc
      have := mul_nonneg (not_lt.1 hc) hd'.le
      omega
    omega
  · rename_i h
    have : 0 ≤ signedUnits v := by
      by_contra hc
      exact h (mul_neg_of_neg_of_pos (not_le.1 hc) hd')
    omega

theorem roundInt_zero (d : Nat) : roundInt 0 d = 0 := by
  unfold roundInt
  simp only [lt_irrefl, if_false, Int.natAbs_zero, roundBits_zero, unitsOf_zero]
  rfl

theorem signedUnits_roundF64 {neg : Bool} {n d : Nat} :
    signedUnits (roundF64 neg n d) = roundInt (if neg then -(n : Int) else n) d := by
  have hp : signedUnits (roundF64 neg n d) =
      if neg then -(unitsOf 52 (roundBits 53 infBits n d) : Int) else unitsOf 52 (roundBits 53 infBits n d) :=
    signedUnits_pack (roundBits_lt n d)
  rw [hp]
  unfold roundInt
  cases neg
  · simp only [Bool.false_eq_true, if_false, Int.natAbs_natCast]
    rw [if_neg (by omega)]
  · simp only [if_true, Int.natAbs_neg, Int.natAbs_natCast]
    by_cases h : n = 0
    · subst h
      rw [if_neg (by omega), roundBits_zero, unitsOf_zero]
      rfl
    · rw [if_pos (by omega)]

theorem isNaN_roundF64 (neg : Bool) (n d : Nat) : isNaN (roundF64 neg n d) = false := by
  rw [isNaN_false_iff]
  unfold roundF64
  rw [magBits_pack (roundBits_lt n d)]
  exact roundBits_le_top _ _ _ _

theorem isNeg_roundF64 (neg : Bool) (n d : Nat) : isNeg (roundF64 neg n d) = neg := isNeg_pack (roundBits_lt n d)

theorem magBits_roundF64 (neg : Bool) (n d : Nat) : magBits (roundF64 neg n d) = roundBits 53 infBits n d :=
  magBits_pack (roundBits_lt n d)

/-- A rounding overflows, to an infinity, exactly when it reaches 2^1024. -/
theorem finite_roundF64 (neg : Bool) {n d : Nat} (hd : 0 < d) :
    finite (roundF64 neg n d) = false ↔ (2 ^ 2098 - 2 ^ 2044) * d ≤ n := by
  rw [← Bool.not_eq_true, finite_iff, magBits_roundF64]
  have hle := roundBits_le_top 53 infBits n d
  have ht := roundBits_top 52 2045 (n := n) hd
  have e1 : (2 : Nat) ^ 52 * (2045 + 2) = infBits := by decide
  have e2 : ((4 : Nat) * 2 ^ 52 - 1) * 2 ^ 2045 = 2 * (2 ^ 2098 - 2 ^ 2044) := by decide +kernel
  rw [e1, e2, Nat.mul_assoc] at ht
  change roundBits 53 infBits n d = infBits ↔ _ at ht
  generalize (2 ^ 2098 - 2 ^ 2044) * d = m at *
  omega

/-- The rounded value, with its sign, is the nearest to the exact one with that sign, even on a tie. -/
theorem roundBits_near_signed (p : Nat) {top n d : Nat} (hd : 0 < d) (hlt : roundBits (p + 1) top n d < top)
    (neg : Bool) {r w z : Int} {b : Nat} (hw : w.natAbs = unitsOf p b)
    (hr : r = if neg then -(unitsOf p (roundBits (p + 1) top n d) : Int) else unitsOf p (roundBits (p + 1) top n d))
    (hz : z = if neg then -(n : Int) else n) :
    |r * d - z| ≤ |w * d - z| ∧
      (w ≠ r → |r * d - z| = |w * d - z| → roundBits (p + 1) top n d % 2 = 0 ∨ p = 0) := by
  have near := fun b hb => roundBits_near p (n := n) hd hlt b hb
  generalize roundBits (p + 1) top n d = R at *
  have hd' : (0 : Int) < d := by exact_mod_cast hd
  -- the sign taken out: `u` is the other value read with the sign of the result
  obtain ⟨u, hu⟩ : ∃ u : Int, w = if neg then -u else u := ⟨if neg then -w else w, by cases neg <;> simp⟩
  have hflip : ∀ a : Int, |(if neg then -a else a) * d - z| = |a * d - n| := by
    intro a
    rw [hz]
    cases neg
    · rfl
    · simp only [if_true]
      rw [show -a * (d : Int) - -n = -(a * d - n) by ring, abs_neg]
  have hub : u.natAbs = unitsOf p b := by rw [← hw, hu]; cases neg <;> simp
  have hne : w ≠ r → u ≠ unitsOf p R := by rw [hu, hr]; cases neg <;> simp
  rw [hr] at hne ⊢
  rw [hu] at hne ⊢
  rw [hflip, hflip]
  rcases lt_or_ge u 0 with hneg | hpos
  · -- on the other side of zero: no nearer than zero itself
    have h0 : |(unitsOf p 0 : Int) * d - n| < |u * d - n| := by
      rw [unitsOf_zero]
      have : u * d < 0 := mul_neg_of_neg_of_pos hneg hd'
      rw [abs_of_nonpos (by push_cast; omega), abs_of_nonpos (by omega)]
      push_cast
      omega
    by_cases hR0 : (0 : Nat) = R
    · subst hR0
      exact ⟨h0.le, fun _ he => absurd he h0.ne⟩
    · have := (near 0 hR0).1
      exact ⟨by linarith, fun _ he => by linarith⟩
  · have hun : u = unitsOf p b := by omega
    by_cases hRb : b = R
    · have huR : u = unitsOf p R := by rw [hun, hRb]
      exact ⟨by rw [huR], fun hc => absurd huR (hne hc)⟩
    · obtain ⟨h1, h2⟩ := near _ hRb
      rw [hun]
      exact ⟨h1, fun _ he => h2 he⟩

/-- A finite rounding is the nearest value, even on a tie. -/
theorem roundF64_nearest {neg : Bool} {n d : Nat} (hd : 0 < d) (h : finite (roundF64 neg n d) = true) {v : F64}
    {z : Int} (hz : z = if neg then -(n : Int) else n) :
    |signedUnits (roundF64 neg n d) * d - z| ≤ |signedUnits v * d - z| ∧
    (signedUnits v ≠ signedUnits (roundF64 neg n d) →
      |signedUnits (roundF64 neg n d) * d - z| = |signedUnits v * d - z| →
      fracField (roundF64 neg n d) % 2 = 0) := by
  have hlt : roundBits 53 infBits n d < infBits := by
    rw [finite_iff, magBits_roundF64] at h; exact h
  obtain ⟨h1, h2⟩ := roundBits_near_signed 52 hd hlt neg (w := signedUnits v)
    ((natAbs_signedUnits v).trans (units_eq v)) (signedUnits_pack (roundBits_lt n d)) hz
  refine ⟨h1, fun hne he => ?_⟩
  have h3 : roundBits 53 infBits n d % 2 = 0 := (h2 hne he).resolve_right (by decide)
  rw [fracField_eq, magBits_roundF64]
  omega

/-! ### The operations on finite values -/

/-- The sum of finite values, in full. -/
theorem fAdd_eq {x y : F64} (hx : finite x = true) (hy : finite y = true) :
    fAdd x y =
      if signedUnits x + signedUnits y = 0 then pack (isNeg x && isNeg y) 0
      else roundF64 (decide (signedUnits x + signedUnits y < 0)) (signedUnits x + signedUnits y).natAbs 1 := by
  simp [fAdd, addCore, finite_isNaN hx, finite_isNaN hy, finite_isInf hx, finite_isInf hy]

/-- The difference of finite values, in full. -/
theorem fSub_eq {x y : F64} (hx : finite x = true) (hy : finite y = true) :
    fSub x y =
      if signedUnits x - signedUnits y = 0 then pack (isNeg x && !isNeg y) 0
      else roundF64 (decide (signedUnits x - signedUnits y < 0)) (signedUnits x - signedUnits y).natAbs 1 := by
  have hy' : finite (fNeg y) = true := by rw [finite_congr (magBits_fNeg y), hy]
  have h := fAdd_eq hx hy'
  rw [signedUnits_fNeg, isNeg_fNeg, ← sub_eq_add_neg] at h
  rw [← h]
  simp [fAdd, fSub, addCore, finite_isNaN hx, finite_isNaN hy', finite_isInf hx, finite_isInf hy']

/-- The product of finite values, in full. -/
theorem fMul_eq {x y : F64} (hx : finite x = true) (hy : finite y = true) :
    fMul x y = roundF64 (isNeg x != isNeg y) (units x * units y) (2 ^ 1074) := by
  simp [fMul, mulCore, finite_isNaN hx, finite_isNaN hy, finite_isInf hx, finite_isInf hy]

/-- The quotient of finite values, in full. -/
theorem fDiv_eq {x y : F64} (hx : finite x = true) (hy : finite y = true) (h0 : units y ≠ 0) :
    fDiv x y = roundF64 (isNeg x != isNeg y) (2 ^ 1074 * units x) (units y) := by
  simp [fDiv, divCore, finite_isNaN hx, finite_isNaN hy, finite_isInf hx, finite_isInf hy, h0]

theorem fAdd_isNaN {x y : F64} (hx : finite x = true) (hy : finite y = true) : isNaN (fAdd x y) = false := by
  rw [fAdd_eq hx hy]
  split
  · rw [isNaN_false_iff, magBits_pack (by decide)]; exact Nat.zero_le _
  · exact isNaN_roundF64 _ _ _

theorem fSub_isNaN {x y : F64} (hx : finite x = true) (hy : finite y = true) : isNaN (fSub x y) = false := by
  rw [fSub_eq hx hy]
  split
  · rw [isNaN_false_iff, magBits_pack (by decide)]; exact Nat.zero_le _
  · exact isNaN_roundF64 _ _ _

theorem fMul_isNaN {x y : F64} (hx : finite x = true) (hy : finite y = true) : isNaN (fMul x y) = false := by
  rw [fMul_eq hx hy]
  exact isNaN_roundF64 _ _ _

theorem neg_natAbs (z : Int) : (if decide (z < 0) = true then -(z.natAbs : Int) else z.natAbs) = z := by
  simp only [decide_eq_true_eq]
  split <;> omega

theorem signedUnits_pack_zero (neg : Bool) : signedUnits (pack neg 0) = 0 := by
  rw [signedUnits_pack (by decide), unitsOf_zero]
  cases neg <;> rfl

theorem signedUnits_fAdd {x y : F64} (hx : finite x = true) (hy : finite y = true) :
    signedUnits (fAdd x y) = roundInt (signedUnits x + signedUnits y) 1 := by
  rw [fAdd_eq hx hy]
  split
  · rename_i h
    rw [h, roundInt_zero, signedUnits_pack_zero]
  · rw [signedUnits_roundF64, neg_natAbs]

theorem signedUnits_fSub {x y : F64} (hx : finite x = true) (hy : finite y = true) :
    signedUnits (fSub x y) = roundInt (signedUnits x - signedUnits y) 1 := by
  rw [fSub_eq hx hy]
  split
  · rename_i h
    rw [h, roundInt_zero, signedUnits_pack_zero]
  · rw [signedUnits_roundF64, neg_natAbs]

theorem signed_mul (x y : F64) :
    (if (isNeg x != isNeg y) = true then -((units x * units y : Nat) : Int) else (units x * units y : Nat)) =
      signedUnits x * signedUnits y := by
  unfold signedUnits
  cases isNeg x <;> cases isNeg y <;> simp

theorem signedUnits_fMul {x y : F64} (hx : finite x = true) (hy : finite y = true) :
    signedUnits (fMul x y) = roundInt (signedUnits x * signedUnits y) (2 ^ 1074) := by
  rw [fMul_eq hx hy, signedUnits_roundF64, signed_mul]

/-! ### Comparisons -/

theorem fLt_iff {x y : F64} (hx : isNaN x = false) (hy : isNaN y = false) :
    fLt x y = true ↔ signedUnits x < signedUnits y := by
  simp [fLt, hx, hy]

theorem fLe_iff {x y : F64} (hx : isNaN x = false) (hy : isNaN y = false) :
    fLe x y = true ↔ signedUnits x ≤ signedUnits y := by
  simp [fLe, hx, hy]

theorem of_fLt {x y : F64} (h : fLt x y = true) :
    isNaN x = false ∧ isNaN y = false ∧ signedUnits x < signedUnits y := by
  simpa [fLt, and_assoc] using h

theorem of_fLe {x y : F64} (h : fLe x y = true) :
    isNaN x = false ∧ isNaN y = false ∧ signedUnits x ≤ signedUnits y := by
  simpa [fLe, and_assoc] using h

/-- Between two finite values, a value is finite. -/
theorem finite_of_bounds {lo hi v : F64} (hl : finite lo = true) (hh : finite hi = true) (hv : isNaN v = false)
    (h1 : signedUnits lo ≤ signedUnits v) (h2 : signedUnits v ≤ signedUnits hi) : finite v = true := by
  rw [finite_iff_units hv, ← natAbs_signedUnits]
  have a := (finite_iff_units (finite_isNaN hl)).1 hl
  have b := (finite_iff_units (finite_isNaN hh)).1 hh
  rw [← natAbs_signedUnits] at a b
  generalize 2 ^ 2098 = m at *
  omega

/-! ### Representable values -/

/-- Up to `2^(p+1)` units of any scale, a value is one of the format. -/
theorem exists_unitsOf (p : Nat) : ∀ s k : Nat, k ≤ 2 * 2 ^ p → ∃ b, unitsOf p b = k * 2 ^ s
  | 0, k, h => ⟨k, by rw [unitsOf_small h]; simp⟩
  | s + 1, k, h => by
    rcases Nat.lt_or_ge k (2 ^ p) with hk | hk
    · obtain ⟨b, hb⟩ := exists_unitsOf p s (2 * k) (by omega)
      exact ⟨b, by rw [hb, pow_succ]; ring⟩
    · exact ⟨_, unitsOf_scaled hk h⟩

theorem two_pow_mul_eq {a b c d : Nat} (h : a + b = c + d) : 2 ^ a * 2 ^ b = 2 ^ c * 2 ^ d := by
  rw [← pow_add, ← pow_add, h]

/-! ### Bounds -/

theorem between_iff {lo hi v : F64} :
    between lo hi v = true ↔
      isNaN lo = false ∧ isNaN hi = false ∧ isNaN v = false ∧
        signedUnits lo ≤ signedUnits v ∧ signedUnits v ≤ signedUnits hi := by
  unfold between
  rw [Bool.and_eq_true]
  constructor
  · rintro ⟨h1, h2⟩
    obtain ⟨a, b, c⟩ := of_fLe h1
    obtain ⟨-, e, f⟩ := of_fLe h2
    exact ⟨a, e, b, c, f⟩
  · rintro ⟨a, b, c, d, e⟩
    exact ⟨(fLe_iff a c).2 d, (fLe_iff c b).2 e⟩

theorem finite_of_between {lo hi v : F64} (hl : finite lo = true) (hh : finite hi = true)
    (h : between lo hi v = true) : finite v = true := by
  obtain ⟨-, -, c, d, e⟩ := between_iff.1 h
  exact finite_of_bounds hl hh c d e

/-- A whole value of the format is rounded to itself. -/
theorem roundInt_one {v : F64} (hv : isNaN v = false) : roundInt (signedUnits v) 1 = signedUnits v := by
  simpa using roundInt_exact (d := 1) one_pos hv

section

variable {x y lo hi : F64} (hx : finite x = true) (hy : finite y = true) (hl : isNaN lo = false)
  (hh : isNaN hi = false)

include hx hy hl hh

/-- A sum lies between any two values its exact value lies between. -/
theorem fAdd_between (h1 : signedUnits lo ≤ signedUnits x + signedUnits y)
    (h2 : signedUnits x + signedUnits y ≤ signedUnits hi) : between lo hi (fAdd x y) = true := by
  refine between_iff.2 ⟨hl, hh, fAdd_isNaN hx hy, ?_, ?_⟩
  · rw [signedUnits_fAdd hx hy, ← roundInt_one hl]; exact roundInt_mono one_pos h1
  · rw [signedUnits_fAdd hx hy, ← roundInt_one hh]; exact roundInt_mono one_pos h2

theorem fSub_between (h1 : signedUnits lo ≤ signedUnits x - signedUnits y)
    (h2 : signedUnits x - signedUnits y ≤ signedUnits hi) : between lo hi (fSub x y) = true := by
  refine between_iff.2 ⟨hl, hh, fSub_isNaN hx hy, ?_, ?_⟩
  · rw [signedUnits_fSub hx hy, ← roundInt_one hl]; exact roundInt_mono one_pos h1
  · rw [signedUnits_fSub hx hy, ← roundInt_one hh]; exact roundInt_mono one_pos h2

theorem fMul_between (h1 : signedUnits lo * 2 ^ 1074 ≤ signedUnits x * signedUnits y)
    (h2 : signedUnits x * signedUnits y ≤ signedUnits hi * 2 ^ 1074) : between lo hi (fMul x y) = true := by
  have hd : 0 < 2 ^ 1074 := Nat.two_pow_pos 1074
  rw [← cast_two_pow] at h1 h2
  refine between_iff.2 ⟨hl, hh, fMul_isNaN hx hy, ?_, ?_⟩
  · rw [signedUnits_fMul hx hy, ← roundInt_exact hd hl]; exact roundInt_mono hd h1
  · rw [signedUnits_fMul hx hy, ← roundInt_exact hd hh]; exact roundInt_mono hd h2

end

/-- A positive rounding that reaches one unit is not zero. -/
theorem roundF64_pos {n d : Nat} (hd : 0 < d) (h : d ≤ n) : 0 < units (roundF64 false n d) := by
  rw [units_eq, magBits_roundF64]
  have h1 := roundBits_unitsOf 52 (top := infBits) (b := 1) hd (by decide)
  have e : unitsOf 52 1 = 1 := by decide
  rw [e] at h1
  have h2 := roundBits_mono 52 (top := infBits) (n := 1 * d) (d := d) (n' := n) (d' := d) hd hd
    (Nat.mul_le_mul_right _ (by omega))
  rw [h1] at h2
  have h3 : unitsOf 52 1 ≤ unitsOf 52 (roundBits 53 infBits n d) := unitsOf_le_iff.2 h2
  omega

/-- A rounding below 2^2097 units is finite. -/
theorem roundF64_finite {n d k : Nat} {neg : Bool} (hd : 0 < d) (hk : k < 2097) (h : n ≤ 2 ^ k * d) :
    finite (roundF64 neg n d) = true := by
  by_contra hc
  rw [Bool.not_eq_true, finite_roundF64 _ hd] at hc
  have h1 : 2 ^ 2098 - 2 ^ 2044 ≤ 2 ^ k := Nat.le_of_mul_le_mul_right (hc.trans h) hd
  have h2 : (2 : Nat) ^ k < 2 ^ 2097 := Nat.pow_lt_pow_right (by omega) hk
  have h3 : (2 : Nat) ^ 2044 ≤ 2 ^ 2097 := Nat.pow_le_pow_right (by omega) (by omega)
  have h4 : (2 : Nat) ^ 2098 = 2 * 2 ^ 2097 := by rw [← pow_succ']
  rw [h4] at h1
  generalize (2 : Nat) ^ 2097 = a at *
  generalize (2 : Nat) ^ 2044 = b at *
  generalize (2 : Nat) ^ k = c at *
  omega

/-! ### Constants and series -/

theorem signedUnits_cZero : signedUnits cZero = 0 := by decide
theorem signedUnits_cOne : signedUnits cOne = 2 ^ 1074 := by decide +kernel
theorem signedUnits_cNegOne : signedUnits cNegOne = -2 ^ 1074 := by decide +kernel
theorem signedUnits_cHalf : signedUnits cHalf = 2 ^ 1073 := by decide +kernel
theorem signedUnits_cNegHalf : signedUnits cNegHalf = -2 ^ 1073 := by decide +kernel
theorem signedUnits_cTwo : signedUnits cTwo = 2 * 2 ^ 1074 := by decide +kernel
theorem signedUnits_cThree : signedUnits cThree = 3 * 2 ^ 1074 := by decide +kernel
theorem signedUnits_cFour : signedUnits cFour = 4 * 2 ^ 1074 := by decide +kernel

theorem fixOne_pos : 0 < fixOne := Nat.two_pow_pos 512

theorem expSeries_ge (u : Nat) : ∀ n j, fixOne ≤ expSeries u n j
  | 0, _ => le_refl _
  | _ + 1, _ => Nat.le_add_right _ _

/-- From its second level on, the exponential series is at most 2. -/
theorem expSeries_le {u : Nat} (hu : u ≤ fixOne) : ∀ n j, 2 ≤ j → expSeries u n j ≤ 2 * fixOne
  | 0, _, _ => by unfold expSeries; omega
  | n + 1, j, hj => by
    have ih := expSeries_le hu n (j + 1) (by omega)
    unfold expSeries
    have : u * expSeries u n (j + 1) / (fixOne * j) ≤ fixOne := by
      apply Nat.div_le_of_le_mul
      calc u * expSeries u n (j + 1) ≤ fixOne * (2 * fixOne) := Nat.mul_le_mul hu ih
        _ ≤ fixOne * j * fixOne := by rw [Nat.mul_assoc]; exact Nat.mul_le_mul_left _ (Nat.mul_le_mul_right _ hj)
    omega

theorem sinSeries_le (r2 : Nat) : ∀ n j, sinSeries r2 n j ≤ fixOne
  | 0, _ => le_refl _
  | _ + 1, _ => Nat.sub_le _ _

end Sys2Proof.Machine
end

