-- ==== Sys2Proof/Laws/State.lean ====
section
/-! SUPPORT. What each update of the state does to each field of it, true by unfolding and tagged for simp, so that no
later proof unfolds a record update. -/

namespace Sys2Proof.Machine

variable (s : State)

/-! ### send -/

@[simp] theorem send_params (ws : List Word) : (send ws s).params = s.params := rfl
@[simp] theorem send_record (ws : List Word) : (send ws s).record = s.record := rfl
@[simp] theorem send_cfg (ws : List Word) : (send ws s).cfg = s.cfg := rfl
@[simp] theorem send_samples (ws : List Word) : (send ws s).samples = s.samples := rfl
@[simp] theorem send_gain (ws : List Word) : (send ws s).gain = s.gain := rfl
@[simp] theorem send_range (ws : List Word) : (send ws s).range = s.range := rfl
@[simp] theorem send_trig (ws : List Word) : (send ws s).trig = s.trig := rfl
@[simp] theorem send_bank (ws : List Word) : (send ws s).bank = s.bank := rfl
@[simp] theorem send_syn (ws : List Word) : (send ws s).syn = s.syn := rfl
@[simp] theorem send_flt (ws : List Word) : (send ws s).flt = s.flt := rfl
@[simp] theorem send_dly (ws : List Word) : (send ws s).dly = s.dly := rfl
@[simp] theorem send_buf (ws : List Word) : (send ws s).buf = s.buf := rfl
@[simp] theorem send_pan (ws : List Word) : (send ws s).pan = s.pan := rfl
@[simp] theorem send_ports (ws : List Word) : (send ws s).ports = { s.ports with resp := s.ports.resp ++ ws } := rfl

/-! ### respondOk -/

@[simp] theorem respondOk_params (w : Word) (data : List Word) : (respondOk w data s).params = s.params := rfl
@[simp] theorem respondOk_record (w : Word) (data : List Word) : (respondOk w data s).record = s.record := rfl
@[simp] theorem respondOk_cfg (w : Word) (data : List Word) : (respondOk w data s).cfg = s.cfg := rfl
@[simp] theorem respondOk_samples (w : Word) (data : List Word) : (respondOk w data s).samples = s.samples := rfl
@[simp] theorem respondOk_gain (w : Word) (data : List Word) : (respondOk w data s).gain = s.gain := rfl
@[simp] theorem respondOk_range (w : Word) (data : List Word) : (respondOk w data s).range = s.range := rfl
@[simp] theorem respondOk_trig (w : Word) (data : List Word) : (respondOk w data s).trig = s.trig := rfl
@[simp] theorem respondOk_bank (w : Word) (data : List Word) : (respondOk w data s).bank = s.bank := rfl
@[simp] theorem respondOk_syn (w : Word) (data : List Word) : (respondOk w data s).syn = s.syn := rfl
@[simp] theorem respondOk_flt (w : Word) (data : List Word) : (respondOk w data s).flt = s.flt := rfl
@[simp] theorem respondOk_dly (w : Word) (data : List Word) : (respondOk w data s).dly = s.dly := rfl
@[simp] theorem respondOk_buf (w : Word) (data : List Word) : (respondOk w data s).buf = s.buf := rfl
@[simp] theorem respondOk_pan (w : Word) (data : List Word) : (respondOk w data s).pan = s.pan := rfl
@[simp] theorem respondOk_ports (w : Word) (data : List Word) :
    (respondOk w data s).ports =
      { s.ports with resp := s.ports.resp ++ (responseWord w false 0 :: data) } := rfl

/-! ### reject -/

@[simp] theorem reject_params (c : Cause) (w : Word) : (reject c w s).params = s.params := rfl
@[simp] theorem reject_record (c : Cause) (w : Word) : (reject c w s).record = s.record.after c w := rfl
@[simp] theorem reject_cfg (c : Cause) (w : Word) : (reject c w s).cfg = s.cfg := rfl
@[simp] theorem reject_samples (c : Cause) (w : Word) : (reject c w s).samples = s.samples := rfl
@[simp] theorem reject_gain (c : Cause) (w : Word) : (reject c w s).gain = s.gain := rfl
@[simp] theorem reject_range (c : Cause) (w : Word) : (reject c w s).range = s.range := rfl
@[simp] theorem reject_trig (c : Cause) (w : Word) : (reject c w s).trig = s.trig := rfl
@[simp] theorem reject_bank (c : Cause) (w : Word) : (reject c w s).bank = s.bank := rfl
@[simp] theorem reject_syn (c : Cause) (w : Word) : (reject c w s).syn = s.syn := rfl
@[simp] theorem reject_flt (c : Cause) (w : Word) : (reject c w s).flt = s.flt := rfl
@[simp] theorem reject_dly (c : Cause) (w : Word) : (reject c w s).dly = s.dly := rfl
@[simp] theorem reject_buf (c : Cause) (w : Word) : (reject c w s).buf = s.buf := rfl
@[simp] theorem reject_pan (c : Cause) (w : Word) : (reject c w s).pan = s.pan := rfl
@[simp] theorem reject_ports (c : Cause) (w : Word) :
    (reject c w s).ports =
      { s.ports with resp := s.ports.resp ++ [responseWord w true c.code] } := rfl

/-! ### clearError -/

@[simp] theorem clearError_params : (clearError s).params = s.params := rfl
@[simp] theorem clearError_record : (clearError s).record = ErrRecord.reset := rfl
@[simp] theorem clearError_cfg : (clearError s).cfg = s.cfg := rfl
@[simp] theorem clearError_samples : (clearError s).samples = s.samples := rfl
@[simp] theorem clearError_gain : (clearError s).gain = s.gain := rfl
@[simp] theorem clearError_range : (clearError s).range = s.range := rfl
@[simp] theorem clearError_trig : (clearError s).trig = s.trig := rfl
@[simp] theorem clearError_bank : (clearError s).bank = s.bank := rfl
@[simp] theorem clearError_syn : (clearError s).syn = s.syn := rfl
@[simp] theorem clearError_flt : (clearError s).flt = s.flt := rfl
@[simp] theorem clearError_dly : (clearError s).dly = s.dly := rfl
@[simp] theorem clearError_buf : (clearError s).buf = s.buf := rfl
@[simp] theorem clearError_pan : (clearError s).pan = s.pan := rfl
@[simp] theorem clearError_ports : (clearError s).ports = s.ports := rfl

/-! ### withCmd -/

@[simp] theorem withCmd_params (ws : List Word) : (withCmd ws s).params = s.params := rfl
@[simp] theorem withCmd_record (ws : List Word) : (withCmd ws s).record = s.record := rfl
@[simp] theorem withCmd_cfg (ws : List Word) : (withCmd ws s).cfg = s.cfg := rfl
@[simp] theorem withCmd_samples (ws : List Word) : (withCmd ws s).samples = s.samples := rfl
@[simp] theorem withCmd_gain (ws : List Word) : (withCmd ws s).gain = s.gain := rfl
@[simp] theorem withCmd_range (ws : List Word) : (withCmd ws s).range = s.range := rfl
@[simp] theorem withCmd_trig (ws : List Word) : (withCmd ws s).trig = s.trig := rfl
@[simp] theorem withCmd_bank (ws : List Word) : (withCmd ws s).bank = s.bank := rfl
@[simp] theorem withCmd_syn (ws : List Word) : (withCmd ws s).syn = s.syn := rfl
@[simp] theorem withCmd_flt (ws : List Word) : (withCmd ws s).flt = s.flt := rfl
@[simp] theorem withCmd_dly (ws : List Word) : (withCmd ws s).dly = s.dly := rfl
@[simp] theorem withCmd_buf (ws : List Word) : (withCmd ws s).buf = s.buf := rfl
@[simp] theorem withCmd_pan (ws : List Word) : (withCmd ws s).pan = s.pan := rfl
@[simp] theorem withCmd_ports (ws : List Word) :
    (withCmd ws s).ports =
      { s.ports with cmd := ws, pin := .released } := rfl

/-! ### withOsc -/

@[simp] theorem withOsc_params (k : Nat) (o : Osc) : (withOsc k o s).params = s.params := rfl
@[simp] theorem withOsc_record (k : Nat) (o : Osc) : (withOsc k o s).record = s.record := rfl
@[simp] theorem withOsc_cfg (k : Nat) (o : Osc) : (withOsc k o s).cfg = s.cfg := rfl
@[simp] theorem withOsc_samples (k : Nat) (o : Osc) : (withOsc k o s).samples = s.samples := rfl
@[simp] theorem withOsc_gain (k : Nat) (o : Osc) : (withOsc k o s).gain = s.gain := rfl
@[simp] theorem withOsc_range (k : Nat) (o : Osc) : (withOsc k o s).range = s.range := rfl
@[simp] theorem withOsc_trig (k : Nat) (o : Osc) : (withOsc k o s).trig = s.trig := rfl
@[simp] theorem withOsc_bank (k : Nat) (o : Osc) : (withOsc k o s).bank = s.bank.setOsc k o := rfl
@[simp] theorem withOsc_syn (k : Nat) (o : Osc) : (withOsc k o s).syn = s.syn := rfl
@[simp] theorem withOsc_flt (k : Nat) (o : Osc) : (withOsc k o s).flt = s.flt := rfl
@[simp] theorem withOsc_dly (k : Nat) (o : Osc) : (withOsc k o s).dly = s.dly := rfl
@[simp] theorem withOsc_buf (k : Nat) (o : Osc) : (withOsc k o s).buf = s.buf := rfl
@[simp] theorem withOsc_pan (k : Nat) (o : Osc) : (withOsc k o s).pan = s.pan := rfl
@[simp] theorem withOsc_ports (k : Nat) (o : Osc) : (withOsc k o s).ports = s.ports := rfl

/-! ### retune -/

@[simp] theorem retune_params (note : Nat) : (retune note s).params = s.params := rfl
@[simp] theorem retune_record (note : Nat) : (retune note s).record = s.record := rfl
@[simp] theorem retune_cfg (note : Nat) : (retune note s).cfg = s.cfg := rfl
@[simp] theorem retune_samples (note : Nat) : (retune note s).samples = s.samples := rfl
@[simp] theorem retune_gain (note : Nat) : (retune note s).gain = s.gain := rfl
@[simp] theorem retune_range (note : Nat) : (retune note s).range = s.range := rfl
@[simp] theorem retune_trig (note : Nat) : (retune note s).trig = s.trig := rfl
@[simp] theorem retune_bank (note : Nat) :
    (retune note s).bank =
      { s.bank with harm := tune s.syn.count.toNat (fundamental note) s.bank.harm } := rfl
@[simp] theorem retune_syn (note : Nat) : (retune note s).syn = { s.syn with note := BitVec.ofNat 32 note } := rfl
@[simp] theorem retune_flt (note : Nat) : (retune note s).flt = s.flt := rfl
@[simp] theorem retune_dly (note : Nat) : (retune note s).dly = s.dly := rfl
@[simp] theorem retune_buf (note : Nat) : (retune note s).buf = s.buf := rfl
@[simp] theorem retune_pan (note : Nat) : (retune note s).pan = s.pan := rfl
@[simp] theorem retune_ports (note : Nat) : (retune note s).ports = s.ports := rfl

/-! ### synAdvance -/

@[simp] theorem synAdvance_params : (synAdvance s).params = s.params := rfl
@[simp] theorem synAdvance_record : (synAdvance s).record = s.record := rfl
@[simp] theorem synAdvance_cfg : (synAdvance s).cfg = s.cfg := rfl
@[simp] theorem synAdvance_samples : (synAdvance s).samples = s.samples := rfl
@[simp] theorem synAdvance_gain : (synAdvance s).gain = s.gain := rfl
@[simp] theorem synAdvance_range : (synAdvance s).range = s.range := rfl
@[simp] theorem synAdvance_trig : (synAdvance s).trig = s.trig := rfl
@[simp] theorem synAdvance_bank :
    (synAdvance s).bank =
      { s.bank with harm := advanceHarm s.syn.count.toNat s.bank.harm } := rfl
@[simp] theorem synAdvance_syn : (synAdvance s).syn = s.syn := rfl
@[simp] theorem synAdvance_flt : (synAdvance s).flt = s.flt := rfl
@[simp] theorem synAdvance_dly : (synAdvance s).dly = s.dly := rfl
@[simp] theorem synAdvance_buf : (synAdvance s).buf = s.buf := rfl
@[simp] theorem synAdvance_pan : (synAdvance s).pan = s.pan := rfl
@[simp] theorem synAdvance_ports : (synAdvance s).ports = s.ports := rfl

/-! ### fltAdvance -/

@[simp] theorem fltAdvance_params (x : F64) : (fltAdvance x s).params = s.params := rfl
@[simp] theorem fltAdvance_record (x : F64) : (fltAdvance x s).record = s.record := rfl
@[simp] theorem fltAdvance_cfg (x : F64) : (fltAdvance x s).cfg = s.cfg := rfl
@[simp] theorem fltAdvance_samples (x : F64) : (fltAdvance x s).samples = s.samples := rfl
@[simp] theorem fltAdvance_gain (x : F64) : (fltAdvance x s).gain = s.gain := rfl
@[simp] theorem fltAdvance_range (x : F64) : (fltAdvance x s).range = s.range := rfl
@[simp] theorem fltAdvance_trig (x : F64) : (fltAdvance x s).trig = s.trig := rfl
@[simp] theorem fltAdvance_syn (x : F64) : (fltAdvance x s).syn = s.syn := rfl
@[simp] theorem fltAdvance_dly (x : F64) : (fltAdvance x s).dly = s.dly := rfl
@[simp] theorem fltAdvance_buf (x : F64) : (fltAdvance x s).buf = s.buf := rfl
@[simp] theorem fltAdvance_pan (x : F64) : (fltAdvance x s).pan = s.pan := rfl
@[simp] theorem fltAdvance_ports (x : F64) : (fltAdvance x s).ports = s.ports := rfl

/-! ### dlyAdvance -/

@[simp] theorem dlyAdvance_params (x : F64) : (dlyAdvance x s).params = s.params := rfl
@[simp] theorem dlyAdvance_record (x : F64) : (dlyAdvance x s).record = s.record := rfl
@[simp] theorem dlyAdvance_cfg (x : F64) : (dlyAdvance x s).cfg = s.cfg := rfl
@[simp] theorem dlyAdvance_samples (x : F64) : (dlyAdvance x s).samples = s.samples := rfl
@[simp] theorem dlyAdvance_gain (x : F64) : (dlyAdvance x s).gain = s.gain := rfl
@[simp] theorem dlyAdvance_range (x : F64) : (dlyAdvance x s).range = s.range := rfl
@[simp] theorem dlyAdvance_trig (x : F64) : (dlyAdvance x s).trig = s.trig := rfl
@[simp] theorem dlyAdvance_bank (x : F64) : (dlyAdvance x s).bank = s.bank := rfl
@[simp] theorem dlyAdvance_syn (x : F64) : (dlyAdvance x s).syn = s.syn := rfl
@[simp] theorem dlyAdvance_flt (x : F64) : (dlyAdvance x s).flt = s.flt := rfl
@[simp] theorem dlyAdvance_dly (x : F64) :
    (dlyAdvance x s).dly =
      { s.dly with wp := nextPointer s.dly.size s.dly.wp, rp := nextPointer s.dly.size s.dly.rp } := rfl
@[simp] theorem dlyAdvance_buf (x : F64) : (dlyAdvance x s).buf = memWrite s.buf s.dly.wp.toNat (dlyOut x s) := rfl
@[simp] theorem dlyAdvance_pan (x : F64) : (dlyAdvance x s).pan = s.pan := rfl
@[simp] theorem dlyAdvance_ports (x : F64) : (dlyAdvance x s).ports = s.ports := rfl

/-! ### panAdvance -/

@[simp] theorem panAdvance_params : (panAdvance s).params = s.params := rfl
@[simp] theorem panAdvance_record : (panAdvance s).record = s.record := rfl
@[simp] theorem panAdvance_cfg : (panAdvance s).cfg = s.cfg := rfl
@[simp] theorem panAdvance_samples : (panAdvance s).samples = s.samples := rfl
@[simp] theorem panAdvance_gain : (panAdvance s).gain = s.gain := rfl
@[simp] theorem panAdvance_range : (panAdvance s).range = s.range := rfl
@[simp] theorem panAdvance_trig : (panAdvance s).trig = s.trig := rfl
@[simp] theorem panAdvance_bank :
    (panAdvance s).bank =
      { s.bank with pan := panAfter s, pmod := advanced s.bank.pmod } := rfl
@[simp] theorem panAdvance_syn : (panAdvance s).syn = s.syn := rfl
@[simp] theorem panAdvance_flt : (panAdvance s).flt = s.flt := rfl
@[simp] theorem panAdvance_dly : (panAdvance s).dly = s.dly := rfl
@[simp] theorem panAdvance_buf : (panAdvance s).buf = s.buf := rfl
@[simp] theorem panAdvance_pan : (panAdvance s).pan = { s.pan with gr := panGr s, gl := panGl s } := rfl
@[simp] theorem panAdvance_ports : (panAdvance s).ports = s.ports := rfl

/-! ### pulseAdvance -/

@[simp] theorem pulseAdvance_params : (pulseAdvance s).params = s.params := rfl
@[simp] theorem pulseAdvance_record : (pulseAdvance s).record = s.record := rfl
@[simp] theorem pulseAdvance_cfg : (pulseAdvance s).cfg = s.cfg := rfl
@[simp] theorem pulseAdvance_samples : (pulseAdvance s).samples = s.samples := rfl
@[simp] theorem pulseAdvance_gain : (pulseAdvance s).gain = s.gain := rfl
@[simp] theorem pulseAdvance_range : (pulseAdvance s).range = s.range := rfl
@[simp] theorem pulseAdvance_trig : (pulseAdvance s).trig = { prevValid := true, prev := stepOut s.bank.pulse } := rfl
@[simp] theorem pulseAdvance_bank : (pulseAdvance s).bank = { s.bank with pulse := advanced s.bank.pulse } := rfl
@[simp] theorem pulseAdvance_syn : (pulseAdvance s).syn = s.syn := rfl
@[simp] theorem pulseAdvance_flt : (pulseAdvance s).flt = s.flt := rfl
@[simp] theorem pulseAdvance_dly : (pulseAdvance s).dly = s.dly := rfl
@[simp] theorem pulseAdvance_buf : (pulseAdvance s).buf = s.buf := rfl
@[simp] theorem pulseAdvance_pan : (pulseAdvance s).pan = s.pan := rfl
@[simp] theorem pulseAdvance_ports : (pulseAdvance s).ports = s.ports := rfl

/-! ### dlySizeEffect -/

@[simp] theorem dlySizeEffect_params (n : Int) : (dlySizeEffect n s).params = s.params := rfl
@[simp] theorem dlySizeEffect_record (n : Int) : (dlySizeEffect n s).record = s.record := rfl
@[simp] theorem dlySizeEffect_cfg (n : Int) :
    (dlySizeEffect n s).cfg =
      { s.cfg with dtime := false, dsize := true } := rfl
@[simp] theorem dlySizeEffect_samples (n : Int) : (dlySizeEffect n s).samples = s.samples := rfl
@[simp] theorem dlySizeEffect_gain (n : Int) : (dlySizeEffect n s).gain = s.gain := rfl
@[simp] theorem dlySizeEffect_range (n : Int) : (dlySizeEffect n s).range = s.range := rfl
@[simp] theorem dlySizeEffect_trig (n : Int) : (dlySizeEffect n s).trig = s.trig := rfl
@[simp] theorem dlySizeEffect_bank (n : Int) : (dlySizeEffect n s).bank = s.bank := rfl
@[simp] theorem dlySizeEffect_syn (n : Int) : (dlySizeEffect n s).syn = s.syn := rfl
@[simp] theorem dlySizeEffect_flt (n : Int) : (dlySizeEffect n s).flt = s.flt := rfl
@[simp] theorem dlySizeEffect_dly (n : Int) :
    (dlySizeEffect n s).dly =
      { s.dly with size := intWord n, wp := 0, rp := 0, time := 0 } := rfl
@[simp] theorem dlySizeEffect_buf (n : Int) : (dlySizeEffect n s).buf = [] := rfl
@[simp] theorem dlySizeEffect_pan (n : Int) : (dlySizeEffect n s).pan = s.pan := rfl
@[simp] theorem dlySizeEffect_ports (n : Int) : (dlySizeEffect n s).ports = s.ports := rfl

/-! ### dlyTimeEffect -/

@[simp] theorem dlyTimeEffect_params (d : Int) : (dlyTimeEffect d s).params = s.params := rfl
@[simp] theorem dlyTimeEffect_record (d : Int) : (dlyTimeEffect d s).record = s.record := rfl
@[simp] theorem dlyTimeEffect_cfg (d : Int) : (dlyTimeEffect d s).cfg = { s.cfg with dtime := true } := rfl
@[simp] theorem dlyTimeEffect_samples (d : Int) : (dlyTimeEffect d s).samples = s.samples := rfl
@[simp] theorem dlyTimeEffect_gain (d : Int) : (dlyTimeEffect d s).gain = s.gain := rfl
@[simp] theorem dlyTimeEffect_range (d : Int) : (dlyTimeEffect d s).range = s.range := rfl
@[simp] theorem dlyTimeEffect_trig (d : Int) : (dlyTimeEffect d s).trig = s.trig := rfl
@[simp] theorem dlyTimeEffect_bank (d : Int) : (dlyTimeEffect d s).bank = s.bank := rfl
@[simp] theorem dlyTimeEffect_syn (d : Int) : (dlyTimeEffect d s).syn = s.syn := rfl
@[simp] theorem dlyTimeEffect_flt (d : Int) : (dlyTimeEffect d s).flt = s.flt := rfl
@[simp] theorem dlyTimeEffect_dly (d : Int) :
    (dlyTimeEffect d s).dly =
      { s.dly with rp := intWord (tapPointer s d), time := intWord d } := rfl
@[simp] theorem dlyTimeEffect_buf (d : Int) : (dlyTimeEffect d s).buf = s.buf := rfl
@[simp] theorem dlyTimeEffect_pan (d : Int) : (dlyTimeEffect d s).pan = s.pan := rfl
@[simp] theorem dlyTimeEffect_ports (d : Int) : (dlyTimeEffect d s).ports = s.ports := rfl

/-! ### fltSetupEffect -/

@[simp] theorem fltSetupEffect_params (sr cf lf bc rf br : F64) :
    (fltSetupEffect sr cf lf bc rf br s).params =
      s.params := rfl
@[simp] theorem fltSetupEffect_record (sr cf lf bc rf br : F64) :
    (fltSetupEffect sr cf lf bc rf br s).record =
      s.record := rfl
@[simp] theorem fltSetupEffect_cfg (sr cf lf bc rf br : F64) :
    (fltSetupEffect sr cf lf bc rf br s).cfg =
      { s.cfg with flt := true } := rfl
@[simp] theorem fltSetupEffect_samples (sr cf lf bc rf br : F64) :
    (fltSetupEffect sr cf lf bc rf br s).samples =
      s.samples := rfl
@[simp] theorem fltSetupEffect_gain (sr cf lf bc rf br : F64) :
    (fltSetupEffect sr cf lf bc rf br s).gain =
      s.gain := rfl
@[simp] theorem fltSetupEffect_range (sr cf lf bc rf br : F64) :
    (fltSetupEffect sr cf lf bc rf br s).range =
      s.range := rfl
@[simp] theorem fltSetupEffect_trig (sr cf lf bc rf br : F64) :
    (fltSetupEffect sr cf lf bc rf br s).trig =
      s.trig := rfl
@[simp] theorem fltSetupEffect_syn (sr cf lf bc rf br : F64) : (fltSetupEffect sr cf lf bc rf br s).syn = s.syn := rfl
@[simp] theorem fltSetupEffect_dly (sr cf lf bc rf br : F64) : (fltSetupEffect sr cf lf bc rf br s).dly = s.dly := rfl
@[simp] theorem fltSetupEffect_buf (sr cf lf bc rf br : F64) : (fltSetupEffect sr cf lf bc rf br s).buf = s.buf := rfl
@[simp] theorem fltSetupEffect_pan (sr cf lf bc rf br : F64) : (fltSetupEffect sr cf lf bc rf br s).pan = s.pan := rfl
@[simp] theorem fltSetupEffect_ports (sr cf lf bc rf br : F64) :
    (fltSetupEffect sr cf lf bc rf br s).ports =
      s.ports := rfl

/-! ### panSetupEffect -/

@[simp] theorem panSetupEffect_params (sr pf mf thr : F64) : (panSetupEffect sr pf mf thr s).params = s.params := rfl
@[simp] theorem panSetupEffect_record (sr pf mf thr : F64) : (panSetupEffect sr pf mf thr s).record = s.record := rfl
@[simp] theorem panSetupEffect_cfg (sr pf mf thr : F64) :
    (panSetupEffect sr pf mf thr s).cfg =
      { s.cfg with pan := true } := rfl
@[simp] theorem panSetupEffect_samples (sr pf mf thr : F64) :
    (panSetupEffect sr pf mf thr s).samples =
      s.samples := rfl
@[simp] theorem panSetupEffect_gain (sr pf mf thr : F64) : (panSetupEffect sr pf mf thr s).gain = s.gain := rfl
@[simp] theorem panSetupEffect_range (sr pf mf thr : F64) : (panSetupEffect sr pf mf thr s).range = s.range := rfl
@[simp] theorem panSetupEffect_trig (sr pf mf thr : F64) : (panSetupEffect sr pf mf thr s).trig = s.trig := rfl
@[simp] theorem panSetupEffect_syn (sr pf mf thr : F64) : (panSetupEffect sr pf mf thr s).syn = s.syn := rfl
@[simp] theorem panSetupEffect_flt (sr pf mf thr : F64) : (panSetupEffect sr pf mf thr s).flt = s.flt := rfl
@[simp] theorem panSetupEffect_dly (sr pf mf thr : F64) : (panSetupEffect sr pf mf thr s).dly = s.dly := rfl
@[simp] theorem panSetupEffect_buf (sr pf mf thr : F64) : (panSetupEffect sr pf mf thr s).buf = s.buf := rfl
@[simp] theorem panSetupEffect_pan (sr pf mf thr : F64) :
    (panSetupEffect sr pf mf thr s).pan =
      { thr := thr, gr := cZero, gl := cZero } := rfl
@[simp] theorem panSetupEffect_ports (sr pf mf thr : F64) : (panSetupEffect sr pf mf thr s).ports = s.ports := rfl

/-! ### synSetupEffect -/

@[simp] theorem synSetupEffect_params (count note : Nat) (sr : F64) :
    (synSetupEffect count note sr s).params =
      s.params := rfl
@[simp] theorem synSetupEffect_record (count note : Nat) (sr : F64) :
    (synSetupEffect count note sr s).record =
      s.record := rfl
@[simp] theorem synSetupEffect_cfg (count note : Nat) (sr : F64) :
    (synSetupEffect count note sr s).cfg =
      { s.cfg with syn := true } := rfl
@[simp] theorem synSetupEffect_samples (count note : Nat) (sr : F64) :
    (synSetupEffect count note sr s).samples =
      s.samples := rfl
@[simp] theorem synSetupEffect_gain (count note : Nat) (sr : F64) :
    (synSetupEffect count note sr s).gain =
      s.gain := rfl
@[simp] theorem synSetupEffect_range (count note : Nat) (sr : F64) :
    (synSetupEffect count note sr s).range =
      s.range := rfl
@[simp] theorem synSetupEffect_trig (count note : Nat) (sr : F64) :
    (synSetupEffect count note sr s).trig =
      s.trig := rfl
@[simp] theorem synSetupEffect_syn (count note : Nat) (sr : F64) :
    (synSetupEffect count note sr s).syn =
      { count := BitVec.ofNat 32 count, note := BitVec.ofNat 32 note } := rfl
@[simp] theorem synSetupEffect_flt (count note : Nat) (sr : F64) : (synSetupEffect count note sr s).flt = s.flt := rfl
@[simp] theorem synSetupEffect_dly (count note : Nat) (sr : F64) : (synSetupEffect count note sr s).dly = s.dly := rfl
@[simp] theorem synSetupEffect_buf (count note : Nat) (sr : F64) : (synSetupEffect count note sr s).buf = s.buf := rfl
@[simp] theorem synSetupEffect_pan (count note : Nat) (sr : F64) : (synSetupEffect count note sr s).pan = s.pan := rfl
@[simp] theorem synSetupEffect_ports (count note : Nat) (sr : F64) :
    (synSetupEffect count note sr s).ports =
      s.ports := rfl

/-! ### fltAdvance and the setups, field by field of the changed units -/

@[simp] theorem fltAdvance_cutoff (x : F64) : (fltAdvance x s).flt.cutoff = nextCutoff s := rfl
@[simp] theorem fltAdvance_reson (x : F64) : (fltAdvance x s).flt.reson = nextReson s := rfl
@[simp] theorem fltAdvance_coef (x : F64) : (fltAdvance x s).flt.coef = nextCoef s := rfl
@[simp] theorem fltAdvance_sr (x : F64) : (fltAdvance x s).flt.sr = s.flt.sr := rfl
@[simp] theorem fltAdvance_baseCut (x : F64) : (fltAdvance x s).flt.baseCut = s.flt.baseCut := rfl
@[simp] theorem fltAdvance_baseRes (x : F64) : (fltAdvance x s).flt.baseRes = s.flt.baseRes := rfl
@[simp] theorem fltAdvance_pulse (x : F64) : (fltAdvance x s).bank.pulse = s.bank.pulse := rfl
@[simp] theorem fltAdvance_carrier (x : F64) : (fltAdvance x s).bank.carrier = advanced s.bank.carrier := rfl
@[simp] theorem fltAdvance_lfoCut (x : F64) : (fltAdvance x s).bank.lfoCut = advanced s.bank.lfoCut := rfl
@[simp] theorem fltAdvance_lfoRes (x : F64) : (fltAdvance x s).bank.lfoRes = advanced s.bank.lfoRes := rfl
@[simp] theorem fltAdvance_panOsc (x : F64) : (fltAdvance x s).bank.pan = s.bank.pan := rfl
@[simp] theorem fltAdvance_pmod (x : F64) : (fltAdvance x s).bank.pmod = s.bank.pmod := rfl
@[simp] theorem fltAdvance_harm (x : F64) : (fltAdvance x s).bank.harm = s.bank.harm := rfl

/-! ### Oscillators -/

@[simp] theorem advanced_sr (o : Osc) : (advanced o).sr = o.sr := rfl
@[simp] theorem advanced_freq (o : Osc) : (advanced o).freq = o.freq := rfl
@[simp] theorem advanced_delta (o : Osc) : (advanced o).delta = o.delta := rfl
@[simp] theorem advanced_phase (o : Osc) : (advanced o).phase = nextPhase o := rfl
@[simp] theorem advanced_kind (o : Osc) : (advanced o).kind = o.kind := rfl
@[simp] theorem advanced_srv (o : Osc) : (advanced o).srv = o.srv := rfl
@[simp] theorem advanced_fqv (o : Osc) : (advanced o).fqv = o.fqv := rfl
@[simp] theorem rated_sr (sr : F64) (o : Osc) : (rated sr o).sr = sr := rfl
@[simp] theorem rated_freq (sr : F64) (o : Osc) : (rated sr o).freq = o.freq := rfl
@[simp] theorem rated_delta (sr : F64) (o : Osc) : (rated sr o).delta = o.delta := rfl
@[simp] theorem rated_phase (sr : F64) (o : Osc) : (rated sr o).phase = o.phase := rfl
@[simp] theorem rated_kind (sr : F64) (o : Osc) : (rated sr o).kind = o.kind := rfl
@[simp] theorem rated_srv (sr : F64) (o : Osc) : (rated sr o).srv = true := rfl
@[simp] theorem rated_fqv (sr : F64) (o : Osc) : (rated sr o).fqv = o.fqv := rfl
@[simp] theorem tuned_sr (f : F64) (o : Osc) : (tuned f o).sr = o.sr := rfl
@[simp] theorem tuned_freq (f : F64) (o : Osc) : (tuned f o).freq = f := rfl
@[simp] theorem tuned_delta (f : F64) (o : Osc) : (tuned f o).delta = fDiv f o.sr := rfl
@[simp] theorem tuned_phase (f : F64) (o : Osc) : (tuned f o).phase = o.phase := rfl
@[simp] theorem tuned_kind (f : F64) (o : Osc) : (tuned f o).kind = o.kind := rfl
@[simp] theorem tuned_srv (f : F64) (o : Osc) : (tuned f o).srv = o.srv := rfl
@[simp] theorem tuned_fqv (f : F64) (o : Osc) : (tuned f o).fqv = true := rfl
@[simp] theorem started_sr (sr f p : F64) (o : Osc) : (started sr f p o).sr = sr := rfl
@[simp] theorem started_freq (sr f p : F64) (o : Osc) : (started sr f p o).freq = f := rfl
@[simp] theorem started_delta (sr f p : F64) (o : Osc) : (started sr f p o).delta = fDiv f sr := rfl
@[simp] theorem started_phase (sr f p : F64) (o : Osc) : (started sr f p o).phase = p := rfl
@[simp] theorem started_kind (sr f p : F64) (o : Osc) : (started sr f p o).kind = o.kind := rfl
@[simp] theorem started_srv (sr f p : F64) (o : Osc) : (started sr f p o).srv = true := rfl
@[simp] theorem started_fqv (sr f p : F64) (o : Osc) : (started sr f p o).fqv = true := rfl
@[simp] theorem tuneHarm_sr (f : F64) (i : Nat) (o : Osc) : (tuneHarm f i o).sr = o.sr := by cases o; rfl
@[simp] theorem tuneHarm_freq (f : F64) (i : Nat) (o : Osc) : (tuneHarm f i o).freq = fMul (fOfNat (i + 1)) f := by cases o; rfl
@[simp] theorem tuneHarm_delta (f : F64) (i : Nat) (o : Osc) :
    (tuneHarm f i o).delta = fDiv (fMul (fOfNat (i + 1)) f) o.sr := by cases o; rfl
@[simp] theorem tuneHarm_phase (f : F64) (i : Nat) (o : Osc) : (tuneHarm f i o).phase = o.phase := by cases o; rfl
@[simp] theorem tuneHarm_kind (f : F64) (i : Nat) (o : Osc) : (tuneHarm f i o).kind = o.kind := by cases o; rfl
@[simp] theorem tuneHarm_srv (f : F64) (i : Nat) (o : Osc) : (tuneHarm f i o).srv = o.srv := by cases o; rfl
@[simp] theorem tuneHarm_fqv (f : F64) (i : Nat) (o : Osc) : (tuneHarm f i o).fqv = o.fqv := by cases o; rfl
@[simp] theorem createHarm_sr (sr : F64) (o : Osc) : (createHarm sr o).sr = sr := rfl
@[simp] theorem createHarm_phase (sr : F64) (o : Osc) : (createHarm sr o).phase = cZero := rfl
@[simp] theorem createHarm_kind (sr : F64) (o : Osc) : (createHarm sr o).kind = o.kind := rfl
@[simp] theorem createHarm_srv (sr : F64) (o : Osc) : (createHarm sr o).srv = true := rfl
@[simp] theorem createHarm_fqv (sr : F64) (o : Osc) : (createHarm sr o).fqv = true := rfl

/-! ### The random-source port -/

@[simp] theorem randDraw_cmd (p : Ports) : (randDraw p).2.cmd = p.cmd := by cases h : p.rand <;> simp [randDraw, h]
@[simp] theorem randDraw_resp (p : Ports) : (randDraw p).2.resp = p.resp := by cases h : p.rand <;> simp [randDraw, h]
@[simp] theorem randDraw_pin (p : Ports) : (randDraw p).2.pin = p.pin := by cases h : p.rand <;> simp [randDraw, h]
@[simp] theorem randDraw_drawn (p : Ports) : (randDraw p).2.drawn = p.drawn + 1 := by
  cases h : p.rand <;> simp [randDraw, h]

end Sys2Proof.Machine
end

