-- ==== Sys2Proof/Laws/Command.lean ====
section
/-! SUPPORT. What the shared command shape can do, said once: a command is rejected by its first failing check, or it
stops at an absent cell, or it is accepted. -/

namespace Sys2Proof.Machine

variable {w : Word} {gated : Bool} {checks : List (Bool × Cause)} {absent : Option Fault}
  {effect : State × List Word} {s t : State}

@[simp] theorem firstRaised_nil : firstRaised [] = none := rfl

@[simp] theorem firstRaised_cons (b : Bool) (c : Cause) (rest : List (Bool × Cause)) :
    firstRaised ((b, c) :: rest) = if b then some c else firstRaised rest := rfl

/-- No check raises exactly when none is violated. -/
theorem firstRaised_eq_none (l : List (Bool × Cause)) : firstRaised l = none ↔ ∀ p ∈ l, p.1 = false := by
  induction l with
  | nil => simp
  | cons p rest ih => obtain ⟨b, c⟩ := p; cases b <;> simp [ih]

/-- The cause raised is one of the checks', its condition violated. -/
theorem firstRaised_mem {l : List (Bool × Cause)} {c : Cause} (h : firstRaised l = some c) : (true, c) ∈ l := by
  induction l with
  | nil => simp at h
  | cons p rest ih =>
    obtain ⟨b, d⟩ := p
    cases b
    · exact List.mem_cons_of_mem _ (ih (by simpa using h))
    · simp_all

/-- The three things a command can do. -/
theorem runCommand_cases (w : Word) (gated : Bool) (checks : List (Bool × Cause)) (absent : Option Fault)
    (effect : State × List Word) (s : State) :
    (∃ c, runCommand w gated checks absent effect s = .next (reject c w s)) ∨
    (∃ f, absent = some f ∧ runCommand w gated checks absent effect s = .fault f) ∨
    (absent = none ∧ (gated && s.record.err) = false ∧ firstRaised checks = none ∧
      runCommand w gated checks absent effect s = .next (respondOk w effect.2 effect.1)) := by
  unfold runCommand
  by_cases hg : (gated && s.record.err) = true
  · exact .inl ⟨_, by rw [if_pos hg]⟩
  · rw [if_neg hg]
    cases hc : firstRaised checks with
    | some c => exact .inl ⟨c, rfl⟩
    | none =>
      cases ha : absent with
      | some f => exact .inr (.inl ⟨f, rfl, rfl⟩)
      | none => exact .inr (.inr ⟨rfl, by simpa using hg, rfl, rfl⟩)

/-- A command whose checks all pass and that reaches no absent cell is accepted. -/
theorem runCommand_accepts (hg : (gated && s.record.err) = false) (hc : firstRaised checks = none)
    (ha : absent = none) :
    runCommand w gated checks absent effect s = .next (respondOk w effect.2 effect.1) := by
  simp [runCommand, hg, hc, ha]

/-- A gated command while ERR = 1 (R135). -/
theorem runCommand_pending (hg : gated = true) (he : s.record.err = true) :
    runCommand w gated checks absent effect s = .next (reject .cmdErrPending w s) := by
  simp [runCommand, hg, he]

/-- A command with a violated check, when ERR does not block it (R136). -/
theorem runCommand_rejects {c : Cause} (hg : (gated && s.record.err) = false) (hc : firstRaised checks = some c) :
    runCommand w gated checks absent effect s = .next (reject c w s) := by
  simp [runCommand, hg, hc]

/-- If a command answers a next state, that is its rejection's or its effect's. -/
theorem runCommand_next (h : runCommand w gated checks absent effect s = .next t) :
    (∃ c, t = reject c w s) ∨
      ((gated && s.record.err) = false ∧ firstRaised checks = none ∧ absent = none ∧
        t = respondOk w effect.2 effect.1) := by
  rcases runCommand_cases w gated checks absent effect s with ⟨c, hc⟩ | ⟨f, -, hf⟩ | ⟨ha, hg, hc, he⟩
  · exact .inl ⟨c, by rw [hc] at h; exact (Host.Outcome.next.inj h).symm⟩
  · rw [hf] at h; cases h
  · exact .inr ⟨hg, hc, ha, by rw [he] at h; exact (Host.Outcome.next.inj h).symm⟩

/-- A rejection's response word carries REJ, an acceptance's does not: the two words differ. -/
theorem responseWord_rej_ne (w : Word) (c : BitVec 8) : responseWord w true c ≠ responseWord w false 0 := by
  have h : opcOf w < 2 ^ 8 := Nat.mod_lt _ (by decide)
  intro e
  have e' := congrArg BitVec.toNat e
  have hc := c.isLt
  have h0 : (0 : BitVec 8).toNat = 0 := rfl
  simp only [responseWord, BitVec.toNat_ofNat, if_true, Bool.false_eq_true, if_false, h0] at e'
  omega

end Sys2Proof.Machine
end

