-- ==== Sys2Proof/Laws/PerInstr.lean ====
section
/-! SUPPORT. Facts about every command as syntax, one lemma per constructor. Family `WordFields`: a command word names
its own row, carries RSV = 0, and its LEN is the number of operand words that follow it (R62, R63, R69). -/

namespace Sys2Proof.Laws.WordFields

/-- The OPC of each command (R69). -/
def opc : Instr → Nat
  | .nop => 0x00
  | .reset => 0x01
  | .clrErr => 0x02
  | .regRd _ => 0x03
  | .bufRd _ => 0x04
  | .oscSr _ _ => 0x10
  | .oscFreq _ _ => 0x11
  | .oscPhase _ _ => 0x12
  | .oscKind _ _ => 0x13
  | .oscStep _ => 0x14
  | .synSetup _ _ _ => 0x20
  | .synRetune _ => 0x21
  | .synStep => 0x22
  | .fltSetup _ _ _ _ _ _ => 0x30
  | .fltStep _ => 0x31
  | .dlySize _ => 0x40
  | .dlyTime _ => 0x41
  | .dlyFb _ => 0x42
  | .dlyStep _ => 0x43
  | .panSetup _ _ _ _ => 0x50
  | .panThr _ => 0x51
  | .panStep => 0x52
  | .mixGain _ => 0x60
  | .trgRange _ _ => 0x61
  | .process _ => 0x62

/-- The command word carries the row's OPC and RSV = 0, and LEN counts the operand words. -/
def Statement (i : Instr) : Prop :=
  opcOf (commandWord i) = opc i ∧ rsvOf (commandWord i) = 0 ∧ lenOf (commandWord i) = (operandWords i).length

theorem putField_lt (bits lo v : Nat) : putField bits lo v < 2 ^ (bits + lo) := by
  have h : v % 2 ^ bits < 2 ^ bits := Nat.mod_lt _ (Nat.two_pow_pos bits)
  rw [putField, Nat.pow_add, Nat.mul_comm]
  exact Nat.mul_lt_mul_of_pos_right h (Nat.two_pow_pos lo)

/-- A command whose word is its row's word plus an immediate below 2^16 has the row's OPC, RSV and LEN. -/
theorem of_row {i : Instr} {imm : Nat} (base : Nat) (hi : imm < 2 ^ 16)
    (he : commandWord i = BitVec.ofNat 32 (base + imm))
    (hb : base % 2 ^ 16 = 0 ∧ base < 2 ^ 32 ∧ base / 2 ^ 16 % 2 ^ 4 = 0) (ho : opc i = base / 2 ^ 24)
    (hl : (operandWords i).length = base / 2 ^ 20 % 2 ^ 4) : Statement i := by
  obtain ⟨h1, h2, h3⟩ := hb
  simp only [Statement, he, ho, hl, opcOf, rsvOf, lenOf, bitField, BitVec.toNat_ofNat]
  omega

/-- The immediate of a command with subfields stays within IMM16. -/
theorem imm8 (v : Nat) : putField 8 0 v < 2 ^ 16 := lt_of_lt_of_le (putField_lt 8 0 v) (by decide)

theorem imm7 (v : Nat) : putField 7 0 v < 2 ^ 16 := lt_of_lt_of_le (putField_lt 7 0 v) (by decide)

theorem imm16 (v : Nat) : putField 16 0 v < 2 ^ 16 := putField_lt 16 0 v

theorem imm_kind (osc k : Nat) : putField 8 0 osc + putField 2 8 k < 2 ^ 16 := by
  have := putField_lt 8 0 osc
  have := putField_lt 2 8 k
  omega

theorem imm_setup (note count : Nat) : putField 7 0 note + putField 8 8 count < 2 ^ 16 := by
  have h : note % 2 ^ 7 < 2 ^ 7 := Nat.mod_lt _ (by decide)
  have h' : count % 2 ^ 8 < 2 ^ 8 := Nat.mod_lt _ (by decide)
  simp only [putField]
  omega

theorem imm_range (lo hi : Nat) : putField 7 0 lo + putField 7 8 hi < 2 ^ 16 := by
  have := putField_lt 7 0 lo
  have := putField_lt 7 8 hi
  omega

theorem nop : Statement .nop :=
  of_row 0x00000000 (by decide : (0 : Nat) < 2 ^ 16) rfl (by decide) rfl rfl

theorem reset : Statement .reset :=
  of_row 0x01000000 (by decide : (0 : Nat) < 2 ^ 16) rfl (by decide) rfl rfl

theorem clrErr : Statement .clrErr :=
  of_row 0x02000000 (by decide : (0 : Nat) < 2 ^ 16) rfl (by decide) rfl rfl

theorem regRd (addr : Nat) : Statement (.regRd addr) :=
  of_row 0x03000000 (imm16 addr) rfl (by decide) rfl rfl

theorem bufRd (index : Int) : Statement (.bufRd index) :=
  of_row 0x04100000 (by decide : (0 : Nat) < 2 ^ 16) rfl (by decide) rfl rfl

theorem oscSr (osc : Nat) (sr : F64) : Statement (.oscSr osc sr) :=
  of_row 0x10200000 (imm8 osc) rfl (by decide) rfl
    (by simp [operandWords, realWords])

theorem oscFreq (osc : Nat) (f : F64) : Statement (.oscFreq osc f) :=
  of_row 0x11200000 (imm8 osc) rfl (by decide) rfl
    (by simp [operandWords, realWords])

theorem oscPhase (osc : Nat) (p : F64) : Statement (.oscPhase osc p) :=
  of_row 0x12200000 (imm8 osc) rfl (by decide) rfl
    (by simp [operandWords, realWords])

theorem oscKind (osc : Nat) (kind : WaveKind) : Statement (.oscKind osc kind) :=
  of_row 0x13000000 (imm_kind osc (kindCode kind)) rfl (by decide) rfl rfl

theorem oscStep (osc : Nat) : Statement (.oscStep osc) :=
  of_row 0x14000000 (imm8 osc) rfl (by decide) rfl rfl

theorem synSetup (count note : Nat) (sr : F64) : Statement (.synSetup count note sr) :=
  of_row 0x20200000 (imm_setup note count) rfl (by decide) rfl
    (by simp [operandWords, realWords])

theorem synRetune (note : Nat) : Statement (.synRetune note) :=
  of_row 0x21000000 (imm7 note) rfl (by decide) rfl rfl

theorem synStep : Statement .synStep :=
  of_row 0x22000000 (by decide : (0 : Nat) < 2 ^ 16) rfl (by decide) rfl rfl

theorem fltSetup (sr carrierF cutLfoF baseCut resLfoF baseRes : F64) : Statement (.fltSetup sr carrierF cutLfoF baseCut resLfoF baseRes) :=
  of_row 0x30C00000 (by decide : (0 : Nat) < 2 ^ 16) rfl (by decide) rfl
    (by simp [operandWords, realWords])

theorem fltStep (x : F64) : Statement (.fltStep x) :=
  of_row 0x31200000 (by decide : (0 : Nat) < 2 ^ 16) rfl (by decide) rfl
    (by simp [operandWords, realWords])

theorem dlySize (n : Int) : Statement (.dlySize n) :=
  of_row 0x40100000 (by decide : (0 : Nat) < 2 ^ 16) rfl (by decide) rfl rfl

theorem dlyTime (d : Int) : Statement (.dlyTime d) :=
  of_row 0x41100000 (by decide : (0 : Nat) < 2 ^ 16) rfl (by decide) rfl rfl

theorem dlyFb (f : F64) : Statement (.dlyFb f) :=
  of_row 0x42200000 (by decide : (0 : Nat) < 2 ^ 16) rfl (by decide) rfl
    (by simp [operandWords, realWords])

theorem dlyStep (x : F64) : Statement (.dlyStep x) :=
  of_row 0x43200000 (by decide : (0 : Nat) < 2 ^ 16) rfl (by decide) rfl
    (by simp [operandWords, realWords])

theorem panSetup (sr panF modF thr : F64) : Statement (.panSetup sr panF modF thr) :=
  of_row 0x50800000 (by decide : (0 : Nat) < 2 ^ 16) rfl (by decide) rfl
    (by simp [operandWords, realWords])

theorem panThr (t : F64) : Statement (.panThr t) :=
  of_row 0x51200000 (by decide : (0 : Nat) < 2 ^ 16) rfl (by decide) rfl
    (by simp [operandWords, realWords])

theorem panStep : Statement .panStep :=
  of_row 0x52000000 (by decide : (0 : Nat) < 2 ^ 16) rfl (by decide) rfl rfl

theorem mixGain (g : F64) : Statement (.mixGain g) :=
  of_row 0x60200000 (by decide : (0 : Nat) < 2 ^ 16) rfl (by decide) rfl
    (by simp [operandWords, realWords])

theorem trgRange (lo hi : Nat) : Statement (.trgRange lo hi) :=
  of_row 0x61000000 (imm_range lo hi) rfl (by decide) rfl rfl

theorem process (n : Nat) : Statement (.process n) :=
  of_row 0x62000000 (imm16 n) rfl (by decide) rfl rfl

/-- Every command's word names its row, carries RSV = 0, and counts its operand words. -/
theorem all (i : Instr) : Statement i := by
  cases i with
  | nop => exact nop
  | reset => exact reset
  | clrErr => exact clrErr
  | regRd a => exact regRd a
  | bufRd a => exact bufRd a
  | oscSr a b => exact oscSr a b
  | oscFreq a b => exact oscFreq a b
  | oscPhase a b => exact oscPhase a b
  | oscKind a b => exact oscKind a b
  | oscStep a => exact oscStep a
  | synSetup a b c => exact synSetup a b c
  | synRetune a => exact synRetune a
  | synStep => exact synStep
  | fltSetup a b c d e f => exact fltSetup a b c d e f
  | fltStep a => exact fltStep a
  | dlySize a => exact dlySize a
  | dlyTime a => exact dlyTime a
  | dlyFb a => exact dlyFb a
  | dlyStep a => exact dlyStep a
  | panSetup a b c d => exact panSetup a b c d
  | panThr a => exact panThr a
  | panStep => exact panStep
  | mixGain a => exact mixGain a
  | trgRange a b => exact trgRange a b
  | process a => exact process a

end Sys2Proof.Laws.WordFields
end

