-- ==== Sys2Proof/Laws/Decode.lean ====
section
/-! SUPPORT. Reading back what the encoder lays down: subfields, integer operands, real operands, port bytes; and the
row a command word matches. -/

namespace Sys2Proof

/-! ### Operands -/

@[simp] theorem joinWords_low_high (v : Word64) : joinWords (lowWord v) (highWord v) = v := by
  apply BitVec.eq_of_toNat_eq
  simp only [joinWords, lowWord, highWord, BitVec.toNat_ofNat]
  have := v.isLt
  omega

@[simp] theorem lowWord_joinWords (lo hi : Word) : lowWord (joinWords lo hi) = lo := by
  apply BitVec.eq_of_toNat_eq
  simp only [joinWords, lowWord, BitVec.toNat_ofNat]
  have := lo.isLt
  have := hi.isLt
  omega

@[simp] theorem highWord_joinWords (lo hi : Word) : highWord (joinWords lo hi) = hi := by
  apply BitVec.eq_of_toNat_eq
  simp only [joinWords, highWord, BitVec.toNat_ofNat]
  have := lo.isLt
  have := hi.isLt
  omega

theorem realWords_joinWords (lo hi : Word) : realWords (joinWords lo hi) = [lo, hi] := by simp [realWords]

/-- An integer operand that fits its word is read back (R66). -/
theorem s32_intWord {i : Int} (h : fitsS32 i = true) : s32 (intWord i) = i := by
  simp only [fitsS32, Bool.and_eq_true, decide_eq_true_eq] at h
  simp only [s32, intWord, BitVec.toNat_ofInt]
  split <;> omega

@[simp] theorem intWord_s32 (w : Word) : intWord (s32 w) = w := by
  apply BitVec.eq_of_toNat_eq
  have := w.isLt
  simp only [s32, intWord, BitVec.toNat_ofInt]
  split <;> omega

/-- Every word is the reading of an integer that fits. -/
theorem fitsS32_s32 (w : Word) : fitsS32 (s32 w) = true := by
  have := w.isLt
  rw [fitsS32, Bool.and_eq_true, decide_eq_true_eq, decide_eq_true_eq, s32]
  split <;> omega

@[simp] theorem kindOfNat_kindCode (k : WaveKind) : kindOfNat (kindCode k) = k := by cases k <;> rfl

theorem kindCode_kindOfNat {n : Nat} (h : n < 4) : kindCode (kindOfNat n) = n := by
  match n, h with
  | 0, _ => rfl
  | 1, _ => rfl
  | 2, _ => rfl
  | 3, _ => rfl

theorem kindCode_lt (k : WaveKind) : kindCode k < 4 := by cases k <;> decide

/-! ### Rows -/

/-- A row that accepts a word has the word's OPC and LEN, since its mask covers them. -/
theorem accepts_bits {r : Row} {w : Word} (h : r.accepts w = true) : w &&& r.mask = r.word := by
  simpa [Row.accepts] using h

/-- Every row's mask covers OPC, LEN and RSV, and its word carries its own LEN. -/
theorem rows_masks : ∀ r ∈ rows, r.mask &&& 0xFFFF0000#32 = 0xFFFF0000#32 ∧ lenOf r.word = r.len ∧
    rsvOf r.word = 0 := by decide

/-- The upper half of a word is decided by a row that accepts it. -/
theorem upper_of_accepts {r : Row} {w : Word} (hr : r ∈ rows) (h : r.accepts w = true) :
    w.toNat / 2 ^ 16 = r.word.toNat / 2 ^ 16 := by
  have hm := (rows_masks r hr).1
  have hw := accepts_bits h
  have e : w &&& 0xFFFF0000#32 = r.word &&& 0xFFFF0000#32 := by
    rw [← hw, BitVec.and_assoc, hm]
  have e' : w >>> 16 = r.word >>> 16 := by
    ext i hi
    have := congrArg (fun x : BitVec 32 => x.getLsbD (16 + i)) e
    simp only [BitVec.getLsbD_and] at this
    simp only [BitVec.getElem_ushiftRight]
    by_cases h16 : 16 + i < 32
    · have hb : (0xFFFF0000#32).getLsbD (16 + i) = true := by
        have : i < 16 := by omega
        interval_cases i <;> decide
      simpa [hb] using this
    · rw [BitVec.getLsbD_of_ge _ _ (by omega), BitVec.getLsbD_of_ge _ _ (by omega)]
  have := congrArg BitVec.toNat e'
  simpa [BitVec.toNat_ushiftRight, Nat.shiftRight_eq_div_pow] using this

theorem opcOf_of_accepts {r : Row} {w : Word} (hr : r ∈ rows) (h : r.accepts w = true) : opcOf w = opcOf r.word := by
  have := upper_of_accepts hr h
  simp only [opcOf, bitField]
  omega

theorem lenOf_of_accepts {r : Row} {w : Word} (hr : r ∈ rows) (h : r.accepts w = true) : lenOf w = r.len := by
  have := upper_of_accepts hr h
  rw [← (rows_masks r hr).2.1]
  simp only [lenOf, bitField]
  omega

/-- The rows fix OPC to different values (R70). -/
theorem rows_opc_nodup : (rows.map fun r => opcOf r.word).Nodup := by decide

theorem eq_of_opcOf_eq {r q : Row} (hr : r ∈ rows) (hq : q ∈ rows) (h : opcOf r.word = opcOf q.word) : r = q :=
  List.inj_on_of_nodup_map rows_opc_nodup hr hq h

/-- The row that accepts a word is the row the decoder finds. -/
theorem rowOf_of_accepts {r : Row} {w : Word} (hr : r ∈ rows) (h : r.accepts w = true) : rowOf w = some r := by
  cases hq : rowOf w with
  | none =>
    have := List.find?_eq_none.1 hq r hr
    exact absurd h (by simpa using this)
  | some q =>
    have hqm : q ∈ rows := List.mem_of_find?_eq_some hq
    have hqa : q.accepts w = true := by simpa using List.find?_some hq
    rw [eq_of_opcOf_eq hqm hr ((opcOf_of_accepts hqm hqa).symm.trans (opcOf_of_accepts hr h))]

/-- A word a row accepts, with the row's operand words, decodes to what the row builds. -/
theorem decode_of_accepts {r : Row} {w : Word} {ops : List Word} (hr : r ∈ rows) (h : r.accepts w = true)
    (hl : ops.length = r.len) : decode w ops = .ok (r.build w ops) := by
  simp [decode, rowOf_of_accepts hr h, hl]

/-- Masking a word, bit by bit. -/
theorem and_eq_of_bits {w mask word : Word}
    (h : ∀ i, i < 32 → (mask.getLsbD i = true → w.toNat / 2 ^ i % 2 = word.toNat / 2 ^ i % 2) ∧
      (mask.getLsbD i = false → word.getLsbD i = false)) : w &&& mask = word := by
  ext i hi
  obtain ⟨h1, h2⟩ := h i hi
  rw [← BitVec.getLsbD_eq_getElem, ← BitVec.getLsbD_eq_getElem, BitVec.getLsbD_and]
  cases hm : mask.getLsbD i
  · rw [h2 hm, Bool.and_false]
  · rw [Bool.and_true]
    have := h1 hm
    simp only [BitVec.getLsbD, Nat.testBit_eq_decide_div_mod_eq, this]

/-- A word that decodes has exactly the operand words its LEN counts. -/
theorem decode_ok_row {w : Word} {ops : List Word} {i : Instr} (h : decode w ops = .ok i) :
    ∃ r ∈ rows, r.accepts w = true ∧ rowOf w = some r ∧ ops.length = r.len ∧ i = r.build w ops := by
  unfold decode at h
  cases hr : rowOf w with
  | none => rw [hr] at h; cases h
  | some r =>
    rw [hr] at h
    dsimp only at h
    split at h
    · rename_i hl
      exact ⟨r, List.mem_of_find?_eq_some hr, by simpa using List.find?_some hr, rfl, hl, (Except.ok.inj h).symm⟩
    · cases h

theorem length_of_decode_ok {w : Word} {ops : List Word} {i : Instr} (h : decode w ops = .ok i) :
    ops.length = lenOf w := by
  obtain ⟨r, hr, ha, -, hl, -⟩ := decode_ok_row h
  rw [hl, lenOf_of_accepts hr ha]

/-- Masking with the bits from `k` up. -/
theorem and_eq_of_high {w mask word : Word} (k : Nat) (hm : ∀ i, i < 32 → mask.getLsbD i = decide (k ≤ i))
    (hw : word.toNat % 2 ^ k = 0) (h : w.toNat / 2 ^ k = word.toNat / 2 ^ k) : w &&& mask = word := by
  apply and_eq_of_bits
  intro i hi
  rw [hm i hi]
  refine ⟨fun hk => ?_, fun hk => ?_⟩
  · obtain ⟨j, rfl⟩ := Nat.exists_eq_add_of_le (of_decide_eq_true hk)
    rw [Nat.pow_add, ← Nat.div_div_eq_div_mul, ← Nat.div_div_eq_div_mul, h]
  · have hki : i < k := by simpa using hk
    obtain ⟨q, hq⟩ := Nat.dvd_of_mod_eq_zero hw
    simp only [BitVec.getLsbD, hq, Nat.testBit_two_pow_mul]
    simp [Nat.not_le.2 hki]

/-- Bit by bit, what masking says of a word. -/
theorem bit_of_and {w mask word : Word} (h : w &&& mask = word) (i : Nat) (hm : mask.getLsbD i = true) :
    w.toNat / 2 ^ i % 2 = word.toNat / 2 ^ i % 2 := by
  have e : w.getLsbD i = word.getLsbD i := by rw [← h, BitVec.getLsbD_and, hm, Bool.and_true]
  simp only [BitVec.getLsbD, Nat.testBit_eq_decide_div_mod_eq, decide_eq_decide] at e
  omega

/-- The bits from `k` up, where the mask covers them. -/
theorem high_of_and {w mask word : Word} (k : Nat) (h : w &&& mask = word)
    (hm : ∀ i, i < 32 → k ≤ i → mask.getLsbD i = true) : w.toNat / 2 ^ k = word.toNat / 2 ^ k := by
  apply Nat.eq_of_testBit_eq
  intro j
  rw [Nat.testBit_div_two_pow, Nat.testBit_div_two_pow]
  by_cases hj : j + k < 32
  · have e : w.getLsbD (j + k) = word.getLsbD (j + k) := by
      rw [← h, BitVec.getLsbD_and, hm (j + k) hj (Nat.le_add_left _ _), Bool.and_true]
    exact e
  · have lift : ∀ x : Word, x.toNat.testBit (j + k) = false := fun x =>
      Nat.testBit_lt_two_pow (lt_of_lt_of_le x.isLt (Nat.pow_le_pow_right (by decide) (by omega)))
    rw [lift, lift]

/-- A mask of all ones leaves the word. -/
theorem eq_of_and_ones {w word : Word} (h : w &&& 0xFFFFFFFF#32 = word) : w = word := by
  have := high_of_and 0 h (by decide)
  exact BitVec.eq_of_toNat_eq (by simpa using this)

open Laws.WordFields in
/-- The row of each command accepts its word, and builds it back where every operand fits. -/
theorem commandWord_accepts (i : Instr) :
    ∃ r ∈ rows, r.accepts (commandWord i) = true ∧ r.len = (operandWords i).length ∧
      (i.wellFormed = true → r.build (commandWord i) (operandWords i) = i) := by
  cases i with
  | nop =>
    refine ⟨_, List.mem_of_getElem? (i := 0) rfl, ?_, rfl, ?_⟩
    · show Row.accepts _ 0x00000000#32 = true
      decide
    · intro _
      rfl
  | reset =>
    refine ⟨_, List.mem_of_getElem? (i := 1) rfl, ?_, rfl, ?_⟩
    · show Row.accepts _ 0x01000000#32 = true
      decide
    · intro _
      rfl
  | clrErr =>
    refine ⟨_, List.mem_of_getElem? (i := 2) rfl, ?_, rfl, ?_⟩
    · show Row.accepts _ 0x02000000#32 = true
      decide
    · intro _
      rfl
  | regRd addr =>
    refine ⟨_, List.mem_of_getElem? (i := 3) rfl, ?_, rfl, ?_⟩
    · refine beq_iff_eq.2 (and_eq_of_high 16 (by decide) (by decide) ?_)
      simp only [commandWord, putField, BitVec.toNat_ofNat]
      omega
    · intro h
      simp only [Instr.wellFormed, fitsBits, decide_eq_true_eq] at h
      simp only [commandWord, bitField, putField, BitVec.toNat_ofNat, Instr.regRd.injEq]
      omega
  | bufRd index =>
    refine ⟨_, List.mem_of_getElem? (i := 4) rfl, ?_, rfl, ?_⟩
    · show Row.accepts _ 0x04100000#32 = true
      decide
    · intro h
      exact congrArg Instr.bufRd (s32_intWord h)
  | oscSr osc sr =>
    refine ⟨_, List.mem_of_getElem? (i := 5) rfl, ?_, by simp [operandWords, realWords], ?_⟩
    · refine beq_iff_eq.2 (and_eq_of_high 8 (by decide) (by decide) ?_)
      simp only [commandWord, putField, BitVec.toNat_ofNat]
      omega
    · intro h
      simp only [Instr.wellFormed, fitsBits, decide_eq_true_eq] at h
      simp only [operandWords, realWords, realAt, List.getD_cons_zero, List.getD_cons_succ, joinWords_low_high,
        commandWord, bitField, putField, BitVec.toNat_ofNat, Instr.oscSr.injEq, and_true]
      omega
  | oscFreq osc f =>
    refine ⟨_, List.mem_of_getElem? (i := 6) rfl, ?_, by simp [operandWords, realWords], ?_⟩
    · refine beq_iff_eq.2 (and_eq_of_high 8 (by decide) (by decide) ?_)
      simp only [commandWord, putField, BitVec.toNat_ofNat]
      omega
    · intro h
      simp only [Instr.wellFormed, fitsBits, decide_eq_true_eq] at h
      simp only [operandWords, realWords, realAt, List.getD_cons_zero, List.getD_cons_succ, joinWords_low_high,
        commandWord, bitField, putField, BitVec.toNat_ofNat, Instr.oscFreq.injEq, and_true]
      omega
  | oscPhase osc p =>
    refine ⟨_, List.mem_of_getElem? (i := 7) rfl, ?_, by simp [operandWords, realWords], ?_⟩
    · refine beq_iff_eq.2 (and_eq_of_high 8 (by decide) (by decide) ?_)
      simp only [commandWord, putField, BitVec.toNat_ofNat]
      omega
    · intro h
      simp only [Instr.wellFormed, fitsBits, decide_eq_true_eq] at h
      simp only [operandWords, realWords, realAt, List.getD_cons_zero, List.getD_cons_succ, joinWords_low_high,
        commandWord, bitField, putField, BitVec.toNat_ofNat, Instr.oscPhase.injEq, and_true]
      omega
  | oscKind osc kind =>
    refine ⟨_, List.mem_of_getElem? (i := 8) rfl, ?_, rfl, ?_⟩
    · refine beq_iff_eq.2 (and_eq_of_high 10 (by decide) (by decide) ?_)
      simp only [commandWord, putField, BitVec.toNat_ofNat]
      omega
    · intro h
      simp only [Instr.wellFormed, fitsBits, decide_eq_true_eq] at h
      have hk := kindCode_lt kind
      have h1 : bitField (commandWord (.oscKind osc kind)) 7 0 = osc := by
        simp only [commandWord, bitField, putField, BitVec.toNat_ofNat]
        omega
      have h2 : bitField (commandWord (.oscKind osc kind)) 9 8 = kindCode kind := by
        simp only [commandWord, bitField, putField, BitVec.toNat_ofNat]
        omega
      simp only [h1, h2, kindOfNat_kindCode]
  | oscStep osc =>
    refine ⟨_, List.mem_of_getElem? (i := 9) rfl, ?_, rfl, ?_⟩
    · refine beq_iff_eq.2 (and_eq_of_high 8 (by decide) (by decide) ?_)
      simp only [commandWord, putField, BitVec.toNat_ofNat]
      omega
    · intro h
      simp only [Instr.wellFormed, fitsBits, decide_eq_true_eq] at h
      simp only [commandWord, bitField, putField, BitVec.toNat_ofNat, Instr.oscStep.injEq]
      omega
  | synSetup count note sr =>
    refine ⟨_, List.mem_of_getElem? (i := 10) rfl, ?_, by simp [operandWords, realWords], ?_⟩
    · simp only [Row.accepts, beq_iff_eq, commandWord]
      apply and_eq_of_bits
      intro i hi
      simp only [BitVec.toNat_ofNat, putField]
      interval_cases i <;> simp (config := {decide := true}) <;> omega
    · intro h
      simp only [Instr.wellFormed, fitsBits, Bool.and_eq_true, decide_eq_true_eq] at h
      simp only [operandWords, realWords, realAt, List.getD_cons_zero, List.getD_cons_succ, joinWords_low_high,
        commandWord, bitField, putField, BitVec.toNat_ofNat, Instr.synSetup.injEq, and_true]
      omega
  | synRetune note =>
    refine ⟨_, List.mem_of_getElem? (i := 11) rfl, ?_, rfl, ?_⟩
    · refine beq_iff_eq.2 (and_eq_of_high 7 (by decide) (by decide) ?_)
      simp only [commandWord, putField, BitVec.toNat_ofNat]
      omega
    · intro h
      simp only [Instr.wellFormed, fitsBits, decide_eq_true_eq] at h
      simp only [commandWord, bitField, putField, BitVec.toNat_ofNat, Instr.synRetune.injEq]
      omega
  | synStep =>
    refine ⟨_, List.mem_of_getElem? (i := 12) rfl, ?_, rfl, ?_⟩
    · show Row.accepts _ 0x22000000#32 = true
      decide
    · intro _
      rfl
  | fltSetup a b c d e f =>
    refine ⟨_, List.mem_of_getElem? (i := 13) rfl, ?_, by simp [operandWords, realWords], ?_⟩
    · show Row.accepts _ 0x30C00000#32 = true
      decide
    · intro _
      simp [operandWords, realWords, realAt]
  | fltStep x =>
    refine ⟨_, List.mem_of_getElem? (i := 14) rfl, ?_, by simp [operandWords, realWords], ?_⟩
    · show Row.accepts _ 0x31200000#32 = true
      decide
    · intro _
      simp [operandWords, realWords, realAt]
  | dlySize n =>
    refine ⟨_, List.mem_of_getElem? (i := 15) rfl, ?_, rfl, ?_⟩
    · show Row.accepts _ 0x40100000#32 = true
      decide
    · intro h
      exact congrArg Instr.dlySize (s32_intWord h)
  | dlyTime d =>
    refine ⟨_, List.mem_of_getElem? (i := 16) rfl, ?_, rfl, ?_⟩
    · show Row.accepts _ 0x41100000#32 = true
      decide
    · intro h
      exact congrArg Instr.dlyTime (s32_intWord h)
  | dlyFb f =>
    refine ⟨_, List.mem_of_getElem? (i := 17) rfl, ?_, by simp [operandWords, realWords], ?_⟩
    · show Row.accepts _ 0x42200000#32 = true
      decide
    · intro _
      simp [operandWords, realWords, realAt]
  | dlyStep x =>
    refine ⟨_, List.mem_of_getElem? (i := 18) rfl, ?_, by simp [operandWords, realWords], ?_⟩
    · show Row.accepts _ 0x43200000#32 = true
      decide
    · intro _
      simp [operandWords, realWords, realAt]
  | panSetup a b c d =>
    refine ⟨_, List.mem_of_getElem? (i := 19) rfl, ?_, by simp [operandWords, realWords], ?_⟩
    · show Row.accepts _ 0x50800000#32 = true
      decide
    · intro _
      simp [operandWords, realWords, realAt]
  | panThr t =>
    refine ⟨_, List.mem_of_getElem? (i := 20) rfl, ?_, by simp [operandWords, realWords], ?_⟩
    · show Row.accepts _ 0x51200000#32 = true
      decide
    · intro _
      simp [operandWords, realWords, realAt]
  | panStep =>
    refine ⟨_, List.mem_of_getElem? (i := 21) rfl, ?_, rfl, ?_⟩
    · show Row.accepts _ 0x52000000#32 = true
      decide
    · intro _
      rfl
  | mixGain g =>
    refine ⟨_, List.mem_of_getElem? (i := 22) rfl, ?_, by simp [operandWords, realWords], ?_⟩
    · show Row.accepts _ 0x60200000#32 = true
      decide
    · intro _
      simp [operandWords, realWords, realAt]
  | trgRange lo hi =>
    refine ⟨_, List.mem_of_getElem? (i := 23) rfl, ?_, rfl, ?_⟩
    · simp only [Row.accepts, beq_iff_eq, commandWord]
      apply and_eq_of_bits
      intro i hi
      simp only [BitVec.toNat_ofNat, putField]
      interval_cases i <;> simp (config := {decide := true}) <;> omega
    · intro h
      simp only [Instr.wellFormed, fitsBits, Bool.and_eq_true, decide_eq_true_eq] at h
      simp only [commandWord, bitField, putField, BitVec.toNat_ofNat, Instr.trgRange.injEq]
      omega
  | process n =>
    refine ⟨_, List.mem_of_getElem? (i := 24) rfl, ?_, rfl, ?_⟩
    · refine beq_iff_eq.2 (and_eq_of_high 16 (by decide) (by decide) ?_)
      simp only [commandWord, putField, BitVec.toNat_ofNat]
      omega
    · intro h
      simp only [Instr.wellFormed, fitsBits, decide_eq_true_eq] at h
      simp only [commandWord, bitField, putField, BitVec.toNat_ofNat, Instr.process.injEq]
      omega

/-- A field of a word fits its own width. -/
theorem fits_bitField (w : Word) (hi lo : Nat) : fitsBits (hi + 1 - lo) (bitField w hi lo) = true :=
  decide_eq_true (Nat.mod_lt _ (Nat.two_pow_pos _))

/-- What a row builds of a word it accepts is well-formed, and that word and those operands are its encoding. -/
theorem encode_build {r : Row} {w : Word} {ops : List Word} (hr : r ∈ rows) (ha : r.accepts w = true)
    (hl : ops.length = r.len) :
    (r.build w ops).wellFormed = true ∧ commandWord (r.build w ops) = w ∧ operandWords (r.build w ops) = ops := by
  have hw := accepts_bits ha
  have hlt := w.isLt
  simp only [rows, systemRows, oscillatorRows, synthRows, filterRows, delayRows, pannerRows, pipelineRows,
    List.cons_append, List.nil_append, List.mem_cons, List.not_mem_nil, or_false] at hr
  clear ha
  repeat' rcases hr with rfl | hr
  · -- nop
    have hw' := eq_of_and_ones hw
    exact ⟨rfl, hw'.symm, (List.eq_nil_of_length_eq_zero hl).symm⟩
  · -- reset
    have hw' := eq_of_and_ones hw
    exact ⟨rfl, hw'.symm, (List.eq_nil_of_length_eq_zero hl).symm⟩
  · -- clrErr
    have hw' := eq_of_and_ones hw
    exact ⟨rfl, hw'.symm, (List.eq_nil_of_length_eq_zero hl).symm⟩
  · -- regRd
    have hh := high_of_and 16 hw (by decide)
    simp only [BitVec.toNat_ofNat] at hh
    refine ⟨?_, BitVec.eq_of_toNat_eq ?_, ?_⟩
    · exact fits_bitField w 15 0
    · simp only [commandWord, putField, bitField, BitVec.toNat_ofNat]
      omega
    · exact (List.eq_nil_of_length_eq_zero hl).symm
  · -- bufRd
    have hw' := eq_of_and_ones hw
    refine ⟨fitsS32_s32 _, hw'.symm, ?_⟩
    match ops, hl with
    | [x0], _ => simp [operandWords, intAt]
  · -- oscSr
    have hh := high_of_and 8 hw (by decide)
    simp only [BitVec.toNat_ofNat] at hh
    refine ⟨?_, BitVec.eq_of_toNat_eq ?_, ?_⟩
    · exact fits_bitField w 7 0
    · simp only [commandWord, putField, bitField, BitVec.toNat_ofNat]
      omega
    · match ops, hl with
      | [a, b], _ => simp [operandWords, realAt, realWords]
  · -- oscFreq
    have hh := high_of_and 8 hw (by decide)
    simp only [BitVec.toNat_ofNat] at hh
    refine ⟨?_, BitVec.eq_of_toNat_eq ?_, ?_⟩
    · exact fits_bitField w 7 0
    · simp only [commandWord, putField, bitField, BitVec.toNat_ofNat]
      omega
    · match ops, hl with
      | [a, b], _ => simp [operandWords, realAt, realWords]
  · -- oscPhase
    have hh := high_of_and 8 hw (by decide)
    simp only [BitVec.toNat_ofNat] at hh
    refine ⟨?_, BitVec.eq_of_toNat_eq ?_, ?_⟩
    · exact fits_bitField w 7 0
    · simp only [commandWord, putField, bitField, BitVec.toNat_ofNat]
      omega
    · match ops, hl with
      | [a, b], _ => simp [operandWords, realAt, realWords]
  · -- oscKind
    have hh := high_of_and 10 hw (by decide)
    simp only [BitVec.toNat_ofNat] at hh
    have hk := kindCode_kindOfNat (n := bitField w 9 8) (Nat.mod_lt _ (by decide))
    refine ⟨?_, BitVec.eq_of_toNat_eq ?_, ?_⟩
    · exact fits_bitField w 7 0
    · simp only [commandWord, hk, putField, BitVec.toNat_ofNat]
      simp only [bitField]
      omega
    · exact (List.eq_nil_of_length_eq_zero hl).symm
  · -- oscStep
    have hh := high_of_and 8 hw (by decide)
    simp only [BitVec.toNat_ofNat] at hh
    refine ⟨?_, BitVec.eq_of_toNat_eq ?_, ?_⟩
    · exact fits_bitField w 7 0
    · simp only [commandWord, putField, bitField, BitVec.toNat_ofNat]
      omega
    · exact (List.eq_nil_of_length_eq_zero hl).symm
  · -- synSetup
    have hh := high_of_and 16 hw (by decide)
    have h7 := bit_of_and hw 7 (by decide)
    simp only [BitVec.toNat_ofNat] at hh h7
    refine ⟨?_, BitVec.eq_of_toNat_eq ?_, ?_⟩
    · exact Bool.and_eq_true _ _ |>.mpr ⟨fits_bitField w 15 8, fits_bitField w 6 0⟩
    · simp only [commandWord, putField, bitField, BitVec.toNat_ofNat]
      omega
    · match ops, hl with
      | [a, b], _ => simp [operandWords, realAt, realWords]
  · -- synRetune
    have hh := high_of_and 7 hw (by decide)
    simp only [BitVec.toNat_ofNat] at hh
    refine ⟨?_, BitVec.eq_of_toNat_eq ?_, ?_⟩
    · exact fits_bitField w 6 0
    · simp only [commandWord, putField, bitField, BitVec.toNat_ofNat]
      omega
    · exact (List.eq_nil_of_length_eq_zero hl).symm
  · -- synStep
    have hw' := eq_of_and_ones hw
    exact ⟨rfl, hw'.symm, (List.eq_nil_of_length_eq_zero hl).symm⟩
  · -- fltSetup
    have hw' := eq_of_and_ones hw
    refine ⟨rfl, hw'.symm, ?_⟩
    match ops, hl with
    | [x0, x1, x2, x3, x4, x5, x6, x7, x8, x9, x10, x11], _ => simp [operandWords, realAt, realWords]
  · -- fltStep
    have hw' := eq_of_and_ones hw
    refine ⟨rfl, hw'.symm, ?_⟩
    match ops, hl with
    | [x0, x1], _ => simp [operandWords, realAt, realWords]
  · -- dlySize
    have hw' := eq_of_and_ones hw
    refine ⟨fitsS32_s32 _, hw'.symm, ?_⟩
    match ops, hl with
    | [x0], _ => simp [operandWords, intAt]
  · -- dlyTime
    have hw' := eq_of_and_ones hw
    refine ⟨fitsS32_s32 _, hw'.symm, ?_⟩
    match ops, hl with
    | [x0], _ => simp [operandWords, intAt]
  · -- dlyFb
    have hw' := eq_of_and_ones hw
    refine ⟨rfl, hw'.symm, ?_⟩
    match ops, hl with
    | [x0, x1], _ => simp [operandWords, realAt, realWords]
  · -- dlyStep
    have hw' := eq_of_and_ones hw
    refine ⟨rfl, hw'.symm, ?_⟩
    match ops, hl with
    | [x0, x1], _ => simp [operandWords, realAt, realWords]
  · -- panSetup
    have hw' := eq_of_and_ones hw
    refine ⟨rfl, hw'.symm, ?_⟩
    match ops, hl with
    | [x0, x1, x2, x3, x4, x5, x6, x7], _ => simp [operandWords, realAt, realWords]
  · -- panThr
    have hw' := eq_of_and_ones hw
    refine ⟨rfl, hw'.symm, ?_⟩
    match ops, hl with
    | [x0, x1], _ => simp [operandWords, realAt, realWords]
  · -- panStep
    have hw' := eq_of_and_ones hw
    exact ⟨rfl, hw'.symm, (List.eq_nil_of_length_eq_zero hl).symm⟩
  · -- mixGain
    have hw' := eq_of_and_ones hw
    refine ⟨rfl, hw'.symm, ?_⟩
    match ops, hl with
    | [x0, x1], _ => simp [operandWords, realAt, realWords]
  · -- trgRange
    have hh := high_of_and 16 hw (by decide)
    have h7 := bit_of_and hw 7 (by decide)
    have h15 := bit_of_and hw 15 (by decide)
    simp only [BitVec.toNat_ofNat] at hh h7 h15
    refine ⟨?_, BitVec.eq_of_toNat_eq ?_, ?_⟩
    · exact Bool.and_eq_true _ _ |>.mpr ⟨fits_bitField w 6 0, fits_bitField w 14 8⟩
    · simp only [commandWord, putField, bitField, BitVec.toNat_ofNat]
      omega
    · exact (List.eq_nil_of_length_eq_zero hl).symm
  · -- process
    have hh := high_of_and 16 hw (by decide)
    simp only [BitVec.toNat_ofNat] at hh
    refine ⟨?_, BitVec.eq_of_toNat_eq ?_, ?_⟩
    · exact fits_bitField w 15 0
    · simp only [commandWord, putField, bitField, BitVec.toNat_ofNat]
      omega
    · exact (List.eq_nil_of_length_eq_zero hl).symm

/-- The bits of IMM16. -/
theorem testBit_imm (w : Word) (j : Nat) : (bitField w 15 0).testBit j = (decide (j < 16) && w.getLsbD j) := by
  show (w.toNat / 2 ^ 0 % 2 ^ 16).testBit j = _
  rw [pow_zero, Nat.div_one, Nat.testBit_mod_two_pow]
  rfl

/-- A row accepts exactly the words with its OPC, its LEN, RSV = 0 and no reserved immediate bit set (R69, R71). -/
theorem accepts_iff {r : Row} (hr : r ∈ rows) (w : Word) : r.accepts w = true ↔
    opcOf w = opcOf r.word ∧ lenOf w = r.len ∧ rsvOf w = 0 ∧
      bitField w 15 0 &&& (~~~r.mask).toNat = bitField w 15 0 := by
  have hm := rows_masks r hr
  have hlow : r.word.toNat % 2^16 = 0 := by
    have : ∀ r ∈ rows, r.word.toNat % 2^16 = 0 := by
      intro r hr
      have := List.all_eq_true.1
        (by decide : rows.all (fun r => decide (r.word.toNat % 2 ^ 16 = 0)) = true) r hr
      simpa using this
    exact this r hr
  constructor
  · intro h
    have hu := upper_of_accepts hr h
    refine ⟨opcOf_of_accepts hr h, lenOf_of_accepts hr h, ?_, ?_⟩
    · have := hm.2.2; simp only [rsvOf, bitField] at *; omega
    · apply Nat.eq_of_testBit_eq
      intro j
      rw [Nat.testBit_and]
      by_cases hj : j < 16
      · have e : (w.getLsbD j && r.mask.getLsbD j) = false := by
          rw [← BitVec.getLsbD_and, accepts_bits h]
          have : r.word.toNat.testBit j = false := by
            obtain ⟨q, hq⟩ := Nat.dvd_of_mod_eq_zero hlow
            rw [hq, Nat.testBit_two_pow_mul]; simp [Nat.not_le.2 hj]
          exact this
        have b : (bitField w 15 0).testBit j = w.getLsbD j := by rw [testBit_imm, decide_eq_true hj, Bool.true_and]
        have c : (~~~r.mask).toNat.testBit j = !r.mask.getLsbD j := by
          show (~~~r.mask).getLsbD j = _
          rw [BitVec.getLsbD_not]; simp; omega
        rw [b, c]
        revert e; cases w.getLsbD j <;> cases r.mask.getLsbD j <;> simp
      · have : (bitField w 15 0).testBit j = false := by rw [testBit_imm, decide_eq_false hj, Bool.false_and]
        rw [this]; rfl
  · rintro ⟨h1, h2, h3, h4⟩
    refine beq_iff_eq.2 ?_
    apply BitVec.eq_of_getLsbD_eq
    intro j hj
    rw [BitVec.getLsbD_and]
    by_cases h16 : j < 16
    · have b : (bitField w 15 0).testBit j = w.getLsbD j := by rw [testBit_imm, decide_eq_true h16, Bool.true_and]
      have c : (~~~r.mask).toNat.testBit j = !r.mask.getLsbD j := by
        show (~~~r.mask).getLsbD j = _
        rw [BitVec.getLsbD_not]; simp; omega
      have e := congrArg (fun n => Nat.testBit n j) h4
      simp only [Nat.testBit_and, b, c] at e
      have : r.word.getLsbD j = false := by
        have : r.word.toNat.testBit j = false := by
            obtain ⟨q, hq⟩ := Nat.dvd_of_mod_eq_zero hlow
            rw [hq, Nat.testBit_two_pow_mul]; simp [Nat.not_le.2 h16]
        exact this
      rw [this]
      revert e; cases w.getLsbD j <;> cases r.mask.getLsbD j <;> simp
    · have hu : w.toNat / 2^16 = r.word.toNat / 2^16 := by
        have := hm.2.1; have := hm.2.2
        have := w.isLt; have := r.word.isLt
        simp only [opcOf, lenOf, rsvOf, bitField] at *
        omega
      have hmj : r.mask.getLsbD j = true := by
        have e := congrArg (fun x : Word => x.getLsbD j) hm.1
        simp only [BitVec.getLsbD_and] at e
        have : (0xFFFF0000#32).getLsbD j = true := by
          have : 16 ≤ j := by omega
          interval_cases j <;> decide
        rw [this] at e; simpa using e
      rw [hmj, Bool.and_true]
      obtain ⟨k, rfl⟩ := Nat.exists_eq_add_of_le (Nat.not_lt.1 h16)
      have e := congrArg (fun n => Nat.testBit n k) hu
      simp only [Nat.testBit_div_two_pow] at e
      rw [Nat.add_comm 16 k]
      exact e

/-! ### Framing -/

/-- A whole command at the head of the stream is split off (R63). -/
theorem splitCommand_append {w : Word} {ops rest : List Word} (h : ops.length = lenOf w) :
    splitCommand (w :: (ops ++ rest)) = some (w, ops, rest) := by
  simp only [splitCommand, List.length_append]
  rw [if_neg (by omega), ← h]
  simp

/-- What a split takes is the head of the stream (R63). -/
theorem splitCommand_some {ws ops rest : List Word} {w : Word} (h : splitCommand ws = some (w, ops, rest)) :
    ws = w :: (ops ++ rest) ∧ ops.length = lenOf w := by
  cases ws with
  | nil => cases h
  | cons v tl =>
    simp only [splitCommand] at h
    split at h
    · cases h
    · rename_i hlen
      obtain ⟨rfl, rfl, rfl⟩ : v = w ∧ tl.take (lenOf v) = ops ∧ tl.drop (lenOf v) = rest := by simpa using h
      exact ⟨by rw [List.take_append_drop], by rw [List.length_take]; omega⟩

/-- Fuel for every word is enough: each command takes at least one. -/
theorem wholeWithin_fuel {n m : Nat} {ws : List Word} (hn : ws.length ≤ n) (hm : ws.length ≤ m) :
    wholeWithin n ws = wholeWithin m ws := by
  induction n generalizing m ws with
  | zero =>
    obtain rfl := List.length_eq_zero_iff.1 (Nat.le_zero.1 hn)
    cases m <;> rfl
  | succ n ih =>
    cases hs : splitCommand ws with
    | none => cases m <;> simp only [wholeWithin, hs]
    | some p =>
      obtain ⟨w, ops, rest⟩ := p
      obtain ⟨rfl, -⟩ := splitCommand_some hs
      simp only [List.length_cons, List.length_append] at hn hm
      cases m with
      | zero => omega
      | succ m => simp only [wholeWithin, hs, ih (show rest.length ≤ n by omega) (show rest.length ≤ m by omega)]

/-- No whole command at the head: nothing is kept. -/
theorem wholeCommands_none {ws : List Word} (h : splitCommand ws = none) : wholeCommands ws = [] := by
  unfold wholeCommands
  cases ws.length <;> simp only [wholeWithin, h]

/-- A whole command at the head is kept, and then those behind it. -/
theorem wholeCommands_cons {w : Word} {ops : List Word} (h : ops.length = lenOf w) (rest : List Word) :
    wholeCommands (w :: (ops ++ rest)) = w :: (ops ++ wholeCommands rest) := by
  simp only [wholeCommands, List.length_cons, List.length_append, wholeWithin, splitCommand_append h]
  rw [wholeWithin_fuel (Nat.le_add_left _ _) (Nat.le_refl _)]

/-- What is kept takes no later word as an operand: the first word behind it is a command word. -/
theorem wholeCommands_append (ws more : List Word) :
    wholeCommands (wholeCommands ws ++ more) = wholeCommands ws ++ wholeCommands more := by
  induction hn : ws.length using Nat.strongRecOn generalizing ws with
  | ind n ih =>
    cases hs : splitCommand ws with
    | none => rw [wholeCommands_none hs, List.nil_append, List.nil_append]
    | some p =>
      obtain ⟨w, ops, rest⟩ := p
      obtain ⟨rfl, hl⟩ := splitCommand_some hs
      have hlt : rest.length < n := by
        rw [← hn, List.length_cons, List.length_append]
        omega
      rw [wholeCommands_cons hl, List.cons_append, List.append_assoc, wholeCommands_cons hl, ih _ hlt rest rfl,
        List.cons_append, List.append_assoc]

/-! ### Port bytes -/

@[simp] theorem wordsOfBytes_bytesOfWord (w : Word) (rest : List Byte) :
    wordsOfBytes (bytesOfWord w ++ rest) = w :: wordsOfBytes rest := by
  simp only [bytesOfWord, List.cons_append, List.nil_append, wordsOfBytes, List.cons.injEq, and_true]
  apply BitVec.eq_of_toNat_eq
  have := w.isLt
  simp only [BitVec.toNat_ofNat]
  omega

end Sys2Proof
end

