-- ==== Sys2Proof/Laws/Memory.lean ====
section
/-! SUPPORT. The delay buffer: a read after a write, and the canonical form every operation keeps. -/

namespace Sys2Proof.Machine

@[simp] theorem memRead_nil (i : Nat) : memRead [] i = cZero := rfl

@[simp] theorem memWf_nil : Memory.wf [] = true := rfl

theorem memWfFrom_cons {lo i : Nat} {v : F64} {rest : Memory} :
    memWfFrom lo ((i, v) :: rest) = true ↔ lo ≤ i ∧ v ≠ cZero ∧ memWfFrom (i + 1) rest = true := by
  simp [memWfFrom, memUnlisted, and_assoc]

/-- A canonical list from a bound is one from any lower bound. -/
theorem memWfFrom_mono {lo lo' : Nat} {m : Memory} (h : lo' ≤ lo) (hm : memWfFrom lo m = true) :
    memWfFrom lo' m = true := by
  cases m with
  | nil => rfl
  | cons c rest =>
    obtain ⟨i, v⟩ := c
    rw [memWfFrom_cons] at hm ⊢
    exact ⟨by omega, hm.2⟩

/-- Below the bound nothing is listed. -/
theorem memRead_below {lo i : Nat} {m : Memory} (hm : memWfFrom lo m = true) (h : i < lo) : memRead m i = cZero := by
  induction m generalizing lo with
  | nil => rfl
  | cons c rest ih =>
    obtain ⟨j, v⟩ := c
    rw [memWfFrom_cons] at hm
    have hj : j ≠ i := by omega
    simp only [memRead, hj, if_false]
    exact ih hm.2.2 (by omega)

/-- A write keeps the canonical form. -/
theorem memWfFrom_memWrite {lo i : Nat} {m : Memory} (v : F64) (hm : memWfFrom lo m = true) (h : lo ≤ i) :
    memWfFrom lo (memWrite m i v) = true := by
  induction m generalizing lo with
  | nil =>
    simp only [memWrite]
    split
    · rfl
    · rename_i hv
      exact memWfFrom_cons.2 ⟨h, hv, rfl⟩
  | cons c rest ih =>
    obtain ⟨j, u⟩ := c
    have hm' := memWfFrom_cons.1 hm
    simp only [memWrite]
    split
    · rename_i hij
      split
      · exact hm
      · rename_i hv
        exact memWfFrom_cons.2 ⟨h, hv, memWfFrom_cons.2 ⟨by omega, hm'.2⟩⟩
    · split
      · rename_i hij heq
        split
        · exact memWfFrom_mono (by omega) hm'.2.2
        · rename_i hv
          exact memWfFrom_cons.2 ⟨h, hv, heq ▸ hm'.2.2⟩
      · exact memWfFrom_cons.2 ⟨hm'.1, hm'.2.1, ih hm'.2.2 (by omega)⟩

/-- A write keeps the canonical form of the buffer. -/
theorem wf_memWrite {m : Memory} (hm : Memory.wf m = true) (i : Nat) (v : F64) :
    Memory.wf (memWrite m i v) = true := memWfFrom_memWrite v hm (Nat.zero_le i)

/-- Reading after a write, from any bound. -/
theorem memRead_memWrite_from {lo i : Nat} {m : Memory} (v : F64) (hm : memWfFrom lo m = true) (k : Nat) :
    memRead (memWrite m i v) k = if k = i then v else memRead m k := by
  induction m generalizing lo with
  | nil =>
    by_cases hv : v = memUnlisted
    · simp [memWrite, memRead, hv]; rfl
    · simp only [memWrite, hv, if_false, memRead]
      by_cases hk : i = k <;> simp [hk, eq_comm, memUnlisted]
  | cons c rest ih =>
    obtain ⟨j, u⟩ := c
    have hm' := memWfFrom_cons.1 hm
    simp only [memWrite]
    split
    · rename_i hij
      split
      · rename_i hv
        by_cases hk : k = i
        · subst hk
          rw [if_pos rfl, hv, memRead, if_neg (by omega)]
          exact memRead_below hm'.2.2 (by omega)
        · rw [if_neg hk]
      · rw [memRead]
        by_cases hk : k = i
        · subst hk; simp
        · rw [if_neg (fun h => hk h.symm), if_neg hk]
    · split
      · rename_i hij heq
        subst heq
        split
        · rename_i hv
          by_cases hk : k = i
          · subst hk
            rw [if_pos rfl, hv]
            exact memRead_below hm'.2.2 (by omega)
          · rw [if_neg hk, memRead, if_neg (fun h => hk h.symm)]
        · rw [memRead, memRead]
          by_cases hk : k = i
          · subst hk; simp
          · rw [if_neg (fun h => hk h.symm), if_neg hk, if_neg (fun h => hk h.symm)]
      · rename_i hij hne
        rw [memRead, memRead, ih hm'.2.2]
        by_cases hj : j = k
        · subst hj
          rw [if_pos rfl, if_neg (fun h => hne h.symm), if_pos rfl]
        · rw [if_neg hj, if_neg hj]

/-- Reading the cell just written gives the value written; every other cell reads as before. -/
theorem memRead_memWrite {m : Memory} (hm : Memory.wf m = true) (i : Nat) (v : F64) (k : Nat) :
    memRead (memWrite m i v) k = if k = i then v else memRead m k := memRead_memWrite_from v hm k

/-- A write leaves every other cell alone, whether the list is canonical or not. -/
theorem memRead_memWrite_other (m : Memory) (v : F64) {i k : Nat} (h : k ≠ i) :
    memRead (memWrite m i v) k = memRead m k := by
  induction m with
  | nil =>
    by_cases hv : v = memUnlisted
    · simp [memWrite, hv]
    · simp only [memWrite, hv, if_false, memRead]
      rw [if_neg (fun e => h e.symm)]
  | cons c rest ih =>
    obtain ⟨j, u⟩ := c
    simp only [memWrite]
    split
    · split
      · rfl
      · rw [memRead, if_neg (fun e => h e.symm)]
    · split
      · rename_i heq
        subst heq
        split
        · rw [memRead, if_neg (fun e => h e.symm)]
        · rw [memRead, memRead, if_neg (fun e => h e.symm), if_neg (fun e => h e.symm)]
      · rw [memRead, memRead, ih]

/-- Every listed cell after a write is one listed before, or the one written. -/
theorem mem_memWrite {m : Memory} {i : Nat} {v : F64} {c : Cell} (h : c ∈ memWrite m i v) : c ∈ m ∨ c = (i, v) := by
  induction m with
  | nil =>
    simp only [memWrite] at h
    split at h <;> simp_all
  | cons d rest ih =>
    obtain ⟨j, u⟩ := d
    simp only [memWrite] at h
    split at h
    · split at h
      · exact .inl h
      · rcases List.mem_cons.1 h with h | h
        · exact .inr h
        · exact .inl h
    · split at h
      · split at h
        · exact .inl (List.mem_cons_of_mem _ h)
        · rcases List.mem_cons.1 h with h | h
          · exact .inr h
          · exact .inl (List.mem_cons_of_mem _ h)
      · rcases List.mem_cons.1 h with h | h
        · exact .inl (h ▸ List.mem_cons_self)
        · rcases ih h with h | h
          · exact .inl (List.mem_cons_of_mem _ h)
          · exact .inr h

/-- No cell at or above a bound is listed after a write below it. -/
theorem present_memWrite {m : Memory} {n i : Nat} {v : F64} (hm : ∀ c ∈ m, c.1 < n) (hi : i < n) :
    ∀ c ∈ memWrite m i v, c.1 < n := by
  intro c hc
  rcases mem_memWrite hc with h | h
  · exact hm c h
  · subst h; exact hi

/-- Two canonical buffers that read alike everywhere are the same list. -/
theorem memWf_ext {m m' : Memory} (hm : Memory.wf m = true) (hm' : Memory.wf m' = true)
    (h : ∀ i, memRead m i = memRead m' i) : m = m' := by
  suffices H : ∀ (lo : Nat) (m m' : Memory), memWfFrom lo m = true → memWfFrom lo m' = true →
      (∀ i, memRead m i = memRead m' i) → m = m' from H 0 m m' hm hm' h
  clear h hm hm' m m'
  intro lo m
  induction m generalizing lo with
  | nil =>
    intro m' _ hm' h
    cases m' with
    | nil => rfl
    | cons c rest =>
      obtain ⟨j, v⟩ := c
      have := h j
      simp only [memRead, if_true] at this
      exact absurd this.symm (memWfFrom_cons.1 hm').2.1
  | cons c rest ih =>
    obtain ⟨j, v⟩ := c
    intro m' hm hm' h
    have h1 := memWfFrom_cons.1 hm
    cases m' with
    | nil =>
      have := h j
      simp only [memRead, if_true] at this
      exact absurd this h1.2.1
    | cons d rest' =>
      obtain ⟨k, u⟩ := d
      have h2 := memWfFrom_cons.1 hm'
      have hjk : j = k := by
        rcases Nat.lt_trichotomy j k with hlt | heq | hgt
        · have := h j
          rw [memRead, if_pos rfl, memRead, if_neg (by omega), memRead_below h2.2.2 (by omega)] at this
          exact absurd this h1.2.1
        · exact heq
        · have := h k
          rw [memRead, if_neg (by omega), memRead_below h1.2.2 (by omega), memRead, if_pos rfl] at this
          exact absurd this.symm h2.2.1
      subst hjk
      have hv : v = u := by simpa [memRead] using h j
      subst hv
      congr 1
      refine ih (j + 1) rest' h1.2.2 h2.2.2 fun i => ?_
      by_cases hi : j = i
      · subst hi
        rw [memRead_below h1.2.2 (by omega), memRead_below h2.2.2 (by omega)]
      · have := h i
        rwa [memRead, if_neg hi, memRead, if_neg hi] at this

end Sys2Proof.Machine
end

