-- ==== Sys2Proof/Laws/Exec.lean ====
section
/-! SUPPORT. What `exec` can do, said once: the checks, the absent cell and the effect of each command, the inversion of
a next state into a rejection or an effect, and what every effect leaves to the ports and the parameters. -/

namespace Sys2Proof.Machine

/-! ### The parts of each command -/

/-- The checks of each command, in order. -/
def checksOf : Instr → State → List (Bool × Cause)
  | .nop, _ => []
  | .reset, _ => []
  | .clrErr, _ => []
  | .regRd addr, s => [((readReg s addr).isNone, .cmdBadReg)]
  | .bufRd index, s => [(badIndex s index, .cmdBadIndex)]
  | .oscSr osc sr, _ => [(notPulse osc, .cmdBadOsc), (badRate sr, .cfgSampleRate)]
  | .oscFreq osc f, s =>
    [(notPulse osc, .cmdBadOsc), (!s.bank.pulse.srv, .cfgNoSampleRate), (!finite f, .cfgValue)]
  | .oscPhase osc p, _ => [(notPulse osc, .cmdBadOsc), (!finite p, .cfgValue)]
  | .oscKind osc _, _ => [(notPulse osc, .cmdBadOsc)]
  | .oscStep osc, s => [((osc? s osc).isNone, .cmdBadOsc), (!hasFreq (osc? s osc), .cfgNotConfigured)]
  | .synSetup count _ sr, s =>
    [(badRate sr, .cfgSampleRate), (decide (count < 1) || decide (s.params.maxHarm < count), .cfgOscCount)]
  | .synRetune _, s => [(!s.cfg.syn, .cfgOrder)]
  | .synStep, s => [(!s.cfg.syn, .cfgNotConfigured)]
  | .fltSetup sr carrierF cutLfoF baseCut resLfoF baseRes, _ =>
    [ (badRate sr, .cfgSampleRate), (!finite carrierF, .cfgValue), (!finite cutLfoF, .cfgValue),
      (!finite baseCut, .cfgFilter), (!finite resLfoF, .cfgValue),
      (!(finite baseRes && fGt baseRes cZero), .cfgFilter), (badBand sr baseCut, .cfgFilter) ]
  | .fltStep x, s => [(!s.cfg.flt, .cfgNotConfigured), (!finite x, .cfgValue)]
  | .dlySize n, s =>
    [(decide (n ≤ 0), .cfgBufferSize), (decide ((s.params.delayCapacity : Int) < n), .cfgCapacity)]
  | .dlyTime d, s =>
    [(!s.cfg.dsize, .cfgOrder), (decide (d < 0) || decide ((s.dly.size.toNat : Int) ≤ d), .cfgDelayTime)]
  | .dlyFb f, s => [(!s.cfg.dsize, .cfgOrder), (outsideUnit f, .cfgFeedback)]
  | .dlyStep x, s =>
    [(!s.cfg.dsize || !s.cfg.dtime || !s.cfg.dfb, .cfgNotConfigured), (!finite x, .cfgValue)]
  | .panSetup sr panF modF thr, _ =>
    [ (badRate sr, .cfgSampleRate), (!finite panF, .cfgValue), (!finite modF, .cfgValue),
      (outsideUnit thr, .cfgThreshold) ]
  | .panThr v, s => [(!s.cfg.pan, .cfgOrder), (outsideUnit v, .cfgThreshold)]
  | .panStep, s => [(!s.cfg.pan, .cfgNotConfigured)]
  | .mixGain g, _ => [(!finite g, .cfgValue)]
  | .trgRange lo hi, _ => [(decide (hi < lo), .cfgRange)]
  | .process _, s => [(!ready s, .cfgNotConfigured)]

/-- The absent delay cell each command would reach. -/
def absentOf : Instr → State → Option Fault
  | .dlyStep _, s => absentDelayCell s
  | .process n, s => processAbsent n s
  | _, _ => none

/-- The state and the data words each command leaves once accepted. -/
def effectOf : Instr → State → State × List Word
  | .nop, s => (s, [])
  | .reset, s => (resetState s, [])
  | .clrErr, s => (clearError s, [])
  | .regRd addr, s => (s, dataWords ((readReg s addr).getD 0))
  | .bufRd index, s => (s, dataWords (memRead s.buf index.toNat))
  | .oscSr _ sr, s => (withOsc 0 (rated sr s.bank.pulse) s, [])
  | .oscFreq _ f, s => (withOsc 0 (tuned f s.bank.pulse) s, [])
  | .oscPhase _ p, s => (withOsc 0 { s.bank.pulse with phase := p } s, [])
  | .oscKind _ kind, s => (withOsc 0 { s.bank.pulse with kind := kind } s, [])
  | .oscStep osc, s => (withOsc osc (advanced (oscOr s osc)) s, dataWords (stepOut (oscOr s osc)))
  | .synSetup count note sr, s => (synSetupEffect count note sr s, [])
  | .synRetune note, s => (retune note s, [])
  | .synStep, s => (synAdvance s, dataWords (synOut s))
  | .fltSetup sr carrierF cutLfoF baseCut resLfoF baseRes, s =>
    (fltSetupEffect sr carrierF cutLfoF baseCut resLfoF baseRes s, [])
  | .fltStep x, s => (fltAdvance x s, dataWords (fltOut x s))
  | .dlySize n, s => (dlySizeEffect n s, [])
  | .dlyTime d, s => (dlyTimeEffect d s, [])
  | .dlyFb f, s => ({ s with dly := { s.dly with fb := f }, cfg := { s.cfg with dfb := true } }, [])
  | .dlyStep x, s => (dlyAdvance x s, dataWords (dlyOut x s))
  | .panSetup sr panF modF thr, s => (panSetupEffect sr panF modF thr s, [])
  | .panThr v, s => ({ s with pan := { s.pan with thr := v } }, [])
  | .panStep, s => (panAdvance s, dataWords (panGr s) ++ dataWords (panGl s))
  | .mixGain g, s => ({ s with gain := g, cfg := { s.cfg with gain := true } }, [])
  | .trgRange lo hi, s => ({ s with range := rangeWord lo hi, cfg := { s.cfg with range := true } }, [])
  | .process n, s => sampleSteps n s

/-- Every command is the shared shape with its own parts. -/
theorem exec_eq (i : Instr) (s : State) :
    exec i s =
      runCommand (commandWord i) (!RunsWhilePending i) (checksOf i s) (absentOf i s) (effectOf i s) s := by
  cases i <;> rfl

/-- The inversion: a next state is a rejection's, or the effect's after all checks passed. -/
theorem exec_next {i : Instr} {s t : State} (h : exec i s = .next t) :
    (∃ c, t = reject c (commandWord i) s) ∨
      ((!RunsWhilePending i && s.record.err) = false ∧ (∀ p ∈ checksOf i s, p.1 = false) ∧ absentOf i s = none ∧
        t = respondOk (commandWord i) (effectOf i s).2 (effectOf i s).1) := by
  rw [exec_eq] at h
  rcases runCommand_next h with ⟨c, hc⟩ | ⟨hg, hc, ha, ht⟩
  · exact .inl ⟨c, hc⟩
  · exact .inr ⟨hg, (firstRaised_eq_none _).1 hc, ha, ht⟩

/-- When a command is accepted. -/
theorem exec_accepts {i : Instr} {s : State} (hg : (!RunsWhilePending i && s.record.err) = false)
    (hc : firstRaised (checksOf i s) = none) (ha : absentOf i s = none) :
    exec i s = .next (respondOk (commandWord i) (effectOf i s).2 (effectOf i s).1) := by
  rw [exec_eq, runCommand_accepts hg hc ha]

/-- While ERR = 1 a gated command is rejected with CMD_ERR_PENDING (R135). -/
theorem exec_pending {i : Instr} {s : State} (hg : RunsWhilePending i = false) (he : s.record.err = true) :
    exec i s = .next (reject .cmdErrPending (commandWord i) s) := by
  rw [exec_eq, runCommand_pending (by simp [hg]) he]

/-- The first violated check rejects (R136). -/
theorem exec_rejects {i : Instr} {s : State} {c : Cause} (hg : (!RunsWhilePending i && s.record.err) = false)
    (hc : firstRaised (checksOf i s) = some c) : exec i s = .next (reject c (commandWord i) s) := by
  rw [exec_eq, runCommand_rejects hg hc]

/-- A command stops only where it would reach an absent cell. -/
theorem exec_fault {i : Instr} {s : State} {f : Fault} (h : exec i s = .fault f) : absentOf i s = some f := by
  rw [exec_eq] at h
  rcases runCommand_cases (commandWord i) (!RunsWhilePending i) (checksOf i s) (absentOf i s) (effectOf i s) s with
    ⟨c, hc⟩ | ⟨g, hg, hf⟩ | ⟨-, -, -, he⟩
  · rw [hc] at h; cases h
  · rw [hf] at h; cases h; exact hg
  · rw [he] at h; cases h

theorem exec_ne_refused (i : Instr) (s : State) (r : Refusal) : exec i s ≠ .refused r := by
  rw [exec_eq]
  rcases runCommand_cases (commandWord i) (!RunsWhilePending i) (checksOf i s) (absentOf i s) (effectOf i s) s with
    ⟨c, hc⟩ | ⟨g, hg, hf⟩ | ⟨-, -, -, he⟩
  · rw [hc]; exact fun h => nomatch h
  · rw [hf]; exact fun h => nomatch h
  · rw [he]; exact fun h => nomatch h

/-! ### Sample steps -/

/-- What a trigger does not send. -/
@[simp] theorem trigger_ports_resp (s : State) : (trigger s).ports.resp = s.ports.resp := by
  unfold trigger
  split
  · simp only [drawAndRetune, pulseAdvance, randDraw, retune]
    split <;> rfl
  · rfl

theorem trigger_cases (s : State) :
    (fires s.params.trigMode s.trig (stepOut s.bank.pulse) = true ∧ trigger s = drawAndRetune (pulseAdvance s)) ∨
      (fires s.params.trigMode s.trig (stepOut s.bank.pulse) = false ∧ trigger s = pulseAdvance s) := by
  unfold trigger
  cases fires s.params.trigMode s.trig (stepOut s.bank.pulse)
  · exact .inr ⟨rfl, rfl⟩
  · exact .inl ⟨rfl, rfl⟩

theorem sampleSteps_succ (n : Nat) (s : State) :
    sampleSteps (n + 1) s =
      ((sampleSteps n (sampleStep s).1).1, (sampleStep s).2 ++ (sampleSteps n (sampleStep s).1).2) := rfl

/-- A property of states that a sample step keeps holds after any number of them. -/
theorem sampleSteps_induct {P : State → Prop} (hstep : ∀ s, P s → P (sampleStep s).1) (n : Nat) {s : State} (h : P s) :
    P (sampleSteps n s).1 := by
  induction n generalizing s with
  | zero => exact h
  | succ n ih => rw [sampleSteps_succ]; exact ih (hstep s h)

/-- Two data words a sample. -/
theorem sampleSteps_length (n : Nat) (s : State) : (sampleSteps n s).2.length = 2 * n := by
  induction n generalizing s with
  | zero => rfl
  | succ n ih =>
    rw [sampleSteps_succ]
    simp only [List.length_append, ih]
    show 2 + 2 * n = 2 * (n + 1)
    omega

/-- `n + m` sample steps are `n` and then `m`. -/
theorem sampleSteps_add (n m : Nat) (s : State) :
    sampleSteps (n + m) s =
      ((sampleSteps m (sampleSteps n s).1).1, (sampleSteps n s).2 ++ (sampleSteps m (sampleSteps n s).1).2) := by
  induction n generalizing s with
  | zero => simp [sampleSteps]
  | succ n ih =>
    rw [Nat.succ_add, sampleSteps_succ, ih, sampleSteps_succ]
    simp only [List.append_assoc]

/-- The ports after a draw, but for the random source's. -/
theorem randDraw_ports (p : Ports) :
    (randDraw p).2.cmd = p.cmd ∧ (randDraw p).2.resp = p.resp ∧ (randDraw p).2.pin = p.pin ∧
      (randDraw p).2.drawn = p.drawn + 1 := by
  unfold randDraw
  split <;> exact ⟨rfl, rfl, rfl, rfl⟩

/-- The ports after a trigger: a draw if it fires (R119). -/
theorem trigger_ports (s : State) :
    (trigger s).ports =
      if fires s.params.trigMode s.trig (stepOut s.bank.pulse) then (randDraw s.ports).2 else s.ports := by
  rcases trigger_cases s with ⟨hf, ht⟩ | ⟨hf, ht⟩ <;> rw [ht, hf] <;> rfl

/-- What a draw takes: the head of the sequence, and one of the count. -/
theorem randDraw_rand (p : Ports) : (randDraw p).2.rand = p.rand.drop 1 := by
  unfold randDraw
  split <;> simp_all

/-- What a trigger keeps. -/
theorem trigger_keeps (s : State) :
    (trigger s).params = s.params ∧ (trigger s).record = s.record ∧ (trigger s).cfg = s.cfg ∧
      (trigger s).samples = s.samples ∧ (trigger s).gain = s.gain ∧ (trigger s).range = s.range ∧
      (trigger s).flt = s.flt ∧ (trigger s).dly = s.dly ∧ (trigger s).buf = s.buf ∧ (trigger s).pan = s.pan ∧
      (trigger s).syn.count = s.syn.count ∧
      (trigger s).bank = { s.bank with pulse := advanced s.bank.pulse, harm := (trigger s).bank.harm } ∧
      (trigger s).trig = { prevValid := true, prev := stepOut s.bank.pulse } := by
  rcases trigger_cases s with ⟨-, ht⟩ | ⟨-, ht⟩ <;> rw [ht] <;>
    exact ⟨rfl, rfl, rfl, rfl, rfl, rfl, rfl, rfl, rfl, rfl, rfl, rfl, rfl⟩

/-! ### What every effect keeps -/

/-! Field by field, what the stages leave as they find it: each unit writes its own registers only. -/

@[simp] theorem afterSyn_params (s : State) : (afterSyn s).1.params = (trigger s).params := rfl
@[simp] theorem afterSyn_record (s : State) : (afterSyn s).1.record = (trigger s).record := rfl
@[simp] theorem afterSyn_cfg (s : State) : (afterSyn s).1.cfg = (trigger s).cfg := rfl
@[simp] theorem afterSyn_samples (s : State) : (afterSyn s).1.samples = (trigger s).samples := rfl
@[simp] theorem afterSyn_gain (s : State) : (afterSyn s).1.gain = (trigger s).gain := rfl
@[simp] theorem afterSyn_range (s : State) : (afterSyn s).1.range = (trigger s).range := rfl
@[simp] theorem afterSyn_trig (s : State) : (afterSyn s).1.trig = (trigger s).trig := rfl
@[simp] theorem afterSyn_syn (s : State) : (afterSyn s).1.syn = (trigger s).syn := rfl
@[simp] theorem afterSyn_ports (s : State) : (afterSyn s).1.ports = (trigger s).ports := rfl
@[simp] theorem afterSyn_flt (s : State) : (afterSyn s).1.flt = (trigger s).flt := rfl
@[simp] theorem afterSyn_dly (s : State) : (afterSyn s).1.dly = (trigger s).dly := rfl
@[simp] theorem afterSyn_buf (s : State) : (afterSyn s).1.buf = (trigger s).buf := rfl
@[simp] theorem afterSyn_pan (s : State) : (afterSyn s).1.pan = (trigger s).pan := rfl

@[simp] theorem afterFlt_params (s : State) : (afterFlt s).1.params = (afterSyn s).1.params := rfl
@[simp] theorem afterFlt_record (s : State) : (afterFlt s).1.record = (afterSyn s).1.record := rfl
@[simp] theorem afterFlt_cfg (s : State) : (afterFlt s).1.cfg = (afterSyn s).1.cfg := rfl
@[simp] theorem afterFlt_samples (s : State) : (afterFlt s).1.samples = (afterSyn s).1.samples := rfl
@[simp] theorem afterFlt_gain (s : State) : (afterFlt s).1.gain = (afterSyn s).1.gain := rfl
@[simp] theorem afterFlt_range (s : State) : (afterFlt s).1.range = (afterSyn s).1.range := rfl
@[simp] theorem afterFlt_trig (s : State) : (afterFlt s).1.trig = (afterSyn s).1.trig := rfl
@[simp] theorem afterFlt_syn (s : State) : (afterFlt s).1.syn = (afterSyn s).1.syn := rfl
@[simp] theorem afterFlt_ports (s : State) : (afterFlt s).1.ports = (afterSyn s).1.ports := rfl
@[simp] theorem afterFlt_dly (s : State) : (afterFlt s).1.dly = (afterSyn s).1.dly := rfl
@[simp] theorem afterFlt_buf (s : State) : (afterFlt s).1.buf = (afterSyn s).1.buf := rfl
@[simp] theorem afterFlt_pan (s : State) : (afterFlt s).1.pan = (afterSyn s).1.pan := rfl

@[simp] theorem afterDly_params (s : State) : (afterDly s).1.params = (afterFlt s).1.params := rfl
@[simp] theorem afterDly_record (s : State) : (afterDly s).1.record = (afterFlt s).1.record := rfl
@[simp] theorem afterDly_cfg (s : State) : (afterDly s).1.cfg = (afterFlt s).1.cfg := rfl
@[simp] theorem afterDly_samples (s : State) : (afterDly s).1.samples = (afterFlt s).1.samples := rfl
@[simp] theorem afterDly_gain (s : State) : (afterDly s).1.gain = (afterFlt s).1.gain := rfl
@[simp] theorem afterDly_range (s : State) : (afterDly s).1.range = (afterFlt s).1.range := rfl
@[simp] theorem afterDly_trig (s : State) : (afterDly s).1.trig = (afterFlt s).1.trig := rfl
@[simp] theorem afterDly_syn (s : State) : (afterDly s).1.syn = (afterFlt s).1.syn := rfl
@[simp] theorem afterDly_ports (s : State) : (afterDly s).1.ports = (afterFlt s).1.ports := rfl
@[simp] theorem afterDly_bank (s : State) : (afterDly s).1.bank = (afterFlt s).1.bank := rfl
@[simp] theorem afterDly_flt (s : State) : (afterDly s).1.flt = (afterFlt s).1.flt := rfl
@[simp] theorem afterDly_pan (s : State) : (afterDly s).1.pan = (afterFlt s).1.pan := rfl

@[simp] theorem sampleAdvance_params (s : State) : (sampleAdvance s).params = (afterDly s).1.params := rfl
@[simp] theorem sampleAdvance_record (s : State) : (sampleAdvance s).record = (afterDly s).1.record := rfl
@[simp] theorem sampleAdvance_cfg (s : State) : (sampleAdvance s).cfg = (afterDly s).1.cfg := rfl
@[simp] theorem sampleAdvance_gain (s : State) : (sampleAdvance s).gain = (afterDly s).1.gain := rfl
@[simp] theorem sampleAdvance_range (s : State) : (sampleAdvance s).range = (afterDly s).1.range := rfl
@[simp] theorem sampleAdvance_trig (s : State) : (sampleAdvance s).trig = (afterDly s).1.trig := rfl
@[simp] theorem sampleAdvance_syn (s : State) : (sampleAdvance s).syn = (afterDly s).1.syn := rfl
@[simp] theorem sampleAdvance_ports (s : State) : (sampleAdvance s).ports = (afterDly s).1.ports := rfl
@[simp] theorem sampleAdvance_flt (s : State) : (sampleAdvance s).flt = (afterDly s).1.flt := rfl
@[simp] theorem sampleAdvance_dly (s : State) : (sampleAdvance s).dly = (afterDly s).1.dly := rfl
@[simp] theorem sampleAdvance_buf (s : State) : (sampleAdvance s).buf = (afterDly s).1.buf := rfl
@[simp] theorem sampleAdvance_samples (s : State) : (sampleAdvance s).samples = s.samples + 1 := rfl

@[simp] theorem afterSyn_bank (s : State) : (afterSyn s).1.bank =
    { (trigger s).bank with harm := advanceHarm (trigger s).syn.count.toNat (trigger s).bank.harm } := rfl

@[simp] theorem afterFlt_bank (s : State) : (afterFlt s).1.bank =
    { (afterSyn s).1.bank with
      carrier := advanced (afterSyn s).1.bank.carrier
      lfoCut := advanced (afterSyn s).1.bank.lfoCut
      lfoRes := advanced (afterSyn s).1.bank.lfoRes } := rfl

@[simp] theorem sampleAdvance_bank (s : State) : (sampleAdvance s).bank =
    { (afterDly s).1.bank with
      pan := panAfter (afterDly s).1
      pmod := advanced (afterDly s).1.bank.pmod } := rfl

@[simp] theorem afterDly_buf (s : State) : (afterDly s).1.buf =
    memWrite (afterFlt s).1.buf (afterFlt s).1.dly.wp.toNat (afterDly s).2 := rfl

@[simp] theorem afterDly_dly (s : State) : (afterDly s).1.dly =
    { (afterFlt s).1.dly with
      wp := nextPointer (afterFlt s).1.dly.size (afterFlt s).1.dly.wp
      rp := nextPointer (afterFlt s).1.dly.size (afterFlt s).1.dly.rp } := rfl

@[simp] theorem sampleAdvance_pan_thr (s : State) : (sampleAdvance s).pan.thr = (afterDly s).1.pan.thr := rfl

/-- What sample steps take from the random source: some `k` of its values, in their order, and no others (R119). -/
theorem sampleSteps_draws (n : Nat) (s : State) :
    ∃ k, (sampleSteps n s).1.ports.drawn = s.ports.drawn + k ∧ (sampleSteps n s).1.ports.rand = s.ports.rand.drop k := by
  refine sampleSteps_induct
    (P := fun t => ∃ k, t.ports.drawn = s.ports.drawn + k ∧ t.ports.rand = s.ports.rand.drop k) ?_ n ⟨0, rfl, rfl⟩
  rintro t ⟨k, hd, hr⟩
  have hp : (sampleStep t).1.ports = (trigger t).ports := by simp [sampleStep]
  rw [hp, trigger_ports]
  split
  · exact ⟨k + 1, by rw [(randDraw_ports _).2.2.2, hd]; rfl, by rw [randDraw_rand, hr, List.drop_drop]⟩
  · exact ⟨k, hd, hr⟩

/-- A sample step keeps the parameters, the error record, CFG, GAIN, RANGE, and counts itself. -/
theorem sampleStep_keeps (s : State) :
    (sampleStep s).1.ports = (trigger s).ports ∧ (sampleStep s).1.params = s.params ∧
      (sampleStep s).1.record = s.record ∧ (sampleStep s).1.cfg = s.cfg ∧
      (sampleStep s).1.samples = s.samples + 1 := by
  obtain ⟨h1, h2, h3, -⟩ := trigger_keeps s
  simp [sampleStep, h1, h2, h3]

/-- No effect sends a word by itself: the response follows it. -/
theorem effectOf_resp (i : Instr) (s : State) : (effectOf i s).1.ports.resp = s.ports.resp := by
  cases i with
  | process n =>
    exact sampleSteps_induct (P := fun t => t.ports.resp = s.ports.resp)
      (fun t h => by rw [(sampleStep_keeps t).1, trigger_ports_resp, h]) n rfl
  | _ => rfl

/-- No effect changes the parameters (R34). -/
theorem effectOf_params (i : Instr) (s : State) : (effectOf i s).1.params = s.params := by
  cases i with
  | process n =>
    exact sampleSteps_induct (P := fun t => t.params = s.params)
      (fun t h => by rw [(sampleStep_keeps t).2.1, h]) n rfl
  | _ => rfl

/-- No effect but those of `clr.err` and `reset` changes the error record (R24, R134). -/
theorem effectOf_record (i : Instr) (s : State) (hc : i ≠ .clrErr) (hr : i ≠ .reset) :
    (effectOf i s).1.record = s.record := by
  cases i with
  | process n =>
    exact sampleSteps_induct (P := fun t => t.record = s.record)
      (fun t h => by rw [(sampleStep_keeps t).2.2.1, h]) n rfl
  | clrErr => exact absurd rfl hc
  | reset => exact absurd rfl hr
  | _ => rfl

theorem dataWords_length (v : Word64) : (dataWords v).length = 2 := rfl

theorem dataWords_append_length (v u : Word64) : (dataWords v ++ dataWords u).length = 4 := rfl

/-- Every effect answers as many data words as R68 gives its command. -/
theorem effectOf_data (i : Instr) (s : State) : (effectOf i s).2.length = dataCount i := by
  cases i with
  | process n => exact sampleSteps_length n s
  | regRd a => exact dataWords_length _
  | bufRd j => exact dataWords_length _
  | oscStep k => exact dataWords_length _
  | synStep => exact dataWords_length _
  | fltStep x => exact dataWords_length _
  | dlyStep x => exact dataWords_length _
  | panStep => exact dataWords_append_length _ _
  | _ => exact List.length_nil

end Sys2Proof.Machine
end

