-- ==== Sys2Proof/Laws/Rules.lean ====
section
/-! SUPPORT. Acceptance and rejection in the terms of Safety: one lemma each over a command's parts, the encodings'
OPC and LEN, the operand checks, the CFG bits and the oscillator bank. -/

namespace Sys2Proof.Machine

/-! ### Accepted, rejected, encoded -/

/-- A command is accepted with its own effect when ERR does not block it and no check is violated. -/
theorem accepts_of {i : Instr} {s t : State} {data : List Word} (hg : (!RunsWhilePending i && s.record.err) = false)
    (hc : firstRaised (checksOf i s) = none) (ha : absentOf i s = none) (he : effectOf i s = (t, data)) :
    Accepts i s t data :=
  ⟨by rw [exec_accepts hg hc ha, he], by have := effectOf_resp i s; rw [he] at this; exact this⟩

/-- The first violated check rejects. -/
theorem rejects_of {i : Instr} {s : State} {c : Cause} (hg : (!RunsWhilePending i && s.record.err) = false)
    (hc : firstRaised (checksOf i s) = some c) : Rejects i s c := exec_rejects hg hc

/-- A command word written as OPC, LEN and IMM16 carries that OPC and that LEN. -/
theorem encodedAs_of (i : Instr) (opc len imm : Nat) (himm : imm < 2 ^ 16)
    (h : commandWord i = BitVec.ofNat 32 (opc * 2 ^ 24 + len * 2 ^ 20 + imm)) (ho : opc < 256) (hl : len < 16)
    (hw : (operandWords i).length = len) : EncodedAs i opc len := by
  refine ⟨?_, ?_, hw⟩ <;> rw [h] <;> simp only [opcOf, lenOf, bitField, BitVec.toNat_ofNat] <;> omega

theorem putField_lt (bits lo v : Nat) : putField bits lo v < 2 ^ (lo + bits) := by
  unfold putField
  rw [pow_add]
  exact Nat.mul_lt_mul_of_pos_left (Nat.mod_lt _ (Nat.two_pow_pos _)) (Nat.two_pow_pos _)

/-! ### Operand checks -/

theorem badRate_of {sr : F64} (h1 : fGt sr cZero = true) (h2 : finite sr = true) : badRate sr = false := by
  simp [badRate, h1, h2]

theorem badRate_not {sr : F64} (h : ¬ (fGt sr cZero = true ∧ finite sr = true)) : badRate sr = true := by
  unfold badRate
  rw [← Bool.and_eq_true] at h
  simp only [Bool.not_eq_true] at h
  rw [h]
  rfl

theorem badRate_eq_false {sr : F64} : badRate sr = false ↔ fGt sr cZero = true ∧ finite sr = true := by
  unfold badRate
  rw [Bool.not_eq_false', Bool.and_eq_true]

theorem outsideUnit_of {v : F64} (h1 : fGe v cZero = true) (h2 : fLt v cOne = true) : outsideUnit v = false := by
  simp [outsideUnit, h1, h2]

theorem outsideUnit_not {v : F64} (h : ¬ (fGe v cZero = true ∧ fLt v cOne = true)) : outsideUnit v = true := by
  unfold outsideUnit
  rw [← Bool.and_eq_true] at h
  simp only [Bool.not_eq_true] at h
  rw [h]
  rfl

theorem outsideUnit_eq_false {v : F64} : outsideUnit v = false ↔ fGe v cZero = true ∧ fLt v cOne = true := by
  unfold outsideUnit
  rw [Bool.not_eq_false', Bool.and_eq_true]

theorem badBand_eq_false {sr b : F64} :
    badBand sr b = false ↔ fGt (fSub b c500) cZero = true ∧ fLt (fAdd b c500) (fMul sr cHalf) = true := by
  unfold badBand
  rw [Bool.not_eq_false', Bool.and_eq_true]

/-- Both pointers below the size: the step reaches no absent cell. -/
theorem absentDelayCell_none {s : State} (h1 : s.dly.rp < s.dly.size) (h2 : s.dly.wp < s.dly.size) :
    absentDelayCell s = none := by
  unfold absentDelayCell
  rw [if_neg (BitVec.not_le.2 h1), if_neg (BitVec.not_le.2 h2)]

/-! ### Bits of a register -/

theorem flagAt_eq (i : Nat) (b : Bool) : flagAt i b = 2 ^ i * b.toNat := by cases b <;> simp [flagAt]

/-- A bit of a packed register is a flag when the arithmetic says so. -/
theorem bit_eq_flag {p q : Prop} [Decidable p] [Decidable q] {b : Bool} (hp : p) (hq : q ↔ b.toNat = 1) :
    (decide p && decide q) = b := by
  rw [decide_eq_true hp, Bool.true_and]
  cases b <;> simp_all

theorem getLsbD_ofNat (x b : Nat) :
    (BitVec.ofNat 32 x).getLsbD b = (decide (b < 32) && decide (x / 2 ^ b % 2 = 1)) := by
  rw [BitVec.getLsbD_ofNat, Nat.testBit_eq_decide_div_mod_eq]

/-- The CFG bits, by number. -/
theorem cfgBits_eq (s : State) :
    cfgBit s 0 = s.cfg.syn ∧ cfgBit s 1 = s.cfg.flt ∧ cfgBit s 2 = s.cfg.dsize ∧ cfgBit s 3 = s.cfg.dtime ∧
      cfgBit s 4 = s.cfg.dfb ∧ cfgBit s 5 = s.cfg.pan ∧ cfgBit s 6 = s.bank.pulse.fqv ∧ cfgBit s 7 = s.cfg.gain ∧
      cfgBit s 8 = s.cfg.range ∧ cfgBit s 9 = s.bank.pulse.srv := by
  simp only [cfgBit, cfgReg, cfgPfreq, cfgPsr, getLsbD_ofNat, flagAt_eq]
  have h := fun b : Bool => b.toNat_le
  have h0 := h s.cfg.syn
  have h1 := h s.cfg.flt
  have h2 := h s.cfg.dsize
  have h3 := h s.cfg.dtime
  have h4 := h s.cfg.dfb
  have h5 := h s.cfg.pan
  have h6 := h s.bank.pulse.fqv
  have h7 := h s.cfg.gain
  have h8 := h s.cfg.range
  have h9 := h s.bank.pulse.srv
  refine ⟨?_, ?_, ?_, ?_, ?_, ?_, ?_, ?_, ?_, ?_⟩ <;> exact bit_eq_flag (by omega) (by omega)

/-! ### The oscillator bank -/

/-- Which oscillators are present (R35). -/
theorem osc?_isSome (s : State) (h : s.syn.count.toNat ≤ s.bank.harm.length) (k : Nat) :
    (osc? s k).isSome = true ↔ isPresent s k := by
  unfold isPresent
  match k with
  | 0 | 1 | 2 | 3 | 4 | 5 => simp [osc?]
  | 6 | 7 => simp [osc?]
  | j + 8 =>
    simp only [osc?]
    split
    · rename_i hj
      have : j < s.bank.harm.length := by omega
      simp [this]; omega
    · simp; omega

/-- Writing a present oscillator: it reads as written, every other as before. -/
theorem osc?_withOsc (s : State) (k : Nat) (o : Osc) (hp : (osc? s k).isSome = true) :
    osc? (withOsc k o s) k = some o ∧ ∀ j, j ≠ k → osc? (withOsc k o s) j = osc? s j := by
  match k with
  | 0 | 1 | 2 | 3 | 4 | 5 =>
    refine ⟨rfl, fun j hj => ?_⟩
    match j with
    | 0 | 1 | 2 | 3 | 4 | 5 | 6 | 7 => first | rfl | exact absurd rfl hj
    | j + 8 => rfl
  | 6 | 7 => simp [osc?] at hp
  | k + 8 =>
    simp only [osc?] at hp
    split at hp
    · rename_i hk
      have hk' : k < s.bank.harm.length := by simpa using hp
      refine ⟨?_, fun j hj => ?_⟩
      · show (if k < s.syn.count.toNat then (s.bank.harm.set k o)[k]? else none) = some o
        rw [if_pos hk]; simp [hk']
      · match j with
        | 0 | 1 | 2 | 3 | 4 | 5 | 6 | 7 => rfl
        | j + 8 =>
          show (if j < s.syn.count.toNat then (s.bank.harm.set k o)[j]? else none) =
            (if j < s.syn.count.toNat then s.bank.harm[j]? else none)
          rw [List.getElem?_set_ne (by omega)]
    · simp at hp

/-- Writing a present oscillator without changing its kind keeps the fixed kinds. -/
theorem setOsc_kinds {s : State} {k : Nat} {o o' : Osc} (h : s.bank.KindsFixed) (ho : osc? s k = some o)
    (hk : o'.kind = o.kind) :
    (s.bank.setOsc k o').KindsFixed ∧ (s.bank.setOsc k o').pulse.kind = s.bank.pulse.kind := by
  match k with
  | 0 | 1 | 2 | 3 | 4 | 5 =>
    simp only [osc?, Option.some.injEq] at ho
    subst ho
    refine ⟨⟨?_, ?_, ?_, ?_, ?_, h.harm⟩, ?_⟩ <;> simp [Bank.setOsc, h.carrier, h.lfoCut, h.lfoRes, h.pan, h.pmod, hk]
  | 6 | 7 => exact ⟨h, rfl⟩
  | k + 8 =>
    refine ⟨⟨h.carrier, h.lfoCut, h.lfoRes, h.pan, h.pmod, ?_⟩, rfl⟩
    intro x hx
    have hx' : x ∈ s.bank.harm.set k o' := hx
    simp only [osc?] at ho
    split at ho
    · rcases List.mem_or_eq_of_mem_set hx' with hm | rfl
      · exact h.harm _ hm
      · rw [hk]; exact h.harm _ (List.mem_of_getElem? ho)
    · cases ho

theorem setOsc_pulse_kind {s : State} {k : Nat} {o o' : Osc} (ho : osc? s k = some o) (hk : o'.kind = o.kind) :
    (s.bank.setOsc k o').pulse.kind = s.bank.pulse.kind := by
  match k with
  | 0 => simp only [osc?, Option.some.injEq] at ho; subst ho; exact hk
  | 1 | 2 | 3 | 4 | 5 | 6 | 7 => rfl
  | k + 8 => rfl

/-- The bank after a trigger, but for the harmonics. -/
theorem trigger_bank (s : State) :
    (trigger s).bank.pulse = advanced s.bank.pulse ∧ (trigger s).bank.carrier = s.bank.carrier ∧
      (trigger s).bank.lfoCut = s.bank.lfoCut ∧ (trigger s).bank.lfoRes = s.bank.lfoRes ∧
      (trigger s).bank.pan = s.bank.pan ∧ (trigger s).bank.pmod = s.bank.pmod := by
  rcases trigger_cases s with ⟨-, ht⟩ | ⟨-, ht⟩ <;> rw [ht] <;> exact ⟨rfl, rfl, rfl, rfl, rfl, rfl⟩

end Sys2Proof.Machine
end

