-- ==== Sys2Proof/Laws/Registers.lean ====
section
/-! SUPPORT. When two states give the same register at an address: field by field, for the units and for the bank. A
frame proof cites these and never unfolds the register map. -/

namespace Sys2Proof.Machine

variable {s t : State} {a : Nat}

/-- Two states agree on a unit's register when they agree on the field that the address names. -/
theorem unitReg_congr
    (h0 : a = 0x0000 → statusReg t = statusReg s) (h1 : a = 0x0001 → t.record.errcmd = s.record.errcmd)
    (h2 : a = 0x0002 → cfgReg t = cfgReg s) (h3 : a = 0x0003 → t.samples = s.samples)
    (h4 : a = 0x0004 → t.gain = s.gain) (h5 : a = 0x0005 → t.range = s.range)
    (h6 : a = 0x0006 ∨ a = 0x0007 → t.trig = s.trig) (h9 : a = 0x0009 ∨ a = 0x000A → t.params = s.params)
    (h10 : a = 0x0010 → t.syn.count = s.syn.count) (h11 : a = 0x0011 → t.syn.note = s.syn.note)
    (h20 : 0x0020 ≤ a → a ≤ 0x0022 →
      t.flt.sr = s.flt.sr ∧ t.flt.baseCut = s.flt.baseCut ∧ t.flt.baseRes = s.flt.baseRes)
    (h23 : 0x0023 ≤ a → a ≤ 0x002B → t.flt = s.flt)
    (h30 : a = 0x0030 → t.dly.size = s.dly.size) (h31 : a = 0x0031 → t.dly.wp = s.dly.wp)
    (h32 : a = 0x0032 → t.dly.rp = s.dly.rp) (h33 : a = 0x0033 → t.dly.time = s.dly.time)
    (h34 : a = 0x0034 → t.dly.fb = s.dly.fb) (h40 : a = 0x0040 → t.pan.thr = s.pan.thr)
    (h41 : a = 0x0041 → t.pan.gr = s.pan.gr) (h42 : a = 0x0042 → t.pan.gl = s.pan.gl) :
    unitReg t a = unitReg s a := by
  unfold unitReg
  split
  all_goals first | rfl | simp_all [trigReg]

/-- Agreement on every address, from the units' registers and the oscillators' fields. -/
theorem readReg_congr (hu : a < 0x1000 → unitReg t a = unitReg s a)
    (ho : 0x1000 ≤ a → a < 0x2000 →
      (osc? t ((a - 0x1000) / 16)).bind (oscField · (a % 16)) =
        (osc? s ((a - 0x1000) / 16)).bind (oscField · (a % 16))) :
    readReg t a = readReg s a := by
  unfold readReg
  split
  · exact hu (by assumption)
  · split
    · have := ho (by omega) (by assumption)
      revert this
      cases osc? t ((a - 0x1000) / 16) <;> cases osc? s ((a - 0x1000) / 16) <;> exact fun h => h
    · rfl

/-- An oscillator field depends on its own part of the oscillator. -/
theorem oscField_congr {o o' : Osc} {f : Nat} (h0 : f = 0 → o'.sr = o.sr) (h1 : f = 1 → o'.freq = o.freq)
    (h2 : f = 2 → o'.delta = o.delta) (h3 : f = 3 → o'.phase = o.phase) (h4 : f = 4 → o'.kind = o.kind)
    (h5 : f = 5 → o'.srv = o.srv ∧ o'.fqv = o.fqv) : oscField o' f = oscField o f := by
  unfold oscField oscFlags
  split <;> first | rfl | simp_all

/-- Agreement on one field of oscillator `k`, from the oscillators one by one. -/
theorem osc_bind_congr {k f : Nat} (hc : t.syn.count = s.syn.count)
    (h0 : k = 0 → oscField t.bank.pulse f = oscField s.bank.pulse f)
    (h1 : k = 1 → oscField t.bank.carrier f = oscField s.bank.carrier f)
    (h2 : k = 2 → oscField t.bank.lfoCut f = oscField s.bank.lfoCut f)
    (h3 : k = 3 → oscField t.bank.lfoRes f = oscField s.bank.lfoRes f)
    (h4 : k = 4 → oscField t.bank.pan f = oscField s.bank.pan f)
    (h5 : k = 5 → oscField t.bank.pmod f = oscField s.bank.pmod f)
    (h8 : ∀ j, k = j + 8 → j < s.syn.count.toNat →
      (t.bank.harm[j]?).bind (oscField · f) = (s.bank.harm[j]?).bind (oscField · f)) :
    (osc? t k).bind (oscField · f) = (osc? s k).bind (oscField · f) := by
  match k with
  | 0 => exact h0 rfl
  | 1 => exact h1 rfl
  | 2 => exact h2 rfl
  | 3 => exact h3 rfl
  | 4 => exact h4 rfl
  | 5 => exact h5 rfl
  | 6 => rfl
  | 7 => rfl
  | j + 8 =>
    simp only [osc?, hc]
    split
    · exact h8 j rfl (by assumption)
    · rfl

/-- The same bank and the same count: every oscillator field agrees. -/
theorem osc_bind_of_bank (hb : t.bank = s.bank) (hc : t.syn.count = s.syn.count) (k f : Nat) :
    (osc? t k).bind (oscField · f) = (osc? s k).bind (oscField · f) := by
  have : osc? t k = osc? s k := by
    unfold osc?
    rw [hb, hc]
  rw [this]

/-- A field that a map over the harmonics does not touch. -/
theorem mapIdx_field {f : Nat → Osc → Osc} {l : List Osc} {j n : Nat}
    (h : ∀ o, oscField (f j o) n = oscField o n) :
    ((l.mapIdx f)[j]?).bind (oscField · n) = (l[j]?).bind (oscField · n) := by
  rw [List.getElem?_mapIdx]
  cases l[j]? with
  | none => rfl
  | some o => exact h o

/-- The address of a harmonic's field. -/
theorem isHarmAddr_of {j : Nat} (h : (a - 0x1000) / 16 = j + 8) (h1 : 0x1000 ≤ a) (h2 : a < 0x2000) :
    isHarmAddr a = true := by
  unfold isHarmAddr
  simp
  omega

/-- The address of a field of one of the oscillators `lo` to `hi`. -/
theorem isOscAddr_of {k lo hi : Nat} (h : (a - 0x1000) / 16 = k) (h1 : 0x1000 ≤ a) (hl : lo ≤ k) (hh : k ≤ hi) :
    isOscAddr lo hi a = true := by
  unfold isOscAddr oscAddr
  simp
  omega

theorem ready_congr (h1 : t.cfg = s.cfg) (h2 : t.bank.pulse.fqv = s.bank.pulse.fqv) : ready t = ready s := by
  simp [ready, cfgPfreq, h1, h2]

theorem statusReg_congr (h1 : t.cfg = s.cfg) (h2 : t.bank.pulse.fqv = s.bank.pulse.fqv) (h3 : t.record = s.record) :
    statusReg t = statusReg s := by
  simp [statusReg, ready_congr h1 h2, h3]

theorem cfgReg_congr (h1 : t.cfg = s.cfg) (h2 : t.bank.pulse.fqv = s.bank.pulse.fqv)
    (h3 : t.bank.pulse.srv = s.bank.pulse.srv) : cfgReg t = cfgReg s := by
  simp [cfgReg, cfgPfreq, cfgPsr, h1, h2, h3]

/-- No unit's register is a port. -/
theorem unitReg_ports (s : State) (p : Ports) (a : Nat) : unitReg { s with ports := p } a = unitReg s a := rfl

theorem osc_bind_ports (s : State) (p : Ports) (k f : Nat) :
    (osc? { s with ports := p } k).bind (oscField · f) = (osc? s k).bind (oscField · f) :=
  osc_bind_of_bank rfl rfl _ _

/-- No register reads the ports. -/
theorem readReg_ports (s : State) (p : Ports) (a : Nat) : readReg { s with ports := p } a = readReg s a :=
  readReg_congr (fun _ => unitReg_ports s p a) (fun _ _ => osc_bind_ports s p _ _)

@[simp] theorem readReg_respondOk (w : Word) (d : List Word) (s : State) (a : Nat) :
    readReg (respondOk w d s) a = readReg s a := readReg_ports s _ a

end Sys2Proof.Machine
end

