-- ==== Sys2Proof/Laws/Units.lean ====
section
/-! SUPPORT. The synth's harmonics one by one, the delay line's pointers and invariant under one step, and what a sample
step leaves of each. -/

namespace Sys2Proof.Machine

/-! ### Synth -/

theorem tune_length (c : Nat) (f : F64) (l : List Osc) : (tune c f l).length = l.length := by simp [tune]

theorem tune_getElem? {c : Nat} {f : F64} {l : List Osc} {j : Nat} {o : Osc} (h : l[j]? = some o) :
    (tune c f l)[j]? = some (if j < c then tuneHarm f j o else o) := by
  simp [tune, h]

theorem advanceHarm_length (c : Nat) (l : List Osc) : (advanceHarm c l).length = l.length := by simp [advanceHarm]

theorem advanceHarm_getElem? {c : Nat} {l : List Osc} {j : Nat} {o : Osc} (h : l[j]? = some o) :
    (advanceHarm c l)[j]? = some (if j < c then advanced o else o) := by
  simp [advanceHarm, h]

/-- Tuning twice to one fundamental is tuning once (R93). -/
theorem tuneHarm_tuneHarm (f : F64) (j : Nat) (o : Osc) : tuneHarm f j (tuneHarm f j o) = tuneHarm f j o := by
  have hs := tuneHarm_sr f j o
  have hf := tuneHarm_freq f j o
  have hd := tuneHarm_delta f j o
  generalize tuneHarm f j o = p at *
  rw [← hs] at hd
  cases p
  simp only at hf hd
  unfold tuneHarm
  rw [← hf] at hd ⊢
  rw [← hd]

theorem tune_tune (c : Nat) (f : F64) (l : List Osc) : tune c f (tune c f l) = tune c f l := by
  unfold tune
  rw [List.mapIdx_mapIdx]
  apply List.mapIdx_eq_mapIdx_iff.2
  intro j hj
  by_cases h : j < c <;> simp [h, tuneHarm_tuneHarm]

/-- The running sum as a fold over the indices (R89). -/
theorem harmSum_eq_foldl (count : Nat) (d : Osc) : ∀ (l : List Osc) (i : Nat) (acc : F64),
    harmSum count i acc l =
      (List.range (min (count - i) l.length)).foldl
        (fun acc j => fAdd acc (fDiv (stepOut (l.getD j d)) (fMul cTwo (fOfNat (i + j + 1))))) acc := by
  intro l
  induction l with
  | nil => intro i acc; simp [harmSum]
  | cons o rest ih =>
    intro i acc
    unfold harmSum
    by_cases h : i < count
    · rw [if_pos h, ih]
      have : min (count - i) (o :: rest).length = min (count - (i + 1)) rest.length + 1 := by
        simp
        omega
      rw [this, List.range_succ_eq_map, List.foldl_cons, List.foldl_map]
      congr 1
      funext acc j
      simp [List.getD, Nat.add_assoc, Nat.add_comm 1 j]
    · rw [if_neg h]
      have : count - i = 0 := by omega
      simp [this]

/-- The harmonics after a trigger: as before, or tuned to the drawn note (R120). -/
theorem trigger_harm (s : State) :
    (trigger s).bank.harm = s.bank.harm ∨
      (trigger s).bank.harm =
        tune s.syn.count.toNat (fundamental (drawnNote s.range (randDraw s.ports).1)) s.bank.harm := by
  rcases trigger_cases s with ⟨-, ht⟩ | ⟨-, ht⟩ <;> rw [ht]
  · exact .inr rfl
  · exact .inl rfl

/-- The drawn note is a MIDI note (R120). -/
theorem drawnNote_lt {range : Word} (h : rangeLo range ≤ rangeHi range) (r : Word) : drawnNote range r < 128 := by
  have hhi : rangeHi range ≤ 127 := by
    unfold rangeHi bitField
    omega
  have := Nat.mod_lt r.toNat (show 0 < rangeHi range - rangeLo range + 1 by omega)
  unfold drawnNote
  omega

/-! ### Delay line -/

/-- An integer operand in range is its word's value. -/
theorem intWord_toNat {z : Int} (h0 : 0 ≤ z) (h1 : z < 2 ^ 32) : ((intWord z).toNat : Int) = z := by
  rw [intWord, BitVec.toNat_ofInt]
  have e1 : z % ((2 ^ 32 : Nat) : Int) = z := Int.emod_eq_of_lt h0 (by omega)
  rw [e1, Int.toNat_of_nonneg h0]

theorem nextPointer_toNat {size : Word} (h : 0 < size.toNat) (p : Word) :
    (nextPointer size p).toNat = (p.toNat + 1) % size.toNat := by
  unfold nextPointer
  rw [BitVec.toNat_ofNat]
  have := Nat.mod_lt (p.toNat + 1) h
  have := size.isLt
  exact Nat.mod_eq_of_lt (by omega)

/-- The delay invariant speaks only of these parts of the state. -/
theorem DelayOk.congr {s t : State} (hs : DelayOk s) (hp : t.params = s.params) (h1 : t.cfg.dsize = s.cfg.dsize)
    (h2 : t.cfg.dtime = s.cfg.dtime) (h3 : t.cfg.dfb = s.cfg.dfb) (hb : t.buf = s.buf) (hd : t.dly = s.dly) :
    DelayOk t := by
  obtain ⟨a, b, c, d, e, f, g, h, i⟩ := hs
  constructor <;> simp only [hp, h1, h2, h3, hb, hd] <;> assumption

/-- One advance of both pointers, with a write at WP, keeps the pointer equation (R105, R106). -/
theorem DelayOk.advance {s t : State} (hs : DelayOk s) (hd : s.cfg.dsize = true) (v : F64)
    (hp : t.params = s.params) (hc : t.cfg = s.cfg) (hb : t.buf = memWrite s.buf s.dly.wp.toNat v)
    (hdl : t.dly =
      { s.dly with wp := nextPointer s.dly.size s.dly.wp, rp := nextPointer s.dly.size s.dly.rp }) :
    DelayOk t := by
  have hpos := hs.sized.1 hd
  have hw := hs.wp hd
  have ht := hs.time hd
  have hr := hs.rp hd
  refine ⟨by rw [hc, hdl]; exact hs.sized, by rw [hp, hdl]; exact hs.capacity, ?_, by rw [hdl, hc]; exact hs.time,
    ?_, by rw [hc]; exact hs.dtime, by rw [hc, hdl]; exact hs.dfb, ?_, ?_⟩
  · intro _
    rw [hdl]
    show (nextPointer _ _).toNat < _
    rw [nextPointer_toNat hpos]
    exact Nat.mod_lt _ hpos
  · intro _
    rw [hdl]
    show (nextPointer _ _).toNat = ((nextPointer _ _).toNat + _ - _) % _
    rw [nextPointer_toNat hpos, nextPointer_toNat hpos, hr]
    generalize s.dly.wp.toNat = w at *
    generalize s.dly.size.toNat = n at *
    generalize s.dly.time.toNat = d at *
    rw [Nat.mod_add_mod]
    by_cases h1 : w + 1 = n
    · subst h1
      rw [Nat.mod_self, Nat.zero_add, show w + (w + 1) - d + 1 = (w + 1 - d) + (w + 1) by omega, Nat.add_mod_right]
    · rw [Nat.mod_eq_of_lt (show w + 1 < n by omega)]
      congr 1
      omega
  · rw [hb]
    exact wf_memWrite hs.canonical _ _
  · rw [hb, hdl]
    exact present_memWrite hs.present hw

/-! ### Sample steps -/

theorem sampleStep_dly (s : State) :
    (sampleStep s).1.dly =
      { s.dly with wp := nextPointer s.dly.size s.dly.wp, rp := nextPointer s.dly.size s.dly.rp } := by
  have h := (trigger_keeps s).2.2.2.2.2.2.2.1
  simp [sampleStep, h]

theorem sampleStep_buf (s : State) :
    (sampleStep s).1.buf = memWrite s.buf s.dly.wp.toNat (afterDly s).2 := by
  have h1 := (trigger_keeps s).2.2.2.2.2.2.2.1
  have h2 := (trigger_keeps s).2.2.2.2.2.2.2.2.1
  simp [sampleStep, h1, h2]

theorem sampleStep_pulse (s : State) : (sampleStep s).1.bank.pulse = advanced s.bank.pulse := by
  have h := (trigger_bank s).1
  simp [sampleStep, h]

theorem sampleRun_eq (n : Nat) (s : State) : sampleRun s n = (sampleSteps n s).1 := by
  induction n with
  | zero => rfl
  | succ n ih =>
    rw [sampleSteps_add]
    show (sampleStep (sampleRun s n)).1 = _
    rw [ih]
    rfl

theorem sampleSteps_samples (n : Nat) (s : State) :
    (sampleSteps n s).1.samples = s.samples + BitVec.ofNat 64 n := by
  induction n generalizing s with
  | zero => simp [sampleSteps]
  | succ n ih =>
    rw [sampleSteps_succ]
    show (sampleSteps n (sampleStep s).1).1.samples = _
    rw [ih, (sampleStep_keeps s).2.2.2.2, BitVec.add_assoc]
    congr 1
    apply BitVec.eq_of_toNat_eq
    simp
    omega

end Sys2Proof.Machine
end

