-- ==== Sys2Proof/Tests/Slice0.lean ====
section
/-! SUPPORT. Own tests. Expected values come from spec/: the encodings of 30_encoding.md R69 and R75, and the vectors of
95_test_vectors.md (the section stands before each group). After them, one witness per obligation: a concrete state and
operands that meet its hypotheses, each clause at a boundary of its range. -/

set_option Elab.async false

namespace Sys2Proof.Tests

open Sys2Proof Sys2Proof.Machine

/-! ### Helpers -/

/-- The response of one command. -/
def answer (i : Instr) (s : State) : List Word :=
  match exec i s with
  | .next t => t.ports.resp
  | _ => []

/-- The state after one command. -/
def after (i : Instr) (s : State) : State :=
  match exec i s with
  | .next t => t
  | _ => s

/-- One register after one command. -/
def regAfter (i : Instr) (s : State) (addr : Nat) : Option Word64 := readReg (after i s) addr

/-- The state with these words on the command port. -/
def given (ws : List Word) (s : State) : State := { s with ports := { s.ports with cmd := ws } }

def c8 : F64 := 0x4020000000000000#64
def c1100 : F64 := 0x4091300000000000#64
def c48000 : F64 := 0x40E7700000000000#64
def cPoint3 : F64 := 0x3FD3333333333333#64
def cNaN : F64 := 0x7FF8000000000000#64

/-- An oscillator set up at 48000.0. -/
def osc48 (kind : WaveKind) (freq delta phase : F64) : Osc :=
  { sr := c48000, freq := freq, delta := delta, phase := phase, kind := kind, srv := true, fqv := true }

/-- The bank of program P5 before its PROCESS: `pulse.init 48000.0, 12000.0`, `syn.setup 3, 60, 48000.0`, `flt.setup`
and `pan.setup` of 95_test_vectors.md sections 4.2, 5.1 and 7.3. -/
def bankP5 : Bank :=
  { pulse := osc48 .square 0x40C7700000000000#64 cQuarter cZero
    carrier := osc48 .triangle cOne 0x3EF5D867C3ECE2A5#64 cZero
    lfoCut := osc48 .sine cHalf 0x3EE5D867C3ECE2A5#64 c055
    lfoRes := osc48 .sine cQuarter 0x3ED5D867C3ECE2A5#64 c077
    pan := osc48 .sine cOne 0x3EF5D867C3ECE2A5#64 0x3FEFFFFFFED9A0A9#64
    pmod := osc48 .sine cHalf 0x3EE5D867C3ECE2A5#64 0x3FD0002BB0CF87DA#64
    harm :=
      [ osc48 .sine 0x40705A0250C2B956#64 0x3F76534C34EBD367#64 cZero,
        osc48 .sine 0x40805A0250C2B956#64 0x3F86534C34EBD367#64 cZero,
        osc48 .sine 0x4088870379241601#64 0x3F90BE7927B0DE8D#64 cZero ]
        ++ List.replicate 13 (Osc.reset .sine) }

/-- The state of program P5 before its PROCESS (95_test_vectors.md section 10). -/
def readyState : State :=
  { State.reset with
    cfg :=
      { syn := true, flt := true, dsize := true, dtime := true, dfb := true, pan := true, gain := true, range := true }
    gain := cHalf
    range := 0x4545#32
    bank := bankP5
    syn := { count := 3#32, note := 60#32 }
    flt := { FltRegs.reset with sr := c48000, baseCut := c1100, baseRes := cFive }
    dly := { size := 4#32, wp := 0#32, rp := 2#32, time := 2#32, fb := cHalf }
    pan := { thr := cPoint3, gr := cZero, gl := cZero } }

/-- A saw pulse generator at DELTA 0.125 and this phase (95_test_vectors.md section 3.1). -/
def sawAt (phase : F64) : State :=
  { State.reset with
    bank :=
      { State.reset.bank with
        pulse :=
          { sr := c8, freq := cOne, delta := 0x3FC0000000000000#64, phase := phase, kind := .saw, srv := true,
            fqv := true } } }

/-- A delay line of SIZE 4 with no time set (95_test_vectors.md section 6). -/
def sizedState : State :=
  { State.reset with
    cfg := { CfgBits.reset with dsize := true }
    dly := { size := 4#32, wp := 0#32, rp := 0#32, time := 0#32, fb := cZero } }

/-- The state of program P3 after its second command: `dly.fb 1.0` rejected (95_test_vectors.md section 10). -/
def errState : State :=
  { sizedState with record := { err := true, multi := false, cause := 0x04#8, errcmd := 0x42200000#32 } }

/-! ### Well-formedness: one ill-formed term per check -/

theorem test_illformed_addr : (Instr.regRd 65536).wellFormed = false := by decide
theorem test_illformed_index : (Instr.bufRd 2147483648).wellFormed = false := by decide
theorem test_illformed_osc :
    (Instr.oscSr 256 c8).wellFormed = false ∧ (Instr.oscFreq 256 c8).wellFormed = false ∧
      (Instr.oscPhase 256 c8).wellFormed = false ∧ (Instr.oscKind 256 .saw).wellFormed = false ∧
      (Instr.oscStep 256).wellFormed = false := by decide
theorem test_illformed_syn :
    (Instr.synSetup 256 0 c8).wellFormed = false ∧ (Instr.synSetup 0 128 c8).wellFormed = false ∧
      (Instr.synRetune 128).wellFormed = false := by decide
theorem test_illformed_dly :
    (Instr.dlySize (-2147483649)).wellFormed = false ∧ (Instr.dlyTime 2147483648).wellFormed = false := by decide
theorem test_illformed_trg :
    (Instr.trgRange 128 0).wellFormed = false ∧ (Instr.trgRange 0 128).wellFormed = false := by decide
theorem test_illformed_process : (Instr.process 65536).wellFormed = false := by decide
theorem test_illformed_not_encoded : encode (.process 65536) = [] := by decide

/-! ### Decoding: words written out from R69, a binary one for each family (OPC, LEN, RSV, IMM16) -/

theorem test_decode_system :
    decode 0b00000000_0000_0000_0000000000000000#32 [] = .ok .nop ∧
      decode 0b00000001_0000_0000_0000000000000000#32 [] = .ok .reset ∧
      decode 0b00000010_0000_0000_0000000000000000#32 [] = .ok .clrErr ∧
      decode 0b00000011_0000_0000_0001000010000010#32 [] = .ok (.regRd 0x1082) ∧
      decode 0b00000100_0001_0000_0000000000000000#32 [0x00000002#32] = .ok (.bufRd 2) := by decide
theorem test_decode_osc :
    decode 0b00010000_0010_0000_00000000_00000000#32 [0#32, 0x40200000#32] = .ok (.oscSr 0 c8) ∧
      decode 0b00010001_0010_0000_00000000_00000000#32 [0#32, 0x40C77000#32] =
        .ok (.oscFreq 0 0x40C7700000000000#64) ∧
      decode 0b00010010_0010_0000_00000000_00000000#32 [0x33333333#32, 0x3FD33333#32] =
        .ok (.oscPhase 0 cPoint3) ∧
      decode 0b00010011_0000_0000_000000_11_00000000#32 [] = .ok (.oscKind 0 .square) ∧
      decode 0b00010011_0000_0000_000000_01_00000101#32 [] = .ok (.oscKind 5 .triangle) ∧
      decode 0b00010100_0000_0000_00000000_00010111#32 [] = .ok (.oscStep 23) := by decide
theorem test_decode_syn :
    decode 0b00100000_0010_0000_00010000_0_1111111#32 [0#32, 0x40E77000#32] = .ok (.synSetup 16 127 c48000) ∧
      decode 0b00100001_0000_0000_000000000_1010001#32 [] = .ok (.synRetune 81) ∧
      decode 0b00100010_0000_0000_0000000000000000#32 [] = .ok .synStep := by decide
theorem test_decode_flt :
    decode 0b00110000_1100_0000_0000000000000000#32
        [ 0#32, 0x40E77000#32, 0#32, 0x3FF00000#32, 0#32, 0x3FE00000#32, 0#32, 0x40913000#32, 0#32, 0x3FD00000#32,
          0#32, 0x40140000#32 ] =
      .ok (.fltSetup c48000 cOne cHalf c1100 cQuarter cFive) ∧
      decode 0b00110001_0010_0000_0000000000000000#32 [0#32, 0x3FF00000#32] = .ok (.fltStep cOne) := by decide
theorem test_decode_dly :
    decode 0b01000000_0001_0000_0000000000000000#32 [0x00000004#32] = .ok (.dlySize 4) ∧
      decode 0b01000001_0001_0000_0000000000000000#32 [0xFFFFFFFF#32] = .ok (.dlyTime (-1)) ∧
      decode 0b01000010_0010_0000_0000000000000000#32 [0#32, 0x3FE00000#32] = .ok (.dlyFb cHalf) ∧
      decode 0b01000011_0010_0000_0000000000000000#32 [0#32, 0x3FF00000#32] = .ok (.dlyStep cOne) := by decide
theorem test_decode_pan :
    decode 0b01010000_1000_0000_0000000000000000#32
        [0#32, 0x40E77000#32, 0#32, 0x3FF00000#32, 0#32, 0x3FE00000#32, 0x33333333#32, 0x3FD33333#32] =
      .ok (.panSetup c48000 cOne cHalf cPoint3) ∧
      decode 0b01010001_0010_0000_0000000000000000#32 [0#32, 0x3FE00000#32] = .ok (.panThr cHalf) ∧
      decode 0b01010010_0000_0000_0000000000000000#32 [] = .ok .panStep := by decide
theorem test_decode_pipeline :
    decode 0b01100000_0010_0000_0000000000000000#32 [0#32, 0x3FE00000#32] = .ok (.mixGain cHalf) ∧
      decode 0b01100001_0000_0000_0_0110000_0_1001000#32 [] = .ok (.trgRange 72 48) ∧
      decode 0b01100010_0000_0000_0000000000000110#32 [] = .ok (.process 6) := by decide
theorem test_decode_illegal :
    decode 0x05000000#32 [] = .error .unknownOpc ∧ decode 0x00100000#32 [0x12345678#32] = .error .wrongLen ∧
      decode 0x22010000#32 [] = .error .rsvNonzero ∧ decode 0x13000400#32 [] = .error .reservedImm ∧
      decode 0x20200080#32 [0#32, 0x40E77000#32] = .error .reservedImm ∧
      decode 0x43100000#32 [0x00000005#32] = .error .wrongLen := by decide
theorem test_table_word :
    decodeTableWord 32 0x42200000 = some (.dlyFb cZero) ∧ decodeTableWord 64 0x0000000440100000 = some (.dlySize 4) ∧
      decodeTableWord 32 0x05000000 = none := by decide
theorem test_fetch_word :
    (match step (State.reset.withFetchWord 64 0x0000000440100000) with
      | .next t => (t.ports.cmd, t.ports.resp, t.dly.size)
      | _ => ([], [], 0)) = ([], [0x40000000#32], 4#32) := by decide +kernel

/-! ### The assembler (R73, R74) -/

theorem test_asm_harmonic : Asm.assemble "osc.step h15" = .ok [0x14000017#32] := by decide +kernel
theorem test_asm_register : Asm.assemble "reg.rd osc[h0].DELTA" = .ok [0x03001082#32] := by decide +kernel
theorem test_asm_real :
    Asm.assemble "osc.phase pulse, 0.3" = .ok [0x12200000#32, 0x33333333#32, 0x3FD33333#32] := by decide +kernel
theorem test_asm_pseudo :
    Asm.assemble "dly.init 4, 2, 0.5" =
      .ok [0x40100000#32, 4#32, 0x41100000#32, 2#32, 0x42200000#32, 0#32, 0x3FE00000#32] ∧
      Asm.assemble "trg.note 69" = .ok [0x61004545#32] := by decide +kernel

/-! ### System commands (95 sections 9 and 10, P1, P3) -/

theorem test_nop : answer .nop errState = [0x00000000#32] ∧ (after .nop errState).record = errState.record := by
  decide +kernel
theorem test_reset : answer .reset readyState = [0x01000000#32] ∧ regAfter .reset readyState 0x1004 = some 3#64 := by
  decide +kernel
theorem test_clrErr :
    answer .clrErr errState = [0x02000000#32] ∧ (after .clrErr errState).record = ErrRecord.reset := by
  decide +kernel
theorem test_regRd :
    answer (.regRd 0x0001) errState = [0x03000000#32, 0x42200000#32, 0#32] ∧
      answer (.regRd 0x0008) State.reset = [0x03000000#32, 0x44524E01#32, 0#32] ∧
      answer (.regRd 0x000A) State.reset = [0x03000000#32, 0x00010000#32, 0#32] ∧
      answer (.regRd 0x1014) State.reset = [0x03000000#32, 1#32, 0#32] := by decide +kernel
theorem test_regRd_rejected :
    answer (.regRd 0x000B) State.reset = [0x03008012#32] ∧ regAfter (.regRd 0x000B) State.reset 0 = some 0x1201#64 ∧
      answer (.regRd 0x1060) State.reset = [0x03008012#32] ∧ answer (.regRd 0x1006) State.reset = [0x03008012#32] ∧
      answer (.regRd 0x10B1) readyState = [0x03008012#32] := by decide +kernel
theorem test_bufRd :
    answer (.bufRd 2) { sizedState with buf := [(2, cOne)] } = [0x04000000#32, 0#32, 0x3FF00000#32] ∧
      answer (.bufRd 4) sizedState = [0x04008013#32] ∧ answer (.bufRd (-1)) sizedState = [0x04008013#32] ∧
      answer (.bufRd 0) State.reset = [0x04008013#32] := by decide +kernel
theorem test_pending :
    answer (.dlyTime 2) errState = [0x41008014#32] ∧ regAfter (.dlyTime 2) errState 0 = some 0x403#64 ∧
      answer (.bufRd 9) errState = [0x04008013#32] ∧ regAfter (.bufRd 9) errState 1 = some 0x42200000#64 := by
  decide +kernel
theorem test_status_cfg :
    readReg readyState 0 = some 4#64 ∧ readReg readyState 2 = some 0x3FF#64 ∧ readReg errState 0 = some 0x401#64 := by
  decide +kernel

/-! ### Oscillators (95 section 3) -/

theorem test_oscSr :
    regAfter (.oscSr 0 0x4030000000000000#64) (sawAt cZero) 0x1002 = some 0x3FC0000000000000#64 ∧
      answer (.oscSr 0 cNegZero) State.reset = [0x10008001#32] ∧ answer (.oscSr 0 cInf) State.reset = [0x10008001#32] ∧
      answer (.oscSr 1 c8) State.reset = [0x10008011#32] := by decide +kernel
theorem test_oscFreq :
    regAfter (.oscFreq 0 cNegOne) (sawAt cZero) 0x1002 = some 0xBFC0000000000000#64 ∧
      answer (.oscFreq 0 cOne) State.reset = [0x11008006#32] := by decide +kernel
theorem test_oscPhase :
    regAfter (.oscPhase 0 cPoint3) State.reset 0x1003 = some cPoint3 ∧
      answer (.oscPhase 0 cNaN) State.reset = [0x1200800B#32] := by decide +kernel
theorem test_oscKind : regAfter (.oscKind 0 .saw) State.reset 0x1004 = some 2#64 := by decide +kernel
theorem test_oscStep :
    answer (.oscStep 0) (sawAt cZero) = [0x14000000#32, 0#32, 0xBFD80000#32] ∧
      answer (.oscStep 0) (sawAt 0x3FEC000000000000#64) = [0x14000000#32, 0#32, 0x3FE00000#32] ∧
      regAfter (.oscStep 0) (sawAt 0x3FEC000000000000#64) 0x1003 = some cOne ∧
      regAfter (.oscStep 0) (sawAt cOne) 0x1003 = some 0x3FC0000000000000#64 := by decide +kernel
theorem test_oscStep_rejected :
    answer (.oscStep 6) State.reset = [0x14008011#32] ∧ answer (.oscStep 8) State.reset = [0x14008011#32] ∧
      answer (.oscStep 0) State.reset = [0x14008009#32] := by decide +kernel
theorem test_wave_sine :
    wave .sine 0x3FC0000000000000#64 = 0x3FE6A09E667F3BCC#64 ∧
      wave .sine 0x3FD8000000000000#64 = 0x3FE6A09E667F3BCD#64 ∧
      wave .sine cOne = 0xBCB1A62633145C07#64 := by decide +kernel
theorem test_wave_other :
    wave .triangle cQuarter = 0xBFD0000000000000#64 ∧ wave .square cHalf = cHalf ∧
      wave .square 0x3FE4000000000000#64 = cNegHalf ∧ wave .triangle cOne = cZero := by decide +kernel

/-! ### Synth (95 section 4) -/

theorem test_synSetup :
    regAfter (.synSetup 3 60 c48000) State.reset 0x10A1 = some 0x4088870379241601#64 ∧
      regAfter (.synSetup 16 127 c48000) State.reset 0x1172 = some 0x4010B9A2AEF42D0D#64 := by decide +kernel
theorem test_synSetup_rejected :
    answer (.synSetup 0 60 cZero) State.reset = [0x20008001#32] ∧
      answer (.synSetup 17 60 c48000) State.reset = [0x20008007#32] := by decide +kernel
theorem test_synRetune :
    regAfter (.synRetune 69) readyState 0x1091 = some 0x408B800000000000#64 ∧
      answer (.synRetune 60) State.reset = [0x21008008#32] := by decide +kernel
theorem test_synStep :
    answer .synStep readyState = [0x22000000#32, 0xF8157D7B#32, 0x3F9184B0#32] ∧
      answer .synStep State.reset = [0x22008009#32] := by decide +kernel

/-! ### Filter (95 section 5) -/

theorem test_fltSetup :
    regAfter (.fltSetup c48000 cOne cHalf c1100 cQuarter cFive) State.reset 0x1022 = some 0x3EE5D867C3ECE2A5#64 ∧
      regAfter (.fltSetup c48000 cOne cHalf c1100 cQuarter cFive) State.reset 0x1033 = some c077 := by decide +kernel
theorem test_fltSetup_rejected :
    answer (.fltSetup c48000 cOne cHalf c500 cQuarter cFive) State.reset = [0x3000800D#32] ∧
      answer (.fltSetup c48000 cOne cHalf 0x40D6F30000000000#64 cQuarter cFive) State.reset = [0x3000800D#32] ∧
      answer (.fltSetup c48000 cOne cHalf 0x40D6F2C000000000#64 cQuarter cFive) State.reset = [0x30000000#32] ∧
      answer (.fltSetup c48000 cInf cHalf c1100 cQuarter cFive) State.reset = [0x3000800B#32] := by decide +kernel
theorem test_fltStep :
    answer (.fltStep cOne) readyState = [0x31000000#32, 0x89F8F00A#32, 0xBE754198#32] ∧
      regAfter (.fltStep cOne) readyState 0x0023 = some 0x408D8BAEDBA716EF#64 := by decide +kernel
theorem test_fltStep_zero :
    regAfter (.fltStep cZero) readyState 0x002B = some cNegZero ∧
      answer (.fltStep cNaN) readyState = [0x3100800B#32] := by decide +kernel

/-! ### Delay line (95 sections 1.4 and 6) -/

theorem test_dlySize :
    answer (.dlySize 65536) State.reset = [0x40000000#32] ∧ answer (.dlySize 65537) State.reset = [0x4000800A#32] ∧
      answer (.dlySize 0) State.reset = [0x40008002#32] ∧ answer (.dlySize (-1)) State.reset = [0x40008002#32] := by
  decide +kernel
theorem test_dlySize_again : regAfter (.dlySize 8) readyState 2 = some 0x3F7#64 := by decide +kernel
theorem test_dlyTime :
    regAfter (.dlyTime 4)
        { sizedState with dly := { size := 5#32, wp := 3#32, rp := 2#32, time := 1#32, fb := cZero } } 0x32 =
      some 4#64 ∧
      answer (.dlyTime 4) sizedState = [0x41008003#32] ∧ answer (.dlyTime (-1)) sizedState = [0x41008003#32] ∧
      answer (.dlyTime 2) State.reset = [0x41008008#32] := by decide +kernel
theorem test_dlyFb :
    regAfter (.dlyFb cNegZero) sizedState 0x34 = some cNegZero ∧ answer (.dlyFb cOne) sizedState = [0x42008004#32] ∧
      answer (.dlyFb cNaN) sizedState = [0x42008004#32] ∧
      answer (.dlyFb 0x3FEFFFFFFFFFFFFF#64) sizedState = [0x42000000#32] := by decide +kernel
theorem test_dlyStep :
    answer (.dlyStep cOne) readyState = [0x43000000#32, 0#32, 0x3FE00000#32] ∧
      (after (.dlyStep cOne) { readyState with buf := [(2, cHalf)] }).buf = [(0, 0x3FE8000000000000#64), (2, cHalf)] ∧
      answer (.dlyStep cOne) sizedState = [0x43008009#32] := by decide +kernel
theorem test_dlyStep_pointers :
    regAfter (.dlyStep cOne) { readyState with dly := { readyState.dly with wp := 3#32, rp := 1#32 } } 0x31 =
      some 0#64 := by decide +kernel

/-! ### Panner (95 section 7) -/

/-- The panner after `pan.setup 8.0, 1.0, 1.0, 0.3` (95_test_vectors.md section 7.1). -/
def panState (order : PanOrder) : State :=
  { State.reset with
    params := { Config.params with panOrder := order }
    cfg := { CfgBits.reset with pan := true }
    bank :=
      { State.reset.bank with
        pan := { (sawAt 0x3FE6A09E667F3BCD#64).bank.pulse with kind := .sine }
        pmod := { (sawAt 0x3FD8000000000000#64).bank.pulse with kind := .sine } }
    pan := { thr := cPoint3, gr := cZero, gl := cZero } }

theorem test_panSetup :
    regAfter (.panSetup c8 cOne cOne cPoint3) State.reset 0x1043 = some 0x3FE6A09E667F3BCD#64 ∧
      regAfter (.panSetup c8 cOne cOne cPoint3) State.reset 0x1053 = some 0x3FD8000000000000#64 := by decide +kernel
theorem test_panSetup_rejected :
    answer (.panSetup c8 cOne cOne cOne) State.reset = [0x50008005#32] ∧
      answer (.panSetup 0xC020000000000000#64 cOne cOne cPoint3) State.reset = [0x50008001#32] := by decide +kernel
theorem test_panThr :
    regAfter (.panThr cHalf) (panState .a) 0x40 = some cHalf ∧
      regAfter (.panThr cHalf) (panState .a) 0x41 = some cZero ∧
      answer (.panThr cPoint3) State.reset = [0x51008008#32] ∧
      answer (.panThr cNaN) (panState .a) = [0x51008005#32] := by decide +kernel
theorem test_panStep_a :
    answer .panStep (panState .a) =
      [0x52000000#32, 0x333F9DE8#32, 0x3FEB504F#32, 0x33333333#32, 0x3FD33333#32] ∧
      regAfter .panStep (panState .a) 0x1043 = some 0x3FC0000000000004#64 := by decide +kernel
theorem test_panStep_b :
    answer .panStep (panState .b) =
      [0x52000000#32, 0x33333333#32, 0x3FD33333#32, 0x66666666#32, 0x3FE66666#32] := by decide +kernel

/-! ### Pipeline (95 section 8, P5) -/

theorem test_mixGain :
    regAfter (.mixGain cHalf) State.reset 4 = some cHalf ∧ answer (.mixGain cInf) State.reset = [0x6000800B#32] := by
  decide +kernel
theorem test_trgRange :
    regAfter (.trgRange 48 72) State.reset 5 = some 0x4830#64 ∧
      answer (.trgRange 72 48) State.reset = [0x6100800C#32] := by decide +kernel
theorem test_drawnNote :
    drawnNote 0x4830#32 24#32 = 72 ∧ drawnNote 0x4830#32 25#32 = 48 ∧ drawnNote 0x4830#32 0xFFFFFFFF#32 = 68 ∧
      drawnNote 0x4545#32 0xFFFFFFFF#32 = 69 := by decide
theorem test_process :
    answer (.process 1) readyState = [0x62000000#32, 0xAF3A2996#32, 0xAF3A360F#32] ∧
      answer (.process 1) State.reset = [0x62008009#32] := by decide +kernel
theorem test_trigger_modes :
    (trigger { readyState with trig := { prevValid := true, prev := cNegHalf } }).ports.drawn = 1 ∧
      (trigger readyState).ports.drawn = 0 ∧
      (trigger { readyState with params := { Config.params with trigMode := .level } }).ports.drawn = 1 := by
  decide +kernel

/-! ### Arithmetic -/

/-- π/2 from Machin's formula, the alternating series from term `k` on. -/
def atanInv (scale x : Nat) : Nat → Nat → Nat
  | 0, _ => 0
  | n + 1, k => scale / ((2 * k + 1) * x ^ (2 * k + 1)) - atanInv scale x n (k + 1)

/-- ln 2 = 2 · artanh(1/3), from term `k` on. -/
def artanhThird (scale : Nat) : Nat → Nat → Nat
  | 0, _ => 0
  | n + 1, k => scale / ((2 * k + 1) * 3 ^ (2 * k + 1)) + artanhThird scale n (k + 1)

theorem test_halfPi : halfPiFix = (8 * atanInv (2 ^ 1640) 5 360 0 - 2 * atanInv (2 ^ 1640) 239 110 0) / 2 ^ 40 := by
  decide +kernel
theorem test_ln2 : ln2Fix = 2 * artanhThird (2 ^ 552) 180 0 / 2 ^ 40 := by decide +kernel
theorem test_fundamental :
    fundamental 69 = c440 ∧ fundamental 21 = 0x403B800000000000#64 ∧ fundamental 60 = 0x40705A0250C2B956#64 := by
  decide +kernel
theorem test_ties_to_even :
    fAdd cOne 0x3CA0000000000000#64 = cOne ∧
      fAdd 0x3FF0000000000001#64 0x3CA0000000000000#64 = 0x3FF0000000000002#64 := by decide +kernel
theorem test_toF32 :
    toF32 0x3810000000000000#64 = 0x00800000#32 ∧ toF32 0x47EFFFFFF0000000#64 = 0x7F800000#32 ∧
      toF32 0x47EFFFFFEFFFFFFF#64 = 0x7F7FFFFF#32 ∧ toF32 0x8000000000000000#64 = 0x80000000#32 := by decide +kernel

/-! ### Witnesses: for each obligation a state and operands that meet its hypotheses -/

/-- A state that meets the delay invariant: program P5's. -/
theorem delayOk_readyState : DelayOk readyState := by
  refine ⟨by decide, by decide, fun _ => by decide, fun _ => by decide, fun _ => by decide, fun _ => rfl,
    fun _ => ⟨rfl, by decide +kernel⟩, rfl, fun c hc => absurd hc List.not_mem_nil⟩

theorem setUp_osc48 (kind : WaveKind) (freq delta phase : F64) : (osc48 kind freq delta phase).SetUp :=
  ⟨rfl, rfl, (by decide +kernel : badRate c48000 = false)⟩

theorem witness_StepKeepsInv : readyState.Inv ∧ (match step readyState with | .next _ => true | _ => false) = true := by
  refine ⟨⟨by decide, by decide, ⟨fun _ => ⟨rfl, rfl, rfl⟩, fun h => by cases h⟩, rfl,
    ⟨rfl, rfl, rfl, rfl, rfl, by decide⟩, by decide, ?_, by decide, fun _ => setUp_osc48 _ _ _ _,
    fun _ => (setUp_osc48 .sine 0 0 0).rate, fun _ => ⟨setUp_osc48 _ _ _ _, setUp_osc48 _ _ _ _, setUp_osc48 _ _ _ _,
      (setUp_osc48 .sine 0 0 0).rate, by decide +kernel, by decide +kernel, by decide +kernel⟩,
    delayOk_readyState, fun _ => ⟨setUp_osc48 _ _ _ _, setUp_osc48 _ _ _ _, by decide +kernel⟩, by decide +kernel,
    by decide +kernel, fun _ => rfl⟩, by decide +kernel⟩
  intro i o hi ho
  have hi' : i < 3 := hi
  rcases i with _ | _ | _ | i
  · cases ho; exact setUp_osc48 _ _ _ _
  · cases ho; exact setUp_osc48 _ _ _ _
  · cases ho; exact setUp_osc48 _ _ _ _
  · omega

theorem witness_StepNeverStops : readyState.Inv := witness_StepKeepsInv.1

theorem witness_ResetMeetsInv :
    1 ≤ ({ Config.params with maxHarm := 248, delayCapacity := 2147483647 } : Params).maxHarm ∧
      (248 : Nat) ≤ 248 ∧ (1 : Nat) ≤ 2147483647 ∧ (2147483647 : Nat) ≤ 2147483647 := by decide

/-- Every field at the end of its range. -/
theorem witness_DecodeOfEncode :
    (Instr.regRd 65535).wellFormed = true ∧ (Instr.bufRd (-2147483648)).wellFormed = true ∧
      (Instr.oscKind 255 .square).wellFormed = true ∧ (Instr.synSetup 255 127 cNaN).wellFormed = true ∧
      (Instr.dlySize 2147483647).wellFormed = true ∧ (Instr.trgRange 127 127).wellFormed = true ∧
      (Instr.process 65535).wellFormed = true ∧ Instr.panStep.wellFormed = true := by decide

theorem witness_EncodeOfDecode : decode 0x14000017#32 [] = .ok (.oscStep 23) := by decide

theorem witness_RowsNeverOverlap :
    (∃ r, rows[0]? = some r ∧ r.accepts 0#32 = true ∧ r ∈ rows ∧ ([] : List Word).length = lenOf 0#32) ∧
      (∀ r ∈ rows, r.accepts 0x05000000#32 = false) :=
  ⟨⟨_, rfl, by decide, List.mem_cons_self, rfl⟩, by decide⟩

/-- A legal word, and one illegal for each reason of R71, each with its LEN operand words. -/
theorem witness_IllegalWordsRejected :
    LegalWord 0x42200000#32 ∧ ¬ LegalWord 0x05000000#32 ∧ ¬ LegalWord 0x00100000#32 ∧ ¬ LegalWord 0x22010000#32 ∧
      ¬ LegalWord 0x13000400#32 ∧ [0x12345678#32].length = lenOf 0x00100000#32 ∧
      (given [0x00100000#32, 0x12345678#32, 0#32] State.reset).ports.pin = .released := by
  unfold LegalWord
  decide

theorem witness_PortWordsAreLittleEndian : (3 : Nat) < 4 ∧ [0x00000004#32].length = lenOf 0x40100000#32 := by decide

theorem witness_StepRunsCommand :
    (given [0x40100000#32, 0x00000004#32] State.reset).ports.pin = .released ∧
      decode 0x40100000#32 [0x00000004#32] = .ok (.dlySize 4) := by decide

theorem witness_StepWaitsForCommand :
    State.reset.ports.pin = .released ∧ State.reset.ports.cmd = [] ∧
      (∃ w arrived, (given [0x42200000#32, 0#32] State.reset).ports.cmd = w :: arrived ∧
        arrived.length < lenOf w) := ⟨rfl, rfl, _, _, rfl, by decide⟩

/-- The pin between commands; during a command that waits for operands; during one when no word, one word and every
word of its response is out; during a PROCESS whose sample step has begun. -/
def pinned (pin : ResetPin) (ws : List Word) : State :=
  { readyState with ports := { readyState.ports with cmd := ws, pin := pin } }

theorem witness_ResetInput :
    (match step (pinned .betweenCommands [0#32]) with | .next t => t.ports.cmd | _ => []) = [0#32] ∧
      (match step (pinned (.during 0 false) [0x42200000#32, 0#32]) with | .next t => t.ports.resp | _ => [1#32]) = [] ∧
      (match step (pinned (.during 0 false) [0x03000008#32]) with | .next t => t.ports.resp | _ => [1#32]) = [] ∧
      (match step (pinned (.during 2 false) [0x03000008#32, 5#32]) with | .next t => t.ports.resp | _ => []) =
        [0x03000000#32, 0x44524E01#32] ∧
      (match step (pinned (.during 3 false) [0x03000008#32]) with | .next t => t.ports.resp | _ => []) =
        [0x03000000#32, 0x44524E01#32, 0#32] ∧
      (match step (pinned .released [0x03000008#32]) with | .next t => t.ports.resp | _ => []) =
        [0x03000000#32, 0x44524E01#32, 0#32] := by decide +kernel

/-- R148: after the reset the next word sent is a command word, so the words of an incomplete command are dropped; the
whole commands waiting (here `nop`, then `dly.size` with its operand) stay. -/
theorem witness_ResetInput_incomplete :
    let waiting : List Word := [0x00000000#32, 0x40100000#32, 5#32, 0x41100000#32]
    (match step (pinned .betweenCommands waiting) with | .next t => t.ports.cmd | _ => []) = waiting.take 3 ∧
      (match step (pinned (.during 0 false) waiting) with | .next t => t.ports.cmd | _ => []) =
        [0x40100000#32, 5#32] ∧
      splitCommand [0x41100000#32] = none := by decide +kernel

/-- One draw is consumed by the sample step under way when the pin is asserted (R148). -/
theorem witness_ResetInput_draw :
    (match step
        { readyState with
          params := { Config.params with trigMode := .level }
          ports := { readyState.ports with cmd := [0x62000006#32], pin := .during 1 true } } with
      | .next t => t.ports.drawn
      | _ => 0) = 1 := by decide +kernel

/-- The state and the command of the clause on the draws of an abandoned `process`, with its two sample steps begun. -/
theorem witness_ResetInput_process :
    decode 0x62000006#32 [] = .ok (.process 6) ∧ min 6 (stepsBegun 3 true) = 2 ∧
      (match exec (.process 2) readyState with | .next _ => true | _ => false) = true := by decide +kernel

theorem witness_NopAndClrErr : State.reset.record.err = false ∧ State.reset.record.Ok :=
  ⟨rfl, fun _ => ⟨rfl, rfl, rfl⟩, fun h => by cases h⟩

theorem witness_RegRd : readReg readyState 0x1035 = some 3#64 ∧ readReg readyState 0x1036 = none := by decide

/-- Field addresses at both ends of the bank. -/
theorem witness_RegisterMap :
    readyState.syn.count.toNat ≤ readyState.bank.harm.length ∧ (osc? readyState 0).isSome = true ∧
      (osc? readyState 10).isSome = true ∧ osc? readyState 11 = none ∧ osc? readyState 6 = none := by decide

theorem witness_StatusAndCfgBits : (3 : Nat) ≤ 7 ∧ (7 : Nat) < 8 ∧ (16 : Nat) ≤ 31 ∧ (10 : Nat) ≤ 31 := by decide

theorem witness_ParametersNeverChange :
    Config.params.maxHarm < 256 ∧ Config.params.delayCapacity < 2 ^ 32 ∧
      (match step (given [0x01000000#32] readyState) with
        | .next t => decide (t.params = readyState.params)
        | _ => false) = true := by decide +kernel

theorem witness_BufRd :
    State.reset.cfg.dsize = false ∧ (-1 : Int) < 0 ∧ (sizedState.dly.size.toNat : Int) ≤ 4 ∧
      sizedState.cfg.dsize = true ∧ (0 : Int) ≤ 0 ∧ (3 : Int) < sizedState.dly.size.toNat := by decide

/-- A first and a further rejection; an acceptance. -/
theorem witness_RejectionRecord :
    State.reset.record.err = false ∧ errState.record.err = true ∧
      (match exec .panStep State.reset with | .next t => t.ports.resp | _ => []) = [0x52008009#32] ∧
      (match exec .nop State.reset with | .next t => t.ports.resp | _ => []) = [0#32] := by decide

theorem witness_RejectionRecord_rejects : Rejects .panStep State.reset .cfgNotConfigured := rfl

theorem witness_PendingErrorBlocks :
    errState.record.err = true ∧ RunsWhilePending .panStep = false ∧ RunsWhilePending (.bufRd 9) = true := by decide

theorem witness_OneResponse :
    (match exec (.process 0) readyState with | .next t => t.ports.resp | _ => []) = [0x62000000#32] := by decide +kernel

theorem witness_OscSr :
    errState.record.err = true ∧ State.reset.record.err = false ∧ (1 : Nat) ≠ 0 ∧
      ¬ (fGt cZero cZero = true ∧ finite cZero = true) ∧ ¬ (fGt cInf cZero = true ∧ finite cInf = true) ∧
      (fGt 0x0000000000000001#64 cZero = true ∧ finite 0x0000000000000001#64 = true) := by decide +kernel

theorem witness_OscFreq :
    (sawAt cZero).record.err = false ∧ (sawAt cZero).bank.pulse.srv = true ∧ State.reset.bank.pulse.srv = false ∧
      finite cInf = false ∧ finite cNegOne = true := by decide +kernel

theorem witness_OscPhaseAndKind : State.reset.record.err = false ∧ finite cNaN = false ∧ finite cNegZero = true := by
  decide

theorem witness_OscStep :
    osc? readyState 6 = none ∧ osc? readyState 11 = none ∧
      osc? readyState 10 = some (bankP5.harm.getD 2 (Osc.reset .sine)) ∧
      (bankP5.harm.getD 2 (Osc.reset .sine)).fqv = true ∧ osc? State.reset 0 = some (Osc.reset .square) ∧
      (Osc.reset .square).fqv = false ∧ readyState.record.err = false := by decide

/-- A sum above 1.0, of each kind. -/
theorem witness_PhaseStaysInUnit (kind : WaveKind) :
    let o := osc48 kind cOne 0x3FEFFFFFFFFFFFFF#64 cOne
    between cZero cOne o.phase = true ∧ fLe cZero o.delta = true ∧ fLt o.delta cOne = true ∧
      fGt (fAdd o.phase o.delta) cOne = true := by
  refine ⟨?_, ?_, ?_, ?_⟩
  · show between cZero cOne cOne = true
    decide +kernel
  · show fLe cZero 0x3FEFFFFFFFFFFFFF#64 = true
    decide +kernel
  · show fLt 0x3FEFFFFFFFFFFFFF#64 cOne = true
    decide +kernel
  · show fGt (fAdd cOne 0x3FEFFFFFFFFFFFFF#64) cOne = true
    decide +kernel

theorem witness_OscillatorBank :
    readyState.syn.count.toNat ≤ readyState.bank.harm.length ∧ isPresent readyState 10 ∧ ¬ isPresent readyState 11 := by
  unfold isPresent
  decide

theorem witness_KindsNeverChange :
    State.reset.bank.KindsFixed ∧ (match exec (.synRetune 69) readyState with | .next _ => true | _ => false) = true ∧
      (∀ osc kind, Instr.synRetune 69 ≠ .oscKind osc kind) :=
  ⟨⟨rfl, rfl, rfl, rfl, rfl, by decide⟩, rfl, fun _ _ h => (by cases h)⟩

theorem witness_SynSetup :
    State.reset.record.err = false ∧ fGt c48000 cZero = true ∧ finite c48000 = true ∧ (0 : Nat) < 1 ∧
      State.reset.params.maxHarm < 17 ∧ (1 : Nat) ≤ 16 ∧ 16 ≤ State.reset.params.maxHarm ∧ (16 : Nat) < 2 ^ 8 ∧
      State.reset.bank.harm[15]? = some (Osc.reset .sine) := by decide +kernel

theorem witness_SynRetune :
    State.reset.cfg.syn = false ∧ readyState.cfg.syn = true ∧ readyState.record.err = false ∧
      (readyState.bank.harm[15]?).isSome = true := by decide

theorem witness_SynStep :
    readyState.record.err = false ∧ readyState.cfg.syn = true ∧
      readyState.syn.count.toNat ≤ readyState.bank.harm.length := by decide

/-- The band's two ends and just inside them. -/
theorem witness_FltSetup :
    ¬ (fGt (fSub c500 c500) cZero = true ∧ fLt (fAdd c500 c500) (fMul c48000 cHalf) = true) ∧
      ¬ (fGt (fSub 0x40D6F30000000000#64 c500) cZero = true ∧
        fLt (fAdd 0x40D6F30000000000#64 c500) (fMul c48000 cHalf) = true) ∧
      (fGt (fSub 0x40D6F2C000000000#64 c500) cZero = true ∧
        fLt (fAdd 0x40D6F2C000000000#64 c500) (fMul c48000 cHalf) = true) ∧
      ¬ (finite cZero = true ∧ fGt cZero cZero = true) ∧ finite cFive = true ∧ fGt cFive cZero = true ∧
      finite cInf = false ∧ fGt c48000 cZero = true ∧ finite c48000 = true ∧ State.reset.record.err = false := by
  decide +kernel

theorem witness_FltStep :
    readyState.record.err = false ∧ readyState.cfg.flt = true ∧ finite cNaN = false ∧ finite cOne = true ∧
      State.reset.cfg.flt = false := by decide

theorem witness_CutoffAndResonanceRanges :
    finite readyState.flt.baseCut = true ∧ badBand readyState.flt.sr readyState.flt.baseCut = false ∧
      finite readyState.flt.baseRes = true ∧ fGt readyState.flt.baseRes cZero = true ∧
      between cNegOne cOne (stepOut readyState.bank.lfoCut) = true ∧
      between cNegOne cOne (stepOut readyState.bank.lfoRes) = true := by decide +kernel

theorem witness_DlySize :
    State.reset.record.err = false ∧ (0 : Int) ≤ 0 ∧ (State.reset.params.delayCapacity : Int) < 65537 ∧
      (0 : Int) < 1 ∧ (65536 : Int) ≤ State.reset.params.delayCapacity := by decide

theorem witness_DlyTime :
    sizedState.record.err = false ∧ sizedState.cfg.dsize = true ∧ State.reset.cfg.dsize = false ∧ (-1 : Int) < 0 ∧
      (sizedState.dly.size.toNat : Int) ≤ 4 ∧ (0 : Int) ≤ 0 ∧ (3 : Int) < sizedState.dly.size.toNat ∧
      sizedState.dly.wp < sizedState.dly.size := by decide

theorem witness_DlyFb :
    ¬ (fGe cOne cZero = true ∧ fLt cOne cOne = true) ∧ ¬ (fGe cNaN cZero = true ∧ fLt cNaN cOne = true) ∧
      (fGe cNegZero cZero = true ∧ fLt cNegZero cOne = true) ∧
      (fGe 0x3FEFFFFFFFFFFFFF#64 cZero = true ∧ fLt 0x3FEFFFFFFFFFFFFF#64 cOne = true) := by decide +kernel

theorem witness_DlyStep :
    readyState.record.err = false ∧
      (readyState.cfg.dsize = true ∧ readyState.cfg.dtime = true ∧ readyState.cfg.dfb = true) ∧
      readyState.dly.rp < readyState.dly.size ∧ readyState.dly.wp < readyState.dly.size ∧ finite cOne = true ∧
      finite cNaN = false ∧ Memory.wf readyState.buf = true ∧
      ¬ (sizedState.cfg.dsize = true ∧ sizedState.cfg.dtime = true ∧ sizedState.cfg.dfb = true) := by decide

/-- The last clause of `DlyStep`: no feedback. -/
theorem witness_DlyStep_fb :
    ({ readyState with dly := { readyState.dly with fb := cZero } } : State).dly.fb = cZero ∧
      finite (memRead readyState.buf readyState.dly.rp.toNat) = true := by decide

theorem witness_TapDelay :
    DelayOk readyState ∧ readyState.cfg.dtime = true ∧ 1 < tapDelay readyState ∧ readyState.buf = [] :=
  ⟨delayOk_readyState, rfl, by decide, rfl⟩

theorem witness_DelayPointersKept :
    readyState.params.delayCapacity ≤ 2147483647 ∧ DelayOk readyState ∧
      (match exec (.dlyTime 3) readyState with | .next _ => true | _ => false) = true :=
  ⟨by decide, delayOk_readyState, rfl⟩

theorem witness_PanSetup :
    State.reset.record.err = false ∧ fGt c8 cZero = true ∧ finite c8 = true ∧ finite cOne = true ∧ finite cInf = false ∧
      (fGe cZero cZero = true ∧ fLt cZero cOne = true) ∧ ¬ (fGe cOne cZero = true ∧ fLt cOne cOne = true) := by
  decide +kernel

theorem witness_PanThr :
    State.reset.cfg.pan = false ∧ (panState .a).cfg.pan = true ∧ (panState .a).record.err = false ∧
      (fGe cHalf cZero = true ∧ fLt cHalf cOne = true) ∧ ¬ (fGe cNegOne cZero = true ∧ fLt cNegOne cOne = true) := by
  decide +kernel

theorem witness_PanStep :
    (panState .a).record.err = false ∧ (panState .a).cfg.pan = true ∧ (panState .b).record.err = false ∧
      (panState .b).cfg.pan = true ∧ State.reset.cfg.pan = false := by decide

theorem witness_GainFloors :
    between cNegOne cOne (stepOut (panSource (panState .a))) = true ∧
      between cNegOne cOne (stepOut (panSource (panState .b))) = true ∧ outsideUnit (panState .a).pan.thr = false := by
  decide +kernel

theorem witness_MixGainAndTrgRange :
    State.reset.record.err = false ∧ finite cInf = false ∧ finite cNegOne = true ∧ (48 : Nat) < 72 ∧ (0 : Nat) ≤ 127 ∧
      (127 : Nat) < 128 ∧ (69 : Nat) ≤ 69 := by decide

/-- A state whose trigger fires, and one whose trigger does not. -/
theorem witness_TriggerRule :
    fires readyState.params.trigMode { prevValid := true, prev := cZero } (stepOut readyState.bank.pulse) = true ∧
      fires readyState.params.trigMode readyState.trig (stepOut readyState.bank.pulse) = false ∧
      rangeLo readyState.range ≤ rangeHi readyState.range ∧ readyState.params.trigMode = .edge ∧
      readyState.trig.prevValid = false := by decide +kernel

theorem witness_SampleStepStages :
    ready readyState = true ∧ readyState.record.err = false ∧ readyState.dly.rp < readyState.dly.size ∧
      readyState.dly.wp < readyState.dly.size := by decide

theorem witness_ProcessRule :
    ready readyState = true ∧ ready State.reset = false ∧ readyState.record.err = false ∧ errState.record.err = true ∧
      readyState.dly.rp < readyState.dly.size ∧ readyState.dly.wp < readyState.dly.size := by decide

theorem witness_RandomDraws :
    (∀ n, Instr.nop ≠ .process n) ∧ (match exec .nop readyState with | .next _ => true | _ => false) = true ∧
      ({ Ports.quiet with rand := [7#32] } : Ports).rand = 7#32 :: [] ∧ Ports.quiet.rand = [] :=
  ⟨fun _ h => (by cases h), rfl, rfl, rfl⟩

theorem witness_SampleCount :
    (match exec (.process 0) readyState with | .next _ => true | _ => false) = true ∧
      (match exec .reset readyState with | .next _ => true | _ => false) = true ∧
      (match exec .panStep readyState with | .next _ => true | _ => false) = true := by decide +kernel

/-- Operands whose sum is finite, one that overflows, a tie, and an exact 0. -/
theorem witness_RoundedSum :
    finite cOne = true ∧ finite (fAdd cOne cOne) = true ∧ finite 0x7FEFFFFFFFFFFFFF#64 = true ∧
      finite (fAdd 0x7FEFFFFFFFFFFFFF#64 0x7FEFFFFFFFFFFFFF#64) = false ∧
      signedUnits cOne + signedUnits cNegOne = 0 ∧ signedUnits cNegZero - signedUnits cZero = 0 := by decide +kernel

theorem witness_RoundedProductAndQuotient :
    finite cOne = true ∧ finite 0x7FEFFFFFFFFFFFFF#64 = true ∧ finite (fMul cOne cHalf) = true ∧
      finite (fMul 0x7FEFFFFFFFFFFFFF#64 cTwo) = false ∧ finite (fDiv 0x7FEFFFFFFFFFFFFF#64 cHalf) = false ∧
      signedUnits cNegHalf ≠ 0 := by decide +kernel

theorem witness_FloatSpecials :
    isNaN cNaN = true ∧ isNaN cOne = false ∧ isInf cInf = true ∧ isNeg cInf = isNeg cInf ∧
      isInf 0xFFF0000000000000#64 = true ∧ isNeg cInf ≠ isNeg 0xFFF0000000000000#64 ∧ units cNegZero = 0 ∧
      finite cNegOne = true ∧ finite cZero = true ∧ units cNegOne ≠ 0 ∧ (2 ^ 53 : Nat) ≤ 2 ^ 53 := by decide +kernel

/-- A finite result, an infinite one, and values at the threshold between them. -/
theorem witness_ToF32 :
    finite cOne = true ∧ finite32 (toF32 cOne) = true ∧ finite32 (toF32 0x47EFFFFFEFFFFFFF#64) = true ∧
      finite32 (toF32 0x47EFFFFFF0000000#64) = false := by decide +kernel

theorem witness_TranscendentalLaws :
    finite 0x7FEFFFFFFFFFFFFF#64 = true ∧ between cNegSix cFive cNegSix = true ∧ between cNegSix cFive cFive = true ∧
      fGt 0x3FF921FB54442D17#64 cZero = true ∧ fLt 0x3FF921FB54442D17#64 (fDiv cPi cTwo) = true ∧
      fGt 0x0000000000000001#64 cZero = true := by decide +kernel

theorem witness_FrameRegisters :
    (match exec (.mixGain cHalf) readyState with | .next _ => true | _ => false) = true ∧
      mayWrite (.mixGain cHalf) 0x1003 = false ∧ (Instr.mixGain cHalf ≠ .reset) ∧
      (∀ n, Instr.mixGain cHalf ≠ .dlySize n) :=
  ⟨rfl, by decide, fun h => (by cases h), fun _ h => (by cases h)⟩

theorem witness_FrameDelay :
    (match exec (.dlyStep cOne) readyState with | .next _ => true | _ => false) = true ∧
      (match exec (.dlySize 4) readyState with | .next _ => true | _ => false) = true ∧
      (3 : Nat) ≠ readyState.dly.wp.toNat :=
  ⟨by decide +kernel, rfl, by decide⟩

theorem witness_FrameProcess :
    (match exec (.process 1) readyState with | .next _ => true | _ => false) = true ∧
      mayWrite (.process 1) 0x1000 = false ∧ ¬ storedByProcess 1 readyState 1 := by
  refine ⟨by decide +kernel, by decide, ?_⟩
  rintro ⟨j, hj, h⟩
  have hj0 : j = 0 := by omega
  subst hj0
  exact absurd h (by decide)

end Sys2Proof.Tests
end

section
/-! The obligations on binary64 arithmetic and its conversion to binary32 (00_scope.md section 4, R15). On finite
operands each operation is one rounding `roundF64 neg n d`, of which Laws/Arith.lean says that it is nearest, even on a
tie and when it overflows; the operations on infinities, NaNs and zero divisors are read off the three cores. -/

namespace Sys2Proof.Machine

/-! ### Kinds of values -/

/-- A value that is neither finite nor a NaN is an infinity. -/
theorem isInf_of_not_finite {x : F64} (hN : isNaN x = false) (hF : finite x = false) : isInf x = true := by
  rw [isNaN_false_iff] at hN
  rw [← Bool.not_eq_true, finite_iff] at hF
  rw [isInf_iff]
  omega

theorem isInf_isNaN {x : F64} (h : isInf x = true) : isNaN x = false := by
  rw [isNaN_false_iff, (isInf_iff x).1 h]

theorem isInf_fNeg (x : F64) : isInf (fNeg x) = isInf x := isInf_congr (magBits_fNeg x)

theorem finite_fNeg (x : F64) : finite (fNeg x) = finite x := finite_congr (magBits_fNeg x)

theorem isNaN_fNeg (x : F64) : isNaN (fNeg x) = isNaN x := isNaN_congr (magBits_fNeg x)

theorem units_eq_zero_iff (x : F64) : units x = 0 ↔ magBits x = 0 := by
  rw [units_eq, ← unitsOf_zero 52]
  exact (unitsOf_strictMono 52).injective.eq_iff

theorem units_ne_zero_of_isInf {x : F64} (h : isInf x = true) : units x ≠ 0 := by
  rw [Ne, units_eq_zero_iff, (isInf_iff x).1 h]
  decide

theorem finite_of_units_eq_zero {x : F64} (h : units x = 0) : finite x = true := by
  rw [finite_iff, (units_eq_zero_iff x).1 h]
  decide

theorem isInf_pack_infBits (neg : Bool) : isInf (pack neg infBits) = true := by
  rw [isInf_iff, magBits_pack infBits_lt]

theorem units_pack_zero (neg : Bool) : units (pack neg 0) = 0 := by
  rw [units_eq_zero_iff, magBits_pack (by decide)]

/-- A zero is its sign. -/
theorem eq_pack_zero_iff (x : F64) (neg : Bool) : x = pack neg 0 ↔ isNeg x = neg ∧ units x = 0 := by
  constructor
  · rintro rfl
    exact ⟨isNeg_pack (by decide), units_pack_zero neg⟩
  · rintro ⟨hs, hu⟩
    apply eq_of_fields
    · rw [hs, isNeg_pack (by decide)]
    · rw [(units_eq_zero_iff x).1 hu, magBits_pack (by decide)]

theorem cZero_eq_pack : cZero = pack false 0 := by decide

theorem cNegZero_eq_pack : cNegZero = pack true 0 := by decide

theorem abs_signedUnits (x : F64) : |signedUnits x| = units x := by
  rw [Int.abs_eq_natAbs, natAbs_signedUnits]

/-! ### Sums and differences -/

/-- A rounding of zero is the zero of its sign. -/
theorem roundF64_zero (neg : Bool) (d : Nat) : roundF64 neg 0 d = pack neg 0 := by
  unfold roundF64
  rw [roundBits_zero]

/-- A sum or a difference is one rounding of the exact whole number, whose sign is the result's unless it is 0. -/
theorem exists_roundF64_of_whole {r : F64} {z : Int} {neg : Bool}
    (hr : r = if z = 0 then pack neg 0 else roundF64 (decide (z < 0)) z.natAbs 1) :
    ∃ s : Bool, r = roundF64 s z.natAbs 1 ∧ z = (if s then -(z.natAbs : Int) else z.natAbs) ∧
      (z ≠ 0 → (s = true ↔ z < 0)) := by
  by_cases hz : z = 0
  · subst hz
    exact ⟨neg, by simp [hr, roundF64_zero], by simp, fun h => absurd rfl h⟩
  · exact ⟨decide (z < 0), by rw [hr, if_neg hz], (neg_natAbs z).symm, fun _ => decide_eq_true_iff⟩

/-- A sum or a difference overflows exactly when its exact value reaches 2^1024 less half a step. -/
theorem finite_roundF64_whole (s : Bool) (z : Int) :
    finite (roundF64 s z.natAbs 1) = false ↔ (2 : Int) ^ 2098 - 2 ^ 2044 ≤ |z| := by
  rw [finite_roundF64 s one_pos, Int.abs_eq_natAbs, ← cast_two_pow_sub (by omega), Nat.mul_one, Nat.cast_le]

theorem overflow_threshold_pos : (0 : Int) < 2 ^ 2098 - 2 ^ 2044 :=
  sub_pos.2 (pow_lt_pow_right₀ one_lt_two (by omega))

/-- Only two −0.0 have negative signs and the sum 0. -/
theorem both_isNeg_iff_of_sum_eq_zero {x y : F64} (h : signedUnits x + signedUnits y = 0) :
    (isNeg x && isNeg y) = true ↔ x = cNegZero ∧ y = cNegZero := by
  rw [cNegZero_eq_pack, eq_pack_zero_iff, eq_pack_zero_iff, Bool.and_eq_true]
  constructor
  · rintro ⟨hnx, hny⟩
    simp only [signedUnits, hnx, hny, if_true] at h
    exact ⟨⟨hnx, by omega⟩, hny, by omega⟩
  · exact fun ⟨hx0, hy0⟩ => ⟨hx0.1, hy0.1⟩

theorem fNeg_eq_cNegZero_iff (y : F64) : fNeg y = cNegZero ↔ y = cZero := by
  rw [cNegZero_eq_pack, cZero_eq_pack, eq_pack_zero_iff, eq_pack_zero_iff, isNeg_fNeg, units_eq_zero_iff,
    units_eq_zero_iff, magBits_fNeg, Bool.not_eq_true']

theorem pack_zero_eq_ite {neg : Bool} {P : Prop} [Decidable P] (h : neg = true ↔ P) :
    pack neg 0 = if P then cNegZero else cZero := by
  cases neg
  · rw [if_neg (by simpa using h), cZero_eq_pack]
  · rw [if_pos (h.1 rfl), cNegZero_eq_pack]

/-- An exact zero sum is +0.0 but for −0.0 + −0.0. -/
theorem fAdd_of_sum_eq_zero {x y : F64} (hx : finite x = true) (hy : finite y = true)
    (h : signedUnits x + signedUnits y = 0) :
    fAdd x y = if x = cNegZero ∧ y = cNegZero then cNegZero else cZero := by
  rw [fAdd_eq hx hy, if_pos h]
  exact pack_zero_eq_ite (both_isNeg_iff_of_sum_eq_zero h)

/-- An exact zero difference is +0.0 but for −0.0 − (+0.0). -/
theorem fSub_of_difference_eq_zero {x y : F64} (hx : finite x = true) (hy : finite y = true)
    (h : signedUnits x - signedUnits y = 0) :
    fSub x y = if x = cNegZero ∧ y = cZero then cNegZero else cZero := by
  have hsum : signedUnits x + signedUnits (fNeg y) = 0 := by rw [signedUnits_fNeg, ← sub_eq_add_neg, h]
  rw [fSub_eq hx hy, if_pos h, ← isNeg_fNeg]
  simp only [← fNeg_eq_cNegZero_iff]
  exact pack_zero_eq_ite (both_isNeg_iff_of_sum_eq_zero hsum)

/-! ### Products and quotients -/

/-- The error of `a` against `num / den` is its error against `n / d`, the sign of `den` taken out. -/
theorem abs_mul_sub_of_signs {num den : Int} {n d : Nat} {s t : Bool} (hden : den = if t then -(d : Int) else d)
    (hnum : num = if s != t then -(n : Int) else n) (a : Int) :
    |a * den - num| = |a * d - (if s then -(n : Int) else n)| := by
  subst hden hnum
  cases t
  · simp
  · rw [← abs_neg]
    congr 1
    cases s <;> simp <;> ring

/-- IEEE 754's laws of an exact result `num / den` with the sign `s`: nearest, even on a tie, and overflow. -/
theorem rounded_ratio {num den : Int} {n d : Nat} {s t : Bool} (hd : 0 < d)
    (hden : den = if t then -(d : Int) else d) (hnum : num = if s != t then -(n : Int) else n) :
    (finite (roundF64 s n d) = true → ∀ v : F64, finite v = true →
      |signedUnits (roundF64 s n d) * den - num| ≤ |signedUnits v * den - num| ∧
      (signedUnits v ≠ signedUnits (roundF64 s n d) →
        |signedUnits (roundF64 s n d) * den - num| = |signedUnits v * den - num| →
        fracField (roundF64 s n d) % 2 = 0)) ∧
    (finite (roundF64 s n d) = false ↔ ((2 : Int) ^ 2098 - 2 ^ 2044) * |den| ≤ |num|) ∧
    (finite (roundF64 s n d) = false → isInf (roundF64 s n d) = true) ∧
    isNeg (roundF64 s n d) = s := by
  have hdAbs : |den| = d := by rw [hden]; cases t <;> simp
  have hnAbs : |num| = n := by rw [hnum]; cases s != t <;> simp
  refine ⟨fun hf v _ => ?_, ?_, isInf_of_not_finite (isNaN_roundF64 s n d), isNeg_roundF64 s n d⟩
  · simp only [abs_mul_sub_of_signs hden hnum]
    exact roundF64_nearest hd hf rfl
  · rw [finite_roundF64 s hd, hdAbs, hnAbs, ← cast_two_pow_sub (by omega), ← Nat.cast_mul, Nat.cast_le]

/-! ### Valid and invalid operations -/

/-! Each operation answers its core's value, or a NaN where the core says that the operation is invalid. -/

theorem fAdd_of_some {x y v : F64} (h : addCore x y = some v) : fAdd x y = v := by
  simp [fAdd, h]

theorem isNaN_fAdd_of_none {x y : F64} (h : addCore x y = none) : isNaN (fAdd x y) = true := by
  simp [fAdd, h, isNaN_nanOf]

theorem fSub_of_some {x y v : F64} (h : addCore x (fNeg y) = some v) : fSub x y = v := by
  simp [fSub, h]

theorem isNaN_fSub_of_none {x y : F64} (h : addCore x (fNeg y) = none) : isNaN (fSub x y) = true := by
  simp [fSub, h, isNaN_nanOf]

theorem fMul_of_some {x y v : F64} (h : mulCore x y = some v) : fMul x y = v := by
  simp [fMul, h]

theorem isNaN_fMul_of_none {x y : F64} (h : mulCore x y = none) : isNaN (fMul x y) = true := by
  simp [fMul, h, isNaN_nanOf]

theorem fDiv_of_some {x y v : F64} (h : divCore x y = some v) : fDiv x y = v := by
  simp [fDiv, h]

theorem isNaN_fDiv_of_none {x y : F64} (h : divCore x y = none) : isNaN (fDiv x y) = true := by
  simp [fDiv, h, isNaN_nanOf]

/-! The cores, one case each. -/

section NaNOperand

variable {x y : F64} (h : isNaN x = true ∨ isNaN y = true)

include h

theorem addCore_of_isNaN : addCore x y = none := by
  rw [← Bool.or_eq_true] at h
  simp only [addCore, h, if_true]

theorem mulCore_of_isNaN : mulCore x y = none := by
  rw [← Bool.or_eq_true] at h
  simp only [mulCore, h, if_true]

theorem divCore_of_isNaN : divCore x y = none := by
  rw [← Bool.or_eq_true] at h
  simp only [divCore, h, if_true]

theorem fLt_of_isNaN : fLt x y = false := by
  rcases h with h | h <;> simp [fLt, h]

theorem fLe_of_isNaN : fLe x y = false := by
  rcases h with h | h <;> simp [fLe, h]

end NaNOperand

section Infinity

variable {x y : F64} (hx : isInf x = true)

include hx

theorem addCore_inf_finite (hy : finite y = true) : addCore x y = some x := by
  simp [addCore, hx, isInf_isNaN hx, finite_isNaN hy, finite_isInf hy]

theorem addCore_finite_inf (hy : finite y = true) : addCore y x = some x := by
  simp [addCore, hx, isInf_isNaN hx, finite_isNaN hy, finite_isInf hy]

theorem addCore_inf_inf (hy : isInf y = true) :
    addCore x y = if isNeg x = isNeg y then some x else none := by
  simp [addCore, hx, hy, isInf_isNaN hx, isInf_isNaN hy]

theorem mulCore_inf_left (hy : isNaN y = false) :
    mulCore x y = if units y = 0 then none else some (pack (isNeg x != isNeg y) infBits) := by
  simp [mulCore, infBits, hx, hy, isInf_isNaN hx, units_ne_zero_of_isInf hx]

theorem mulCore_inf_right (hy : isNaN y = false) : mulCore y x = mulCore x y := by
  rw [mulCore_inf_left hx hy, bne_comm (a := isNeg x)]
  simp [mulCore, infBits, hx, hy, isInf_isNaN hx, units_ne_zero_of_isInf hx]

theorem divCore_inf_inf (hy : isInf y = true) : divCore x y = none := by
  simp [divCore, hx, hy, isInf_isNaN hx, isInf_isNaN hy]

theorem divCore_inf_finite (hy : finite y = true) : divCore x y = some (pack (isNeg x != isNeg y) infBits) := by
  simp [divCore, infBits, hx, isInf_isNaN hx, finite_isNaN hy, finite_isInf hy]

theorem divCore_finite_inf (hy : finite y = true) : divCore y x = some (pack (isNeg x != isNeg y) 0) := by
  rw [bne_comm (a := isNeg x)]
  simp [divCore, hx, isInf_isNaN hx, finite_isNaN hy, finite_isInf hy]

end Infinity

theorem divCore_zero {x y : F64} (hx : finite x = true) (hy : units y = 0) :
    divCore x y = if units x = 0 then none else some (pack (isNeg x != isNeg y) infBits) := by
  have hyf := finite_of_units_eq_zero hy
  simp [divCore, infBits, hy, finite_isNaN hx, finite_isInf hx, finite_isNaN hyf, finite_isInf hyf]

/-! ### Special operands of the operations -/

theorem isNaN_ops_of_isNaN {x y : F64} (h : isNaN x = true ∨ isNaN y = true) :
    isNaN (fAdd x y) = true ∧ isNaN (fSub x y) = true ∧ isNaN (fMul x y) = true ∧ isNaN (fDiv x y) = true :=
  ⟨isNaN_fAdd_of_none (addCore_of_isNaN h), isNaN_fSub_of_none (addCore_of_isNaN (by rwa [isNaN_fNeg])),
    isNaN_fMul_of_none (mulCore_of_isNaN h), isNaN_fDiv_of_none (divCore_of_isNaN h)⟩

/-- Infinities of one sign add to that infinity, and have no difference. -/
theorem inf_inf_same_sign {x y : F64} (hx : isInf x = true) (hy : isInf y = true) (hs : isNeg x = isNeg y) :
    fAdd x y = x ∧ isNaN (fSub x y) = true := by
  constructor
  · exact fAdd_of_some (by rw [addCore_inf_inf hx hy, if_pos hs])
  · refine isNaN_fSub_of_none ?_
    rw [addCore_inf_inf hx ((isInf_fNeg y).trans hy), isNeg_fNeg, if_neg (by simp [hs])]

/-- Infinities of opposite signs have no sum, and differ by the first. -/
theorem inf_inf_opposite_sign {x y : F64} (hx : isInf x = true) (hy : isInf y = true) (hs : isNeg x ≠ isNeg y) :
    isNaN (fAdd x y) = true ∧ fSub x y = x := by
  constructor
  · exact isNaN_fAdd_of_none (by rw [addCore_inf_inf hx hy, if_neg hs])
  · refine fSub_of_some ?_
    rw [addCore_inf_inf hx ((isInf_fNeg y).trans hy), isNeg_fNeg, if_pos (Bool.eq_not_of_ne hs)]

/-- An infinity absorbs a finite operand of a sum or a difference. -/
theorem inf_absorbs_finite {x y : F64} (hx : isInf x = true) (hy : finite y = true) :
    fAdd x y = x ∧ fAdd y x = x ∧ fSub x y = x ∧ fSub y x = fNeg x :=
  ⟨fAdd_of_some (addCore_inf_finite hx hy), fAdd_of_some (addCore_finite_inf hx hy),
    fSub_of_some (addCore_inf_finite hx ((finite_fNeg y).trans hy)),
    fSub_of_some (addCore_finite_inf ((isInf_fNeg x).trans hx) hy)⟩

theorem isInf_and_isNeg_of_pack {r : F64} {neg : Bool} (h : r = pack neg infBits) :
    isInf r = true ∧ isNeg r = neg := by
  subst h
  exact ⟨isInf_pack_infBits neg, isNeg_pack infBits_lt⟩

theorem fDiv_inf_finite {x y : F64} (hx : isInf x = true) (hy : finite y = true) :
    isInf (fDiv x y) = true ∧ isNeg (fDiv x y) = (isNeg x != isNeg y) :=
  isInf_and_isNeg_of_pack (fDiv_of_some (divCore_inf_finite hx hy))

theorem fDiv_finite_inf {x y : F64} (hx : isInf x = true) (hy : finite y = true) :
    units (fDiv y x) = 0 ∧ isNeg (fDiv y x) = (isNeg x != isNeg y) :=
  ((eq_pack_zero_iff _ _).1 (fDiv_of_some (divCore_finite_inf hx hy))).symm

theorem fMul_inf {x y : F64} (hx : isInf x = true) (hy : isNaN y = false) (h0 : units y ≠ 0) :
    isInf (fMul x y) = true ∧ isNeg (fMul x y) = (isNeg x != isNeg y) ∧ fMul y x = fMul x y := by
  have core : mulCore x y = some (pack (isNeg x != isNeg y) infBits) := by rw [mulCore_inf_left hx hy, if_neg h0]
  have hxy := fMul_of_some core
  have hyx := fMul_of_some ((mulCore_inf_right hx hy).trans core)
  obtain ⟨inf, neg⟩ := isInf_and_isNeg_of_pack hxy
  exact ⟨inf, neg, hyx.trans hxy.symm⟩

theorem isNaN_fMul_inf_zero {x y : F64} (hx : isInf x = true) (h0 : units y = 0) :
    isNaN (fMul x y) = true ∧ isNaN (fMul y x) = true := by
  have hy := finite_isNaN (finite_of_units_eq_zero h0)
  have core : mulCore x y = none := by rw [mulCore_inf_left hx hy, if_pos h0]
  exact ⟨isNaN_fMul_of_none core, isNaN_fMul_of_none ((mulCore_inf_right hx hy).trans core)⟩

theorem fDiv_nonzero_zero {x y : F64} (hx : finite x = true) (hx0 : units x ≠ 0) (hy0 : units y = 0) :
    isInf (fDiv x y) = true ∧ isNeg (fDiv x y) = (isNeg x != isNeg y) :=
  isInf_and_isNeg_of_pack (fDiv_of_some (by rw [divCore_zero hx hy0, if_neg hx0]))

theorem isNaN_fDiv_zero_zero {x y : F64} (hx0 : units x = 0) (hy0 : units y = 0) : isNaN (fDiv x y) = true :=
  isNaN_fDiv_of_none (by rw [divCore_zero (finite_of_units_eq_zero hx0) hy0, if_pos hx0])

theorem fOfNat_eq (n : Nat) : fOfNat n = roundF64 false (2 ^ 1074 * n) 1 := by
  unfold fOfNat
  rfl

/-- `f64(n)` is exact up to 2^53: `n` is then one of the format's significands. -/
theorem fOfNat_exact {n : Nat} (hn : n ≤ 2 ^ 53) :
    finite (fOfNat n) = true ∧ signedUnits (fOfNat n) = n * 2 ^ 1074 := by
  obtain ⟨b, hb⟩ := exists_unitsOf 52 1074 n (by omega)
  have hlt : b < infBits := by
    rw [← unitsOf_lt_iff (p := 52), hb, unitsOf_infBits]
    have h1 : n * 2 ^ 1074 ≤ 2 ^ 53 * 2 ^ 1074 := Nat.mul_le_mul_right _ hn
    rw [← pow_add] at h1
    exact h1.trans_lt (Nat.pow_lt_pow_right (by omega) (by omega))
  have hbits : roundBits 53 infBits (2 ^ 1074 * n) 1 = b := by
    have exact_bits := roundBits_unitsOf 52 one_pos hlt.le
    rwa [hb, Nat.mul_one, Nat.mul_comm] at exact_bits
  have hval : fOfNat n = pack false b := (fOfNat_eq n).trans (congrArg (pack false) hbits)
  have hb63 : b < 2 ^ 63 := hlt.trans infBits_lt
  rw [hval, finite_iff, magBits_pack hb63, signedUnits_pack hb63, hb, Nat.cast_mul, cast_two_pow]
  exact ⟨hlt, rfl⟩

/-! ### Conversion of infinities and NaNs to binary32 -/

theorem toF32_of_isInf {x : F64} (h : isInf x = true) : toF32 x = if isNeg x then 0xFF800000#32 else 0x7F800000#32 := by
  simp only [toF32, isInf_isNaN h, h, Bool.false_eq_true, if_false, if_true]
  cases isNeg x <;> rfl

/-- A NaN is converted to a quiet NaN, whatever the free bits are. -/
theorem toF32_of_isNaN {x : F64} (h : isNaN x = true) :
    (toF32 x).toNat / 2 ^ 23 % 2 ^ 8 = 255 ∧ (toF32 x).toNat % 2 ^ 23 ≠ 0 := by
  have hfree := (Config.nanBits32 x).isLt
  simp only [toF32, h, if_true, BitVec.toNat_ofNat]
  omega

/-! ### Rounding to binary32 -/

/-! The fields of a binary32, as Laws/Arith.lean has them of a binary64. -/

/-- The magnitude bits of a binary32 infinity. -/
abbrev infBits32 : Nat := 255 * 2 ^ 23

/-- The binary32 with this sign and these magnitude bits. -/
def pack32 (neg : Bool) (bits : Nat) : F32 := BitVec.ofNat 32 ((if neg then 2 ^ 31 else 0) + bits)

theorem pack32_toNat {neg : Bool} {bits : Nat} (h : bits < 2 ^ 31) :
    (pack32 neg bits).toNat = (if neg then 2 ^ 31 else 0) + bits := by
  unfold pack32
  rw [BitVec.toNat_ofNat, Nat.mod_eq_of_lt]
  split <;> omega

theorem magBits32_pack32 {neg : Bool} {bits : Nat} (h : bits < 2 ^ 31) : (pack32 neg bits).toNat % 2 ^ 31 = bits := by
  rw [pack32_toNat h]
  split <;> omega

theorem neg_pack32_iff {neg : Bool} {bits : Nat} (h : bits < 2 ^ 31) :
    2 ^ 31 ≤ (pack32 neg bits).toNat ↔ neg = true := by
  rw [pack32_toNat h]
  cases neg
  · simpa using h
  · simp

theorem units32_eq (y : F32) : units32 y = unitsOf 23 (y.toNat % 2 ^ 31) := rfl

theorem natAbs_signedUnits32 (y : F32) : (signedUnits32 y).natAbs = units32 y := by
  unfold signedUnits32
  split <;> simp

theorem signedUnits32_pack32 {neg : Bool} {bits : Nat} (h : bits < 2 ^ 31) :
    signedUnits32 (pack32 neg bits) = if neg then -(unitsOf 23 bits : Int) else unitsOf 23 bits := by
  unfold signedUnits32
  rw [units32_eq, magBits32_pack32 h]
  simp only [neg_pack32_iff h]

theorem finite32_iff (y : F32) : finite32 y = true ↔ y.toNat % 2 ^ 31 < infBits32 := by
  have := y.isLt
  unfold finite32 infBits32
  rw [bne_iff_ne]
  omega

/-- The binary32 nearest to plus or minus `n / d` units of 2^−149. -/
def roundF32 (neg : Bool) (n d : Nat) : F32 := pack32 neg (roundBits 24 infBits32 n d)

theorem toF32_of_finite {x : F64} (h : finite x = true) : toF32 x = roundF32 (isNeg x) (units x) (2 ^ 925) := by
  simp only [toF32, finite_isNaN h, finite_isInf h, Bool.false_eq_true, if_false]
  rfl

theorem roundBits32_lt (n d : Nat) : roundBits 24 infBits32 n d < 2 ^ 31 :=
  (roundBits_le_top _ _ _ _).trans_lt (by decide)

theorem magBits32_roundF32 (neg : Bool) (n d : Nat) :
    (roundF32 neg n d).toNat % 2 ^ 31 = roundBits 24 infBits32 n d :=
  magBits32_pack32 (roundBits32_lt n d)

/-- A rounding to binary32 that is not finite is an infinity. -/
theorem finite32_roundF32_eq_false_iff (neg : Bool) (n d : Nat) :
    finite32 (roundF32 neg n d) = false ↔ (roundF32 neg n d).toNat % 2 ^ 31 = infBits32 := by
  have hle := roundBits_le_top 24 infBits32 n d
  rw [← Bool.not_eq_true, finite32_iff, magBits32_roundF32]
  omega

/-- A rounding to binary32 overflows exactly from half a step below 2^128 on. -/
theorem finite32_roundF32 (neg : Bool) {n d : Nat} (hd : 0 < d) :
    finite32 (roundF32 neg n d) = false ↔ (2 ^ 25 - 1) * 2 ^ 252 * d ≤ n := by
  have top := roundBits_top 23 253 (n := n) hd
  have e : ((4 : Nat) * 2 ^ 23 - 1) * 2 ^ 253 = 2 * ((2 ^ 25 - 1) * 2 ^ 252) := by decide
  rw [e, Nat.mul_assoc 2, Nat.mul_le_mul_left_iff two_pos] at top
  rw [finite32_roundF32_eq_false_iff, magBits32_roundF32]
  exact top

/-- A finite rounding to binary32 is the nearest value, even on a tie. -/
theorem roundF32_nearest {neg : Bool} {n d : Nat} (hd : 0 < d) (h : finite32 (roundF32 neg n d) = true) (v : F32)
    {z : Int} (hz : z = if neg then -(n : Int) else n) :
    |signedUnits32 (roundF32 neg n d) * d - z| ≤ |signedUnits32 v * d - z| ∧
    (signedUnits32 v ≠ signedUnits32 (roundF32 neg n d) →
      |signedUnits32 (roundF32 neg n d) * d - z| = |signedUnits32 v * d - z| →
      (roundF32 neg n d).toNat % 2 = 0) := by
  have hlt : roundBits 24 infBits32 n d < infBits32 := by
    rwa [finite32_iff, magBits32_roundF32] at h
  obtain ⟨nearest, even⟩ := roundBits_near_signed 23 hd hlt neg (w := signedUnits32 v) (natAbs_signedUnits32 v)
    (signedUnits32_pack32 (roundBits32_lt n d)) hz
  refine ⟨nearest, fun hne he => ?_⟩
  have hbits : roundBits 24 infBits32 n d % 2 = 0 := (even hne he).resolve_right (by decide)
  rw [← magBits32_roundF32 neg] at hbits
  omega

/-- The threshold of the overflow, 2^128 less half a step, in units of 2^−1074. -/
theorem toF32_threshold : (2 ^ 25 - 1) * 2 ^ 252 * 2 ^ 925 = 2 ^ 1202 - 2 ^ 1177 := by decide +kernel

end Sys2Proof.Machine

/-! ### The obligations -/

namespace Sys2Proof.Scope

open Sys2Proof.Machine

/-- Settles O50: both operations are one rounding of the exact whole number of units. -/
theorem roundedSum : Obligations.RoundedSum := by
  intro x y hx hy r z hrz
  have hround : ∃ neg, r = if z = 0 then pack neg 0 else roundF64 (decide (z < 0)) z.natAbs 1 := by
    rcases hrz with ⟨rfl, rfl⟩ | ⟨rfl, rfl⟩
    · exact ⟨_, fAdd_eq hx hy⟩
    · exact ⟨_, fSub_eq hx hy⟩
  obtain ⟨neg, hr⟩ := hround
  obtain ⟨s, rfl, hz, hs⟩ := exists_roundF64_of_whole hr
  refine ⟨fun hf v _ => ?_, finite_roundF64_whole s z, fun hf => ?_, fAdd_of_sum_eq_zero hx hy,
    fSub_of_difference_eq_zero hx hy⟩
  · simpa using roundF64_nearest (v := v) one_pos hf hz
  · have hz0 : z ≠ 0 := abs_pos.1 (overflow_threshold_pos.trans_le ((finite_roundF64_whole s z).1 hf))
    exact ⟨isInf_of_not_finite (isNaN_roundF64 _ _ _) hf, by rw [isNeg_roundF64, hs hz0]⟩

/-- Settles O51: both operations are one rounding of a ratio of whole numbers, a negative divisor's sign taken out. -/
theorem roundedProductAndQuotient : Obligations.RoundedProductAndQuotient := by
  intro x y hx hy r num den hr
  rcases hr with ⟨rfl, rfl, rfl⟩ | ⟨rfl, rfl, rfl, h0⟩
  · rw [fMul_eq hx hy]
    refine rounded_ratio (t := false) (Nat.two_pow_pos 1074) (cast_two_pow _).symm ?_
    rw [Bool.bne_false]
    exact (signed_mul x y).symm
  · have hy0 : units y ≠ 0 := by rwa [← natAbs_signedUnits, Int.natAbs_ne_zero]
    rw [fDiv_eq hx hy hy0]
    refine rounded_ratio (t := isNeg y) (Nat.pos_of_ne_zero hy0) rfl ?_
    rw [Bool.bne_assoc, bne_self_eq_false, Bool.bne_false, Nat.cast_mul, cast_two_pow, mul_comm]
    unfold signedUnits
    cases isNeg x <;> simp

/-- Settles O52: each clause is one case of a comparison, of a core or of a conversion. -/
theorem floatSpecials : Obligations.FloatSpecials := by
  intro x y
  refine ⟨fun h => ?_, fun hx hy => ?_, ⟨isNeg_fAbs x, signedUnits_fAbs x, signedUnits_fNeg x⟩,
    fun n => fOfNat_exact, fun hx hy => ?_, fun hx hy => ?_, fMul_inf, isNaN_fMul_inf_zero, fDiv_nonzero_zero,
    isNaN_fDiv_zero_zero, toF32_of_isInf, toF32_of_isNaN⟩
  · exact ⟨fLt_of_isNaN h, fLe_of_isNaN h, fLt_of_isNaN h.symm, fLe_of_isNaN h.symm, isNaN_ops_of_isNaN h⟩
  · exact ⟨fLt_iff hx hy, fLe_iff hx hy, fLt_iff hy hx, fLe_iff hy hx⟩
  · exact ⟨isNaN_fDiv_of_none (divCore_inf_inf hx hy), inf_inf_same_sign hx hy, inf_inf_opposite_sign hx hy⟩
  · obtain ⟨addL, addR, subL, subR⟩ := inf_absorbs_finite hx hy
    obtain ⟨quotInf, quotNeg⟩ := fDiv_inf_finite hx hy
    exact ⟨addL, addR, subL, subR, quotInf, quotNeg, fDiv_finite_inf hx hy⟩

/-- Settles O53: the conversion of a finite value is one rounding to 24 bits that keeps the sign. -/
theorem toF32 : Obligations.ToF32 := by
  intro x hx
  rw [toF32_of_finite hx]
  refine ⟨fun hf v _ => ?_, ?_, (finite32_roundF32_eq_false_iff _ _ _).1, neg_pack32_iff (roundBits32_lt _ _)⟩
  · rw [← cast_two_pow]
    exact roundF32_nearest (Nat.two_pow_pos _) hf v rfl
  · rw [finite32_roundF32 _ (Nat.two_pow_pos _), toF32_threshold, abs_signedUnits, ← cast_two_pow_sub (by omega),
      Nat.cast_le]

end Sys2Proof.Scope
end

section
/-! The obligations on the state (10_state.md): the register map and the bits behind it, the oscillator bank and its
waveform kinds, SAMPLE_COUNT, the build parameters, the reset state, and the step as the command port drives it. A
statement over every command goes through `exec_next`, one over every step through `step_next`. -/

namespace Sys2Proof.Machine

/-! ### The step -/

/-- A command whose operand words have not all arrived is no whole command (R63). -/
theorem splitCommand_of_short {w : Word} {arrived : List Word} (h : arrived.length < lenOf w) :
    splitCommand (w :: arrived) = none := if_pos h

theorem withCmd_of_released {s : State} (h : s.ports.pin = .released) (ws : List Word) :
    withCmd ws s = { s with ports := { s.ports with cmd := ws } } := by
  rw [withCmd, ← h]

/-- With the reset input released and no whole command on the port the block waits (R146, R149). -/
theorem step_of_split_none {s : State} (hp : s.ports.pin = .released) (h : splitCommand s.ports.cmd = none) :
    step s = .next s := by
  simp only [step, sequencer, hp, h]

/-- With the reset input released the words of the command at the head of the port are run (R63). -/
theorem step_of_split_some {s : State} {w : Word} {ops rest : List Word} (hp : s.ports.pin = .released)
    (h : splitCommand s.ports.cmd = some (w, ops, rest)) : step s = runWords exec w ops (withCmd rest s) := by
  simp only [step, sequencer, hp, h]

/-- What the words of one command can do: a command runs, or they are rejected as illegal (R70, R71). -/
theorem runWords_next {w : Word} {ops : List Word} {s t : State} (h : runWords exec w ops s = .next t) :
    (∃ i, decode w ops = .ok i ∧ exec i s = .next t) ∨ t = reject .cmdIllegal w s := by
  unfold runWords at h
  split at h
  · next i hi => exact .inl ⟨i, hi, h⟩
  · exact .inr (Host.Outcome.next.inj h).symm

/-- An abandoned command leaves the reset state (R148). -/
theorem abandon_next {words : Nat} {inStep : Bool} {w : Word} {ops : List Word} {s t : State}
    (h : abandon exec words inStep w ops s = .next t) : ∃ ports, t = State.cleared s.params ports := by
  unfold abandon at h
  split at h
  · exact ⟨_, (Host.Outcome.next.inj h).symm⟩
  · next hstop => exact absurd h (hstop t)

/-- What a step can do: it waits, it leaves the reset state, it runs a command, or it rejects an illegal word. -/
theorem step_next {s t : State} (h : step s = .next t) :
    t = s ∨ (∃ ports, t = State.cleared s.params ports) ∨
      (∃ i rest, exec i (withCmd rest s) = .next t) ∨ ∃ w rest, t = reject .cmdIllegal w (withCmd rest s) := by
  cases hp : s.ports.pin with
  | betweenCommands =>
    simp only [step, sequencer, hp] at h
    exact .inr (.inl ⟨_, (Host.Outcome.next.inj h).symm⟩)
  | released =>
    cases hs : splitCommand s.ports.cmd with
    | none =>
      rw [step_of_split_none hp hs] at h
      exact .inl (Host.Outcome.next.inj h).symm
    | some p =>
      obtain ⟨w, ops, rest⟩ := p
      rw [step_of_split_some hp hs] at h
      rcases runWords_next h with ⟨i, -, he⟩ | hr
      · exact .inr (.inr (.inl ⟨i, rest, he⟩))
      · exact .inr (.inr (.inr ⟨w, rest, hr⟩))
  | during words inStep =>
    cases hs : splitCommand s.ports.cmd with
    | none =>
      simp only [step, sequencer, hp, hs] at h
      exact .inr (.inl ⟨_, (Host.Outcome.next.inj h).symm⟩)
    | some p =>
      simp only [step, sequencer, hp, hs] at h
      obtain ⟨ports, ht⟩ := abandon_next h
      exact .inr (.inl ⟨ports, ht⟩)

/-- No command changes the parameters (R34). -/
theorem exec_params {i : Instr} {s t : State} (h : exec i s = .next t) : t.params = s.params := by
  rcases exec_next h with ⟨c, rfl⟩ | ⟨-, -, -, rfl⟩
  · exact reject_params s c _
  · rw [respondOk_params, effectOf_params]

/-! ### The register map (R44) -/

@[simp] theorem zext_eq_setWidth (w : Word) : zext w = w.setWidth 64 := by
  apply BitVec.eq_of_toNat_eq
  rw [zext, BitVec.toNat_ofNat, BitVec.toNat_setWidth]

theorem readReg_unit {s : State} {addr : Nat} (h : addr < 0x1000) : readReg s addr = unitReg s addr := if_pos h

/-- An address of the oscillators' part of the map names one field of one oscillator. -/
theorem readReg_osc {s : State} {k f : Nat} (hk : k < 256) (hf : f < 16) :
    readReg s (0x1000 + 16 * k + f) = (osc? s k).bind (oscField · f) := by
  unfold readReg
  rw [if_neg (by omega), if_pos (by omega), show (0x1000 + 16 * k + f - 0x1000) / 16 = k by omega,
    show (0x1000 + 16 * k + f) % 16 = f by omega]
  cases osc? s k <;> rfl

theorem readReg_above {s : State} {addr : Nat} (h : 0x2000 ≤ addr) : readReg s addr = none := by
  rw [readReg, if_neg (by omega), if_neg (by omega)]

/-- Every address below 0x2000 is a unit's, or field `f` of oscillator `k`. -/
theorem addr_split {addr : Nat} (h : addr < 0x2000) :
    addr < 0x1000 ∨ ∃ k f, k < 256 ∧ f < 16 ∧ addr = 0x1000 + 16 * k + f := by
  rcases Nat.lt_or_ge addr 0x1000 with hu | ho
  · exact .inl hu
  · exact .inr ⟨(addr - 0x1000) / 16, addr % 16, by omega, by omega, by omega⟩

theorem unitReg_isSome (s : State) (addr : Nat) :
    (unitReg s addr).isSome = true ↔
      addr ≤ 0x000A ∨ (0x0010 ≤ addr ∧ addr ≤ 0x0011) ∨ (0x0020 ≤ addr ∧ addr ≤ 0x002B) ∨
        (0x0030 ≤ addr ∧ addr ≤ 0x0034) ∨ (0x0040 ≤ addr ∧ addr ≤ 0x0042) := by
  unfold unitReg
  split
  case h_34 =>
    simp only [imp_false] at *
    exact iff_of_false Bool.false_ne_true (by omega)
  all_goals exact iff_of_true rfl (by decide)

theorem oscField_isSome (o : Osc) (f : Nat) : (oscField o f).isSome = true ↔ f ≤ 5 := by
  unfold oscField
  split
  case h_7 =>
    simp only [imp_false] at *
    exact iff_of_false Bool.false_ne_true (by omega)
  all_goals exact iff_of_true rfl (by decide)

theorem osc_bind_isSome (s : State) (k f : Nat) :
    ((osc? s k).bind (oscField · f)).isSome = true ↔ (osc? s k).isSome = true ∧ f ≤ 5 := by
  cases osc? s k with
  | none => simp
  | some o => simpa using oscField_isSome o f

/-- The addresses that name a register. -/
theorem readReg_isSome {s : State} (hs : s.syn.count.toNat ≤ s.bank.harm.length) (addr : Nat) :
    (readReg s addr).isSome = true ↔
      addr ≤ 0x000A ∨ (0x0010 ≤ addr ∧ addr ≤ 0x0011) ∨ (0x0020 ≤ addr ∧ addr ≤ 0x002B) ∨
      (0x0030 ≤ addr ∧ addr ≤ 0x0034) ∨ (0x0040 ≤ addr ∧ addr ≤ 0x0042) ∨
      ∃ k f, k < 256 ∧ f ≤ 5 ∧ isPresent s k ∧ addr = 0x1000 + 16 * k + f := by
  rcases Nat.lt_or_ge addr 0x2000 with hlt | hge
  · rcases addr_split hlt with hu | ⟨k, f, hk, hf, rfl⟩
    · rw [readReg_unit hu, unitReg_isSome]
      have hno : ¬ ∃ k f, k < 256 ∧ f ≤ 5 ∧ isPresent s k ∧ addr = 0x1000 + 16 * k + f := by
        rintro ⟨k, f, -, -, -, rfl⟩
        omega
      simp only [hno, or_false]
    · rw [readReg_osc hk hf, osc_bind_isSome, osc?_isSome s hs]
      constructor
      · rintro ⟨hp, hf5⟩
        exact .inr (.inr (.inr (.inr (.inr ⟨k, f, hk, hf5, hp, rfl⟩))))
      · rintro (h | h | h | h | h | ⟨k', f', -, hf5, hp, he⟩)
        iterate 5 omega
        · obtain ⟨rfl, rfl⟩ : k = k' ∧ f = f' := by omega
          exact ⟨hp, hf5⟩
  · rw [readReg_above hge]
    simp only [Option.isSome_none, Bool.false_eq_true, false_iff]
    rintro (h | h | h | h | h | ⟨k, f, hk, hf5, -, rfl⟩) <;> omega

/-! ### Bits of the packed registers -/

/-- A bit at or above the width of a packed register's contents is 0. -/
theorem getLsbD_ofNat_of_lt {x b : Nat} (n : Nat) (hx : x < 2 ^ n) (hb : n ≤ b) :
    (BitVec.ofNat 32 x).getLsbD b = false := by
  rw [BitVec.getLsbD_ofNat, Nat.testBit_lt_two_pow (hx.trans_le (Nat.pow_le_pow_right two_pos hb)), Bool.and_false]

/-- The flags in STATUS's low byte (R24). -/
def statusFlags (s : State) : Nat := s.record.err.toNat + (2 * s.record.multi.toNat + 4 * (ready s).toNat)

theorem statusFlags_lt (s : State) : statusFlags s < 8 := by
  have he := s.record.err.toNat_le
  have hm := s.record.multi.toNat_le
  have hr := (ready s).toNat_le
  unfold statusFlags
  omega

theorem statusReg_eq (s : State) : statusReg s = BitVec.ofNat 32 (2 ^ 8 * s.record.cause.toNat + statusFlags s) := by
  simp only [statusReg, statusFlags, flagAt_eq]
  congr 1
  omega

/-- A bit of STATUS is one of its low byte, or one of CAUSE (R24). -/
theorem statusReg_getLsbD {s : State} {b : Nat} (hb : b < 32) :
    (statusReg s).getLsbD b =
      if b < 8 then (statusFlags s).testBit b else s.record.cause.toNat.testBit (b - 8) := by
  rw [statusReg_eq, BitVec.getLsbD_ofNat, decide_eq_true hb, Bool.true_and,
    Nat.testBit_two_pow_mul_add _ ((statusFlags_lt s).trans (by decide))]

/-- ERR, MULTI and READY in their places (R24). -/
theorem statusFlags_testBit (s : State) :
    (statusFlags s).testBit 0 = s.record.err ∧ (statusFlags s).testBit 1 = s.record.multi ∧
      (statusFlags s).testBit 2 = ready s := by
  unfold statusFlags
  cases s.record.err <;> cases s.record.multi <;> cases ready s <;> decide

/-- READY is the conjunction of the CFG bits 0 to 8 (R27). -/
theorem ready_eq_cfgBits (s : State) :
    ready s = (cfgBit s 0 && cfgBit s 1 && cfgBit s 2 && cfgBit s 3 && cfgBit s 4 && cfgBit s 5 && cfgBit s 6
      && cfgBit s 7 && cfgBit s 8) := by
  obtain ⟨h0, h1, h2, h3, h4, h5, h6, h7, h8, -⟩ := cfgBits_eq s
  rw [h0, h1, h2, h3, h4, h5, h6, h7, h8]
  rfl

theorem flagAt_le (i : Nat) (b : Bool) : flagAt i b ≤ 2 ^ i := by
  cases b
  · exact Nat.zero_le _
  · exact le_rfl

/-- CFG has no bit above 9 (R26). -/
theorem cfgBit_reserved (s : State) {b : Nat} (hb : 10 ≤ b) : cfgBit s b = false := by
  refine getLsbD_ofNat_of_lt 10 ?_ hb
  have h0 := flagAt_le 0 s.cfg.syn
  have h1 := flagAt_le 1 s.cfg.flt
  have h2 := flagAt_le 2 s.cfg.dsize
  have h3 := flagAt_le 3 s.cfg.dtime
  have h4 := flagAt_le 4 s.cfg.dfb
  have h5 := flagAt_le 5 s.cfg.pan
  have h6 := flagAt_le 6 (cfgPfreq s)
  have h7 := flagAt_le 7 s.cfg.gain
  have h8 := flagAt_le 8 s.cfg.range
  have h9 := flagAt_le 9 (cfgPsr s)
  omega

theorem trigReg_bit (s : State) : (trigReg s).getLsbD 0 = s.trig.prevValid := by
  unfold trigReg
  cases s.trig.prevValid <;> rfl

theorem trigReg_reserved (s : State) {b : Nat} (hb : 1 ≤ b) : (trigReg s).getLsbD b = false :=
  getLsbD_ofNat_of_lt 1 (by have := flagAt_le 0 s.trig.prevValid; omega) hb

/-! ### The build parameters (R34) -/

theorem trigModeBit_eq_true {m : TrigMode} : trigModeBit m = true ↔ m = .level := by cases m <;> decide

theorem panOrderBit_eq_true {o : PanOrder} : panOrderBit o = true ↔ o = .b := by cases o <;> decide

/-- The fields of PARAM, and nothing above them. -/
theorem paramReg_fields (p : Params) :
    bitField (paramReg p) 7 0 = p.maxHarm % 2 ^ 8 ∧ (paramReg p).getLsbD 8 = trigModeBit p.trigMode ∧
      (paramReg p).getLsbD 9 = panOrderBit p.panOrder ∧ ∀ b, 10 ≤ b → (paramReg p).getLsbD b = false := by
  have ho := (panOrderBit p.panOrder).toNat_le
  have ht := (trigModeBit p.trigMode).toNat_le
  simp only [paramReg, flagAt_eq]
  refine ⟨?_, ?_, ?_, fun b hb => getLsbD_ofNat_of_lt 10 (by omega) hb⟩
  · simp only [bitField, BitVec.toNat_ofNat]
    omega
  · rw [getLsbD_ofNat]
    exact bit_eq_flag (by omega) (by omega)
  · rw [getLsbD_ofNat]
    exact bit_eq_flag (by omega) (by omega)

/-! ### The oscillator bank (R35) -/

/-- Writing one oscillator, present or not, leaves every other as it was. -/
theorem osc?_withOsc_of_ne (s : State) {j k : Nat} (o : Osc) (hj : j ≠ k) : osc? (withOsc k o s) j = osc? s j := by
  by_cases hp : (osc? s k).isSome = true
  · exact (osc?_withOsc s k o hp).2 j hj
  · match k with
    | 0 | 1 | 2 | 3 | 4 | 5 => exact absurd rfl hp
    | 6 | 7 => rfl
    | k + 8 =>
      match j with
      | 0 | 1 | 2 | 3 | 4 | 5 | 6 | 7 => rfl
      | j + 8 =>
        have hset : (s.bank.harm.set k o)[j]? = s.bank.harm[j]? := List.getElem?_set_ne (by omega)
        simp only [osc?, withOsc_syn, withOsc_bank, Bank.setOsc, hset]

/-! ### The reset state (R47) -/

theorem kindsFixed_reset (maxHarm : Nat) : (Bank.reset maxHarm).KindsFixed :=
  ⟨rfl, rfl, rfl, rfl, rfl, fun _ ho => by rw [List.eq_of_mem_replicate ho]; rfl⟩

/-- The error record is empty. -/
theorem ok_reset : ErrRecord.reset.Ok := ⟨fun _ => ⟨rfl, rfl, rfl⟩, fun h => nomatch h⟩

/-- No buffer is present. -/
theorem delayOk_cleared (params : Params) (ports : Ports) : DelayOk (State.cleared params ports) where
  sized := by simp [State.cleared, CfgBits.reset, DlyRegs.reset]
  capacity := Nat.zero_le _
  wp := fun h => nomatch h
  time := fun h => nomatch h
  rp := fun h => nomatch h
  dtime := fun h => nomatch h
  dfb := fun h => nomatch h
  canonical := rfl
  present := fun _ h => nomatch h

/-- The reset state meets the invariant when the parameters are within R8's bounds: nothing is configured. -/
theorem inv_cleared {params : Params} (ports : Ports) (hharm : 1 ≤ params.maxHarm ∧ params.maxHarm ≤ 248)
    (hcap : 1 ≤ params.delayCapacity ∧ params.delayCapacity ≤ 2147483647) : (State.cleared params ports).Inv where
  maxHarm := hharm
  delayCapacity := hcap
  record := ok_reset
  bankSize := List.length_replicate
  kinds := kindsFixed_reset _
  synCount := rfl
  synHarm := fun _ _ h => absurd h (Nat.not_lt_zero _)
  synNote := (by decide : (0 : Word).toNat < 128)
  pulse := fun h => nomatch h
  pulseRate := fun h => nomatch h
  filter := fun h => nomatch h
  delay := delayOk_cleared params ports
  panner := fun h => nomatch h
  gain := (by decide : finite 0 = true)
  range := (by decide : rangeLo 0 ≤ rangeHi 0 ∧ 0 = rangeWord (rangeLo 0) (rangeHi 0))
  trig := fun _ => rfl

/-! ### Waveform kinds (R37) -/

/-- Going from bank `b` to bank `c` keeps the fixed kinds, and the kind of oscillator 0. -/
structure KeepsKinds (b c : Bank) : Prop where
  fixed : b.KindsFixed → c.KindsFixed
  pulse : c.pulse.kind = b.pulse.kind

theorem KeepsKinds.refl (b : Bank) : KeepsKinds b b := ⟨id, rfl⟩

theorem KeepsKinds.trans {b c d : Bank} (h : KeepsKinds b c) (h' : KeepsKinds c d) : KeepsKinds b d :=
  ⟨h'.fixed ∘ h.fixed, h'.pulse.trans h.pulse⟩

/-- The named oscillators keep their kinds one by one, and each harmonic has the kind of one there was. -/
theorem KeepsKinds.of_kinds {b c : Bank} (hpulse : c.pulse.kind = b.pulse.kind)
    (hcarrier : c.carrier.kind = b.carrier.kind) (hcut : c.lfoCut.kind = b.lfoCut.kind)
    (hres : c.lfoRes.kind = b.lfoRes.kind) (hpan : c.pan.kind = b.pan.kind) (hpmod : c.pmod.kind = b.pmod.kind)
    (hharm : ∀ o ∈ c.harm, ∃ o' ∈ b.harm, o'.kind = o.kind) : KeepsKinds b c := by
  refine ⟨fun h => ⟨hcarrier.trans h.carrier, hcut.trans h.lfoCut, hres.trans h.lfoRes, hpan.trans h.pan,
    hpmod.trans h.pmod, fun o ho => ?_⟩, hpulse⟩
  obtain ⟨o', hmem, hk⟩ := hharm o ho
  exact hk ▸ h.harm o' hmem

/-- Only the harmonics change, each by a map that keeps its kind. -/
theorem KeepsKinds.mapHarm {b : Bank} {f : Nat → Osc → Osc} (hf : ∀ i o, (f i o).kind = o.kind) :
    KeepsKinds b { b with harm := b.harm.mapIdx f } := by
  refine .of_kinds rfl rfl rfl rfl rfl rfl fun o ho => ?_
  obtain ⟨i, hi, rfl⟩ := List.mem_mapIdx.1 ho
  exact ⟨_, List.getElem_mem hi, (hf i _).symm⟩

/-- No harmonic changes, and the named oscillators keep their kinds. -/
theorem KeepsKinds.of_named {b c : Bank} (hpulse : c.pulse.kind = b.pulse.kind)
    (hcarrier : c.carrier.kind = b.carrier.kind) (hcut : c.lfoCut.kind = b.lfoCut.kind)
    (hres : c.lfoRes.kind = b.lfoRes.kind) (hpan : c.pan.kind = b.pan.kind) (hpmod : c.pmod.kind = b.pmod.kind)
    (hharm : c.harm = b.harm) : KeepsKinds b c :=
  .of_kinds hpulse hcarrier hcut hres hpan hpmod fun o ho => ⟨o, hharm ▸ ho, rfl⟩

theorem keepsKinds_advanceHarm (b : Bank) (count : Nat) :
    KeepsKinds b { b with harm := advanceHarm count b.harm } :=
  .mapHarm fun i o => by split <;> rfl

theorem keepsKinds_tune (b : Bank) (count : Nat) (f : F64) : KeepsKinds b { b with harm := tune count f b.harm } :=
  .mapHarm fun i o => by split <;> simp

theorem keepsKinds_synSetup (count note : Nat) (sr : F64) (s : State) :
    KeepsKinds s.bank (synSetupEffect count note sr s).bank :=
  (KeepsKinds.mapHarm fun i o => by split <;> rfl).trans (keepsKinds_tune _ _ _)

theorem panAfter_kind (s : State) : (panAfter s).kind = s.bank.pan.kind := by
  unfold panAfter panSource
  cases s.params.panOrder <;> rfl

theorem keepsKinds_panAdvance (s : State) : KeepsKinds s.bank (panAdvance s).bank :=
  .of_named rfl rfl rfl rfl (panAfter_kind s) rfl rfl

theorem keepsKinds_fltAdvance (x : F64) (s : State) : KeepsKinds s.bank (fltAdvance x s).bank :=
  .of_named rfl rfl rfl rfl rfl rfl rfl

theorem keepsKinds_trigger (s : State) : KeepsKinds s.bank (trigger s).bank := by
  have hpulse : KeepsKinds s.bank (pulseAdvance s).bank := .of_named rfl rfl rfl rfl rfl rfl rfl
  rcases trigger_cases s with ⟨-, ht⟩ | ⟨-, ht⟩ <;> rw [ht]
  · exact hpulse.trans (keepsKinds_tune _ _ _)
  · exact hpulse

/-- The trigger, the synth, the filter and the panner, in the order of the sample step (R122). -/
theorem keepsKinds_sampleStep (s : State) : KeepsKinds s.bank (sampleStep s).1.bank :=
  (keepsKinds_trigger s).trans <| (keepsKinds_advanceHarm _ _).trans <|
    (keepsKinds_fltAdvance (afterSyn s).2 (afterSyn s).1).trans (keepsKinds_panAdvance (afterDly s).1)

/-- Writing a present oscillator without changing its kind. -/
theorem keepsKinds_setOsc {s : State} {k : Nat} {o o' : Osc} (ho : osc? s k = some o) (hk : o'.kind = o.kind) :
    KeepsKinds s.bank (s.bank.setOsc k o') :=
  ⟨fun h => (setOsc_kinds h ho hk).1, setOsc_pulse_kind ho hk⟩

/-- `osc.step` advances a present oscillator, its first check. -/
theorem keepsKinds_oscStep {s : State} {k : Nat} (hp : (osc? s k).isNone = false) :
    KeepsKinds s.bank (withOsc k (advanced (oscOr s k)) s).bank := by
  obtain ⟨o, ho⟩ := Option.isSome_iff_exists.1 (Option.isNone_eq_false_iff.1 hp)
  exact keepsKinds_setOsc ho (by rw [oscOr, ho]; rfl)

/-- Every effect but those of `osc.kind` and `reset` keeps the kinds. -/
theorem effectOf_keepsKinds {i : Instr} {s : State} (hkind : ∀ osc kind, i ≠ .oscKind osc kind) (hreset : i ≠ .reset)
    (hc : ∀ p ∈ checksOf i s, p.1 = false) : KeepsKinds s.bank (effectOf i s).1.bank := by
  cases i with
  | oscKind osc kind => exact absurd rfl (hkind osc kind)
  | reset => exact absurd rfl hreset
  | oscSr _ _ | oscFreq _ _ | oscPhase _ _ => exact keepsKinds_setOsc (k := 0) rfl rfl
  | oscStep k => exact keepsKinds_oscStep (hc _ List.mem_cons_self)
  | synSetup count note sr => exact keepsKinds_synSetup count note sr s
  | synRetune note => exact keepsKinds_tune _ _ _
  | synStep => exact keepsKinds_advanceHarm _ _
  | fltSetup _ _ _ _ _ _ | panSetup _ _ _ _ => exact .of_named rfl rfl rfl rfl rfl rfl rfl
  | fltStep x => exact keepsKinds_fltAdvance x s
  | panStep => exact keepsKinds_panAdvance s
  | process n =>
    exact sampleSteps_induct (P := fun t => KeepsKinds s.bank t.bank) (fun t h => h.trans (keepsKinds_sampleStep t)) n
      (.refl _)
  | _ => exact .refl _

/-- `osc.kind` and `reset` keep the fixed kinds too. -/
theorem effectOf_kindsFixed {i : Instr} {s : State} (hc : ∀ p ∈ checksOf i s, p.1 = false) (h : s.bank.KindsFixed) :
    (effectOf i s).1.bank.KindsFixed := by
  cases i with
  | oscKind osc kind => exact ⟨h.carrier, h.lfoCut, h.lfoRes, h.pan, h.pmod, h.harm⟩
  | reset => exact kindsFixed_reset _
  | _ => exact (effectOf_keepsKinds (by simp) (by simp) hc).fixed h

/-! ### SAMPLE_COUNT (R28) -/

theorem effectOf_samples {i : Instr} (s : State) (hp : ∀ n, i ≠ .process n) (hr : i ≠ .reset) :
    (effectOf i s).1.samples = s.samples := by
  cases i with
  | process n => exact absurd rfl (hp n)
  | reset => exact absurd rfl hr
  | _ => rfl

/-- An accepted command has answered a word without REJ, which no rejection sends. -/
theorem Accepts.not_rejects {i : Instr} {s t : State} {data : List Word} (h : Accepts i s t data) (c : Cause) :
    ¬ Rejects i s c := by
  obtain ⟨he, hresp⟩ := h
  intro hr
  have hst : respondOk (commandWord i) data t = reject c (commandWord i) s := Host.Outcome.next.inj (he.symm.trans hr)
  have hp := congrArg (fun u : State => u.ports.resp) hst
  simp only [respondOk_ports, reject_ports, hresp, List.append_cancel_left_eq, List.cons.injEq] at hp
  exact responseWord_rej_ne _ _ hp.1.symm

/-- An accepted command leaves its own effect, but for the words sent. -/
theorem Accepts.next_eq {i : Instr} {s t u : State} {data : List Word} (h : Accepts i s u data)
    (ht : exec i s = .next t) : t = respondOk (commandWord i) (effectOf i s).2 (effectOf i s).1 := by
  rcases exec_next ht with ⟨c, rfl⟩ | ⟨-, -, -, he⟩
  · exact absurd ht (h.not_rejects c)
  · exact he

theorem exec_reset (s : State) : exec .reset s = .next (respondOk (commandWord .reset) [] (resetState s)) :=
  exec_accepts rfl rfl rfl

end Sys2Proof.Machine

/-! ### The obligations -/

namespace Sys2Proof.StateRules

open Sys2Proof.Machine

/-- Settles O7: the words are split off the port, decoded, and run. -/
theorem stepRunsCommand : Obligations.StepRunsCommand := by
  intro s w ops rest i hp hcmd hd
  rw [step_of_split_some hp (hcmd ▸ splitCommand_append (length_of_decode_ok hd)), withCmd_of_released hp]
  simp only [runWords, hd]

/-- Settles O8: no whole command is split off the port. -/
theorem stepWaitsForCommand : Obligations.StepWaitsForCommand := by
  rintro s hp (hcmd | ⟨w, arrived, hcmd, hlen⟩)
  · exact step_of_split_none hp (by rw [hcmd]; rfl)
  · exact step_of_split_none hp (by rw [hcmd, splitCommand_of_short hlen])

/-- Settles O14: the units' addresses one by one, an oscillator's as its fields. -/
theorem registerMap : Obligations.RegisterMap := by
  intro s hs
  refine ⟨?_, ?_, ?_, ?_, ?_, fun k o hk ho => ?_, readReg_isSome hs, fun addr h => ?_⟩
  iterate 5 simp [readReg_unit, unitReg, idReg]
  · have hfield : ∀ f < 16, readReg s (0x1000 + 16 * k + f) = oscField o f := fun f hf => by
      rw [readReg_osc hk hf, ho]; rfl
    refine ⟨hfield 0 ?_, hfield 1 ?_, hfield 2 ?_, hfield 3 ?_, hfield 4 ?_, hfield 5 ?_⟩ <;> decide
  · exact rejects_of rfl (by simp [checksOf, h])

/-- Settles O15: STATUS is CAUSE above a low byte of three flags, and nothing packed reaches a reserved bit. -/
theorem statusAndCfgBits : Obligations.StatusAndCfgBits := by
  intro s b
  obtain ⟨herr, hmulti, hready⟩ := statusFlags_testBit s
  obtain ⟨h0, h1, h2, h3, h4, h5, h6, h7, h8, h9⟩ := cfgBits_eq s
  refine ⟨⟨?_, ?_, ?_, fun h3 h8 => ?_, fun h8 => ?_, fun h16 => ?_⟩,
    ⟨h0, h1, h2, h3, h4, h5, h6, h7, h8, h9, cfgBit_reserved s⟩, trigReg_bit s, trigReg_reserved s⟩
  · rw [statusReg_getLsbD (by decide), if_pos (by decide), herr]
  · rw [statusReg_getLsbD (by decide), if_pos (by decide), hmulti]
  · rw [statusReg_getLsbD (by decide), if_pos (by decide), hready, ready_eq_cfgBits]
  · rw [statusReg_getLsbD (by omega), if_pos h8]
    exact Nat.testBit_lt_two_pow ((statusFlags_lt s).trans_le (Nat.pow_le_pow_right two_pos h3))
  · rw [statusReg_getLsbD (by omega), if_neg (by omega), Nat.add_sub_cancel_left]
    rfl
  · rw [statusReg_eq]
    have hcause := s.record.cause.isLt
    have hflags := statusFlags_lt s
    exact getLsbD_ofNat_of_lt 16 (by omega) h16

/-- Settles O16: the fields of the two registers, and the parameters through each of the things a step can do. -/
theorem parametersNeverChange : Obligations.ParametersNeverChange := by
  refine ⟨fun p b hm hc => ?_, fun s t h => ?_⟩
  · obtain ⟨hharm, htrig, hpan, hres⟩ := paramReg_fields p
    refine ⟨hharm.trans (Nat.mod_eq_of_lt hm), by rw [htrig, trigModeBit_eq_true],
      by rw [hpan, panOrderBit_eq_true], hres b, ?_⟩
    rw [capacityReg, BitVec.toNat_ofNat, Nat.mod_eq_of_lt hc]
  · rcases step_next h with rfl | ⟨ports, rfl⟩ | ⟨i, rest, he⟩ | ⟨w, rest, rfl⟩
    · rfl
    · rfl
    · exact (exec_params he).trans (withCmd_params s rest)
    · rfl

/-- Settles O26: the presence test is R35's, and a write reaches one oscillator of the bank. -/
theorem oscillatorBank : Obligations.OscillatorBank := fun s k o hs =>
  ⟨osc?_isSome s hs k, fun hp => (osc?_withOsc s k o ((osc?_isSome s hs k).2 hp)).1,
    fun _ hj => osc?_withOsc_of_ne s o hj⟩

/-- Settles O27: a rejection leaves the bank, and an effect keeps the kinds. -/
theorem kindsNeverChange : Obligations.KindsNeverChange := by
  intro i s t h
  rcases exec_next h with ⟨c, rfl⟩ | ⟨-, hc, -, rfl⟩
  · exact ⟨id, fun _ _ => rfl⟩
  · exact ⟨effectOf_kindsFixed hc, fun hkind hreset => (effectOf_keepsKinds hkind hreset hc).pulse⟩

/-- Settles O49: a rejection counts nothing, and of the effects only those of `process` and `reset` reach the count. -/
theorem sampleCount : Obligations.SampleCount := by
  intro i s t h
  refine ⟨fun hp hr => ?_, ?_, ?_⟩
  · rcases exec_next h with ⟨c, rfl⟩ | ⟨-, -, -, rfl⟩
    · rfl
    · exact effectOf_samples s hp hr
  · rintro rfl
    rw [exec_reset] at h
    obtain rfl := Host.Outcome.next.inj h
    rfl
  · rintro n u data rfl ha
    rw [ha.next_eq h]
    exact sampleSteps_samples n s

/-- Settles O12: each value stands in `State.cleared`. -/
theorem resetValues : Obligations.ResetValues := by
  refine ⟨fun params ports => ?_, rfl⟩
  repeat' apply And.intro
  all_goals rfl

/-- Settles O56: both parts are `inv_cleared`, the default parameters within R8's bounds. -/
theorem resetMeetsInv : Obligations.ResetMeetsInv :=
  ⟨inv_cleared _ (by decide) (by decide), fun params ports h1 h2 h3 h4 => inv_cleared ports ⟨h1, h2⟩ ⟨h3, h4⟩⟩

end Sys2Proof.StateRules
end

section
/-! The obligation on the ports (20_memory.md section 2, R51): a word is four bytes, the lowest first. -/

namespace Sys2Proof.Machine

/-! ### Port words as bytes -/

@[simp] theorem length_bytesOfWord (w : Word) : (bytesOfWord w).length = 4 := rfl

theorem bytesOfWords_cons (w : Word) (ws : List Word) : bytesOfWords (w :: ws) = bytesOfWord w ++ bytesOfWords ws :=
  List.flatMap_cons

/-- A byte taken by division is the byte at that bit position. -/
theorem ofNat_div_two_pow_eq_extractLsb' (w : Word) (n : Nat) :
    BitVec.ofNat 8 (w.toNat / 2 ^ n) = w.extractLsb' n 8 := by
  apply BitVec.eq_of_toNat_eq
  rw [BitVec.toNat_ofNat, BitVec.extractLsb'_toNat, Nat.shiftRight_eq_div_pow]

/-- Byte `j` of a word is its bits [8j + 7:8j]. -/
theorem bytesOfWord_getElem? (w : Word) {j : Nat} (h : j < 4) :
    (bytesOfWord w)[j]? = some (w.extractLsb' (8 * j) 8) := by
  rw [← ofNat_div_two_pow_eq_extractLsb']
  match j with
  | 0 => simp [bytesOfWord]
  | 1 | 2 | 3 => rfl

theorem length_bytesOfWords (ws : List Word) : (bytesOfWords ws).length = 4 * ws.length := by
  induction ws with
  | nil => rfl
  | cons w ws ih =>
    rw [bytesOfWords_cons, List.length_append, length_bytesOfWord, ih, List.length_cons]
    omega

/-- The words are read back from their bytes. -/
@[simp] theorem wordsOfBytes_bytesOfWords (ws : List Word) : wordsOfBytes (bytesOfWords ws) = ws := by
  induction ws with
  | nil => rfl
  | cons w ws ih => rw [bytesOfWords_cons, wordsOfBytes_bytesOfWord, ih]

/-- The decoder on bytes takes the command that the framing of the words takes (R63). -/
theorem decodeBytes_bytesOfWords {w : Word} {ops rest : List Word} (h : ops.length = lenOf w) :
    decodeBytes (bytesOfWords (w :: (ops ++ rest))) = some (decode w ops, rest) := by
  rw [decodeBytes, wordsOfBytes_bytesOfWords, splitCommand_append h]

end Sys2Proof.Machine

/-! ### The obligation -/

namespace Sys2Proof.MemoryRules

open Sys2Proof.Machine

/-- Settles O6: the bytes of one word, induction over the words, and the framing of the words read back. -/
theorem portWordsAreLittleEndian : Obligations.PortWordsAreLittleEndian :=
  ⟨fun w _ hj => bytesOfWord_getElem? w hj,
    fun ws => ⟨wordsOfBytes_bytesOfWords ws, length_bytesOfWords ws⟩,
    fun _ _ _ h => decodeBytes_bytesOfWords h⟩

end Sys2Proof.MemoryRules
end

section
/-! The obligations on the encoding (30_encoding.md): the two round trips, the rows and the legal words, the response
words, and the worked encodings. The rows' side is Laws/Decode.lean; a word is legal exactly when a row accepts it. -/

namespace Sys2Proof.Machine

/-! ### The round trip -/

/-- LEN counts the operand words (R63). -/
theorem length_operandWords (i : Instr) : (operandWords i).length = lenOf (commandWord i) := by
  obtain ⟨-, -, hlen⟩ := Laws.WordFields.all i
  exact hlen.symm

theorem encode_of_wellFormed {i : Instr} (h : i.wellFormed = true) : encode i = commandWord i :: operandWords i :=
  if_pos h

/-- Only a well-formed instruction has words. -/
theorem encode_eq_cons {i : Instr} {w : Word} {ops : List Word} (h : encode i = w :: ops) :
    i.wellFormed = true ∧ commandWord i = w ∧ operandWords i = ops := by
  unfold encode at h
  split at h
  · next hwf => exact ⟨hwf, List.cons.inj h⟩
  · cases h

theorem decode_commandWord {i : Instr} (h : i.wellFormed = true) : decode (commandWord i) (operandWords i) = .ok i := by
  obtain ⟨r, hr, haccepts, hlen, hbuild⟩ := commandWord_accepts i
  rw [decode_of_accepts hr haccepts hlen.symm, hbuild h]

theorem decode_of_encode_eq {i : Instr} {w : Word} {ops : List Word} (h : encode i = w :: ops) :
    decode w ops = .ok i := by
  obtain ⟨hwf, rfl, rfl⟩ := encode_eq_cons h
  exact decode_commandWord hwf

/-! ### The rows -/

/-- Two places of the table whose rows fix the same OPC are one place (R70). -/
theorem index_eq_of_opcOf_eq {j k : Nat} {r q : Row} (hj : rows[j]? = some r) (hk : rows[k]? = some q)
    (h : opcOf r.word = opcOf q.word) : j = k := by
  have hlt : j < (rows.map fun r => opcOf r.word).length := by
    rw [List.length_map]
    exact (List.getElem?_eq_some_iff.1 hj).1
  refine (List.getElem?_inj hlt rows_opc_nodup).1 ?_
  simp only [List.getElem?_map, hj, hk, Option.map_some, h]

theorem rsvOf_of_accepts {r : Row} {w : Word} (hr : r ∈ rows) (h : r.accepts w = true) : rsvOf w = 0 := by
  obtain ⟨-, -, hrsv, -⟩ := (accepts_iff hr w).1 h
  exact hrsv

/-- A word that no row accepts is refused, whatever follows it (R71). -/
theorem decode_of_not_accepts {w : Word} (h : ∀ r ∈ rows, r.accepts w = false) (ops : List Word) :
    decode w ops = .error (illegalReason w) := by
  have hnone : rowOf w = none := List.find?_eq_none.2 fun r hr => by simp [h r hr]
  simp only [decode, hnone]

/-! ### Legal words -/

/-- R71's shapes are the rows' OPC, LEN and named subfield bits, row by row. -/
theorem legalShapes_eq_map_rows : legalShapes = rows.map fun r => (opcOf r.word, r.len, (~~~r.mask).toNat) := by decide

theorem legalWord_iff (w : Word) : LegalWord w ↔ ∃ r ∈ rows, r.accepts w = true := by
  simp only [LegalWord, legalShapes_eq_map_rows, List.mem_map, exists_exists_and_eq_and]
  exact exists_congr fun r => and_congr_right fun hr => (accepts_iff hr w).symm

theorem decode_of_legalWord {w : Word} {ops : List Word} (hw : LegalWord w) (h : ops.length = lenOf w) :
    ∃ i, decode w ops = .ok i := by
  obtain ⟨r, hr, haccepts⟩ := (legalWord_iff w).1 hw
  exact ⟨r.build w ops, decode_of_accepts hr haccepts (h.trans (lenOf_of_accepts hr haccepts))⟩

theorem decode_of_not_legalWord {w : Word} (hw : ¬ LegalWord w) (ops : List Word) :
    decode w ops = .error (illegalReason w) :=
  decode_of_not_accepts (fun r hr => Bool.eq_false_iff.2 fun h => hw ((legalWord_iff w).2 ⟨r, hr, h⟩)) ops

/-! ### Responses -/

/-- The fields of a response word (R67). -/
theorem responseWord_fields (w : Word) (rej : Bool) (c : BitVec 8) :
    bitField (responseWord w rej c) 31 24 = opcOf w ∧ bitField (responseWord w rej c) 23 16 = 0 ∧
      bitField (responseWord w rej c) 15 15 = rej.toNat ∧ bitField (responseWord w rej c) 14 8 = 0 ∧
      bitField (responseWord w rej c) 7 0 = c.toNat := by
  have hopc : opcOf w < 2 ^ 8 := Nat.mod_lt _ (by decide)
  have hc := c.isLt
  have hrej := rej.toNat_le
  have hbit : (if rej then 2 ^ 15 else 0) = 2 ^ 15 * rej.toNat := flagAt_eq 15 rej
  simp only [responseWord, hbit, bitField, BitVec.toNat_ofNat]
  omega

/-! ### Assembly -/

/-- A line that stands for one command assembles to its words, and these decode to it. -/
theorem assemble_and_decode {line : String} {i : Instr} {w : Word} {ops : List Word}
    (hparse : Asm.parseLine line.toList = .ok [i]) (hencode : encode i = w :: ops) :
    Asm.assemble line = .ok (w :: ops) ∧ decode w ops = .ok i := by
  refine ⟨?_, decode_of_encode_eq hencode⟩
  simp only [Asm.assemble, hparse, List.flatMap_singleton, hencode]

end Sys2Proof.Machine

/-! ### The obligations -/

namespace Sys2Proof.EncodingRules

open Sys2Proof.Machine

/-- Settles O1: the command's row accepts its word and builds it back, and LEN counts the words framing takes. -/
theorem decodeOfEncode : Obligations.DecodeOfEncode := by
  intro i rest h
  refine ⟨encode_of_wellFormed h, decode_commandWord h, ?_⟩
  rw [encode_of_wellFormed h, List.cons_append]
  exact splitCommand_append (length_operandWords i)

/-- Settles O2: what decodes is what a row builds of a word it accepts. -/
theorem encodeOfDecode : Obligations.EncodeOfDecode := by
  intro w ops i h
  obtain ⟨r, hr, haccepts, -, hlen, rfl⟩ := decode_ok_row h
  obtain ⟨hwf, hword, hops⟩ := encode_build hr haccepts hlen
  exact ⟨hwf, by rw [encode_of_wellFormed hwf, hword, hops]⟩

/-- Settles O3: a row that accepts a word has its OPC, and OPC tells the rows apart. -/
theorem rowsNeverOverlap : Obligations.RowsNeverOverlap := by
  refine ⟨fun _ _ _ _ hj hk h => index_eq_of_opcOf_eq hj hk h, fun w j k r q hj hk hr hq => ?_,
    fun w ops r hr h => ?_, fun w ops h => decode_of_not_accepts h ops⟩
  · have hopcR := opcOf_of_accepts (List.mem_of_getElem? hj) hr
    have hopcQ := opcOf_of_accepts (List.mem_of_getElem? hk) hq
    exact index_eq_of_opcOf_eq hj hk (hopcR.symm.trans hopcQ)
  · have hlen := lenOf_of_accepts hr h
    exact ⟨hlen, rsvOf_of_accepts hr h, fun hops => decode_of_accepts hr h (hops.trans hlen)⟩

/-- Settles O4: a word is legal exactly when a row accepts it, and the step rejects the words of any other. -/
theorem illegalWordsRejected : Obligations.IllegalWordsRejected := by
  intro w ops rest s hlen hpin hcmd
  refine ⟨fun hw => decode_of_legalWord hw hlen, fun hw => ?_⟩
  rw [step_of_split_some hpin (hcmd ▸ splitCommand_append hlen), withCmd_of_released hpin]
  simp only [runWords, decode_of_not_legalWord hw ops]

/-- Settles O20: the response is a rejection's word, or an acceptance's with the effect's data words behind it. -/
theorem oneResponse : Obligations.OneResponse := by
  refine ⟨fun i s t h => ?_, fun w c s => ?_⟩
  · rcases exec_next h with ⟨c, rfl⟩ | ⟨-, -, -, rfl⟩
    · obtain ⟨hopc, hzero, hrej, hzero', hcause⟩ := responseWord_fields (commandWord i) true c.code
      exact ⟨_, [], rfl, hopc, hzero, hzero', .inl ⟨hrej, rfl, c, hcause⟩⟩
    · obtain ⟨hopc, hzero, hrej, hzero', hcause⟩ := responseWord_fields (commandWord i) false 0
      refine ⟨_, (effectOf i s).2, ?_, hopc, hzero, hzero', .inr ⟨hrej, hcause, effectOf_data i s⟩⟩
      rw [respondOk_ports, effectOf_resp]
  · exact ⟨_, rfl, responseWord_fields w true c.code⟩

/-- Settles O5: each line is read as its command, whose encoding is the words; the decoding is the round trip. -/
theorem workedEncodings : Obligations.WorkedEncodings := by
  refine ⟨?_, ?_, ?_, ?_, ?_, ?_, ?_, ?_, ?_, ?_, ?_, ?_⟩
  all_goals exact assemble_and_decode (by decide +kernel) (by decide)

end Sys2Proof.EncodingRules
end

section
/-! The obligations on the oscillators (40_oscillator.md): the advance of R77 and R85, the waveforms of R78 with the
ranges of R79, and the pulse generator's commands. The ranges turn on two facts: a rounding stays between any two values
of the format that its exact result lies between, and `p − 1` is a value of the format for every `p` in [1, 2]. -/

namespace Sys2Proof.Machine

/-! ### Encoding and rejection -/

/-- A command's word carries its OPC, and its LEN counts its operand words (R62, R63, R69). -/
theorem encodedAs_opc (i : Instr) : EncodedAs i (Laws.WordFields.opc i) (operandWords i).length := by
  obtain ⟨hopc, -, hlen⟩ := Laws.WordFields.all i
  exact ⟨hopc, hlen, rfl⟩

/-- With ERR = 0 no command is blocked (R135). -/
theorem not_pending {s : State} (h : s.record.err = false) (i : Instr) :
    (!RunsWhilePending i && s.record.err) = false := by
  rw [h, Bool.and_false]

/-! ### Values of the format -/

/-- From `2^(p+s)` to twice that, the difference to `2^(p+s)` is a value of the format. -/
theorem exists_unitsOf_sub {p s b : Nat} (hlo : 2 ^ p * 2 ^ s ≤ unitsOf p b)
    (hhi : unitsOf p b ≤ 2 * 2 ^ p * 2 ^ s) : ∃ c, unitsOf p c + 2 ^ p * 2 ^ s = unitsOf p b := by
  have hle : 2 ^ p ≤ 2 * 2 ^ p := by omega
  rw [← unitsOf_scaled le_rfl hle, unitsOf_le_iff] at hlo
  rw [← unitsOf_scaled hle le_rfl, unitsOf_le_iff] at hhi
  obtain ⟨k, rfl⟩ := Nat.exists_eq_add_of_le ((Nat.le_add_right _ _).trans hlo)
  have hk : 2 ^ p ≤ k := by omega
  obtain ⟨c, hc⟩ := exists_unitsOf p s (k - 2 ^ p) (by omega)
  exact ⟨c, by rw [hc, unitsOf_scaled hk (by omega), ← Nat.add_mul, Nat.sub_add_cancel hk]⟩

theorem roundInt_unitsOf {b : Nat} (hb : b ≤ infBits) : roundInt (unitsOf 52 b) 1 = unitsOf 52 b := by
  have hlt : b < 2 ^ 63 := hb.trans_lt infBits_lt
  have hval : signedUnits (pack false b) = unitsOf 52 b := signedUnits_pack hlt
  have hnum : isNaN (pack false b) = false := by rwa [isNaN_false_iff, magBits_pack hlt]
  rw [← hval, roundInt_one hnum]

/-- For `p` in [1, 2] the subtraction of 1.0 is exact (R79). -/
theorem signedUnits_fSub_cOne {p : F64} (h : between cOne cTwo p = true) :
    signedUnits (fSub p cOne) = signedUnits p - signedUnits cOne := by
  obtain ⟨-, -, hnum, hlo, hhi⟩ := between_iff.1 h
  have hone : signedUnits cOne = ((2 ^ 52 * 2 ^ 1022 : Nat) : Int) := by decide +kernel
  have htwo : signedUnits cTwo = ((2 * 2 ^ 52 * 2 ^ 1022 : Nat) : Int) := by decide +kernel
  have hp : signedUnits p = unitsOf 52 (magBits p) := by
    have hpos : 0 ≤ signedUnits p := (hone ▸ Int.natCast_nonneg _ : 0 ≤ signedUnits cOne).trans hlo
    rw [← units_eq, ← natAbs_signedUnits, Int.natAbs_of_nonneg hpos]
  rw [hp, hone, Int.ofNat_le] at hlo
  rw [hp, htwo, Int.ofNat_le] at hhi
  obtain ⟨c, hc⟩ := exists_unitsOf_sub hlo hhi
  have hcb : c ≤ infBits :=
    (unitsOf_le_iff.1 ((Nat.le_add_right _ _).trans hc.le)).trans ((isNaN_false_iff p).1 hnum)
  have hsub : signedUnits p - signedUnits cOne = unitsOf 52 c := by
    rw [hp, hone, ← hc, Int.natCast_add, Int.add_sub_cancel]
  rw [signedUnits_fSub (finite_of_between (by decide) (by decide) h) (by decide), hsub, roundInt_unitsOf hcb]

/-! ### The phase (R77, R79) -/

/-- The phase wraps above 1.0 only (R77). -/
theorem nextPhase_wrap {o : Osc} (h : fGt (fAdd o.phase o.delta) cOne = true) :
    nextPhase o = fSub (fAdd o.phase o.delta) cOne := if_pos h

theorem nextPhase_no_wrap {o : Osc} (h : fGt (fAdd o.phase o.delta) cOne = false) :
    nextPhase o = fAdd o.phase o.delta := if_neg (by simp [h])

theorem signedUnits_cTwo_sub_cOne : signedUnits cTwo - signedUnits cOne = signedUnits cOne := by decide +kernel

section

variable {o : Osc} (hphase : between cZero cOne o.phase = true) (hpos : fLe cZero o.delta = true)
  (hlt : fLt o.delta cOne = true)

include hphase hpos hlt

/-- A phase in [0, 1] and a DELTA in [0, 1) sum to a value in [0, 2]. -/
theorem fAdd_phase_between : between cZero cTwo (fAdd o.phase o.delta) = true := by
  obtain ⟨hzero, hone, -, hphase0, hphase1⟩ := between_iff.1 hphase
  obtain ⟨-, hnum, hdelta0⟩ := of_fLe hpos
  obtain ⟨-, -, hdelta1⟩ := of_fLt hlt
  have hdelta : between cZero cOne o.delta = true := between_iff.2 ⟨hzero, hone, hnum, hdelta0, hdelta1.le⟩
  have htwo := signedUnits_cTwo_sub_cOne
  have hz := signedUnits_cZero
  exact fAdd_between (finite_of_between (by decide) (by decide) hphase)
    (finite_of_between (by decide) (by decide) hdelta) hzero (by decide) (by omega) (by omega)

/-- A sum that wraps lies in [1, 2]. -/
theorem fAdd_phase_between_of_wrap (hwrap : fGt (fAdd o.phase o.delta) cOne = true) :
    between cOne cTwo (fAdd o.phase o.delta) = true := by
  obtain ⟨-, htwo, hnum, -, hhi⟩ := between_iff.1 (fAdd_phase_between hphase hpos hlt)
  obtain ⟨hone, -, hlo⟩ := of_fLt hwrap
  exact between_iff.2 ⟨hone, htwo, hnum, hlo.le, hhi⟩

/-- The wrap takes exactly 1.0 off the phase (R79). -/
theorem signedUnits_nextPhase_wrap (hwrap : fGt (fAdd o.phase o.delta) cOne = true) :
    signedUnits (nextPhase o) = signedUnits (fAdd o.phase o.delta) - signedUnits cOne := by
  rw [nextPhase_wrap hwrap, signedUnits_fSub_cOne (fAdd_phase_between_of_wrap hphase hpos hlt hwrap)]

/-- The phase stays in [0, 1] (R79). -/
theorem nextPhase_between : between cZero cOne (nextPhase o) = true := by
  have hsum := fAdd_phase_between hphase hpos hlt
  obtain ⟨hzero, htwo, hnum, hlo, hhi⟩ := between_iff.1 hsum
  have hone : isNaN cOne = false := by decide
  cases hwrap : fGt (fAdd o.phase o.delta) cOne
  case false =>
    rw [nextPhase_no_wrap hwrap]
    have hle : ¬ signedUnits cOne < signedUnits (fAdd o.phase o.delta) := by
      rw [← fLt_iff hone hnum]
      exact Bool.not_eq_true _ ▸ hwrap
    exact between_iff.2 ⟨hzero, hone, hnum, hlo, not_lt.1 hle⟩
  case true =>
    obtain ⟨-, -, hgt⟩ := of_fLt hwrap
    have hdiff := signedUnits_cTwo_sub_cOne
    have hz := signedUnits_cZero
    rw [nextPhase_wrap hwrap]
    exact fSub_between (finite_of_between (by decide) (by decide) hsum) (by decide) hzero hone (by omega) (by omega)

end

/-! ### The sine (D11) -/

/-- A rounding is no larger in magnitude than any value its exact result is not larger than. -/
theorem units_roundF64_le {neg : Bool} {n d : Nat} {v : F64} (hd : 0 < d) (hv : isNaN v = false)
    (h : n ≤ units v * d) : units (roundF64 neg n d) ≤ units v := by
  rw [units_eq v] at h ⊢
  rw [units_eq, magBits_roundF64, unitsOf_le_iff]
  calc roundBits 53 infBits n d
    _ ≤ roundBits 53 infBits (unitsOf 52 (magBits v) * d) d := roundBits_mono 52 hd hd (Nat.mul_le_mul_right d h)
    _ = magBits v := roundBits_unitsOf 52 hd ((isNaN_false_iff v).1 hv)

theorem between_cNegOne_cOne {x : F64} (hx : isNaN x = false) (h : units x ≤ units cOne) :
    between cNegOne cOne x = true := by
  have hone : signedUnits cOne = units cOne := signedUnits_of_pos (by decide)
  have hneg : signedUnits cNegOne = -signedUnits cOne := by decide +kernel
  have habs := natAbs_signedUnits x
  exact between_iff.2 ⟨by decide, by decide, hx, by omega, by omega⟩

/-- Neither fixed-point result passes 1. -/
theorem sinFix_le (mag : Nat) : (sinFix mag).2 ≤ fixOne := by
  have hsin : ∀ r, (sinCosFix r).1 ≤ fixOne := fun r => min_le_right _ _
  have hcos : ∀ r, (sinCosFix r).2 ≤ fixOne := fun r => max_le fixOne_pos (min_le_right _ _)
  unfold sinFix
  dsimp only
  split
  · exact hsin _
  · exact hcos _

theorem lt_of_tinyAngle {mag : Nat} (h : tinyAngle mag = true) : mag < 2 ^ 1074 :=
  (of_decide_eq_true h).trans_le (Nat.pow_le_pow_right two_pos (Nat.sub_le 1074 27))

theorem fSin_of_tiny {x : F64} (hx : finite x = true) (ht : tinyAngle (units x) = true) : fSin x = x := by
  rw [fSin, if_neg (by simp [hx]), if_pos ht]

theorem fSin_of_not_tiny {x : F64} (hx : finite x = true) (ht : tinyAngle (units x) = false) :
    fSin x = roundF64 (isNeg x != (sinFix (units x)).1) (2 ^ 1074 * (sinFix (units x)).2) fixOne := by
  rw [fSin, if_neg (by simp [hx]), if_neg (by simp [ht])]

/-- SIN of a finite value lies in [−1, 1] (D11). -/
theorem fSin_between {x : F64} (hx : finite x = true) : between cNegOne cOne (fSin x) = true := by
  have hone : units cOne = 2 ^ 1074 := by decide +kernel
  cases ht : tinyAngle (units x)
  case true =>
    rw [fSin_of_tiny hx ht]
    exact between_cNegOne_cOne (finite_isNaN hx) (by rw [hone]; exact (lt_of_tinyAngle ht).le)
  case false =>
    rw [fSin_of_not_tiny hx ht]
    refine between_cNegOne_cOne (isNaN_roundF64 _ _ _) (units_roundF64_le fixOne_pos (by decide) ?_)
    rw [hone]
    exact Nat.mul_le_mul_left _ (sinFix_le _)

/-! ### The waveforms (R78, R79) -/

theorem cNegHalf_eq_fNeg : cNegHalf = fNeg cHalf := by decide

theorem signedUnits_cNegHalf_eq_neg : signedUnits cNegHalf = -signedUnits cHalf := by
  rw [cNegHalf_eq_fNeg, signedUnits_fNeg]

section

variable {p : F64} (hp : between cZero cOne p = true)

include hp

theorem fSub_cHalf_between : between cNegHalf cHalf (fSub p cHalf) = true := by
  obtain ⟨-, -, -, hlo, hhi⟩ := between_iff.1 hp
  have hz := signedUnits_cZero
  have hhalf : signedUnits cOne = signedUnits cHalf + signedUnits cHalf := by decide +kernel
  have hneg := signedUnits_cNegHalf_eq_neg
  exact fSub_between (finite_of_between (by decide) (by decide) hp) (by decide) (by decide) (by decide) (by omega)
    (by omega)

theorem wave_sine_between : between cNegOne cOne (wave .sine p) = true := by
  obtain ⟨-, -, -, hlo, hhi⟩ := between_iff.1 hp
  have hfin : finite p = true := finite_of_between (by decide) (by decide) hp
  have hz := signedUnits_cZero
  have hpi : 0 ≤ signedUnits cTwoPi := by decide +kernel
  have hprod : between cZero cTwoPi (fMul cTwoPi p) = true := by
    refine fMul_between (by decide) hfin (by decide) (by decide) ?_ ?_
    · rw [hz, Int.zero_mul]
      exact mul_nonneg hpi (hz ▸ hlo)
    · rw [← signedUnits_cOne]
      exact mul_le_mul_of_nonneg_left hhi hpi
  exact fSin_between (finite_of_between (by decide) (by decide) hprod)

theorem wave_triangle_between : between cNegHalf cZero (wave .triangle p) = true := by
  have hd := fSub_cHalf_between hp
  obtain ⟨-, -, -, hlo, hhi⟩ := between_iff.1 hd
  have hfin : finite (fAbs (fSub p cHalf)) = true :=
    (finite_congr (magBits_fAbs _)).trans (finite_of_between (by decide) (by decide) hd)
  have habs := signedUnits_fAbs (fSub p cHalf)
  have hz := signedUnits_cZero
  have hneg := signedUnits_cNegHalf_eq_neg
  have h0 := abs_nonneg (signedUnits (fSub p cHalf))
  have h1 := abs_le.2 ⟨hneg ▸ hlo, hhi⟩
  exact fSub_between hfin (by decide) (by decide) (by decide) (by omega) (by omega)

theorem wave_saw_between : between cNegHalf cHalf (wave .saw p) = true := fSub_cHalf_between hp

end

theorem wave_square (p : F64) : wave .square p = if fLe p cHalf then cHalf else cNegHalf := by
  rw [cNegHalf_eq_fNeg]; rfl

/-! ### One advance (R77, R85) -/

theorem oscOr_of_present {s : State} {k : Nat} {o : Osc} (h : osc? s k = some o) : oscOr s k = o := by
  rw [oscOr, h]; rfl

/-- What an accepted `osc.step` leaves and answers (R85). -/
theorem oscStep_accepts {s : State} {k : Nat} {o : Osc} (he : s.record.err = false) (ho : osc? s k = some o)
    (hf : o.fqv = true) :
    Accepts (.oscStep k) s (withOsc k (advanced o) s) [lowWord (stepOut o), highWord (stepOut o)] := by
  refine accepts_of (not_pending he _) ?_ rfl ?_
  · simp [checksOf, ho, hasFreq, hf]
  · simp only [effectOf, oscOr_of_present ho, dataWords]

/-! ### The pulse generator's commands (R81 to R84) -/

/-- Every configuration command of an oscillator checks first that it is the pulse generator. -/
theorem rejects_notPulse {i : Instr} {s : State} {k : Nat} {rest : List (Bool × Cause)}
    (hc : checksOf i s = (notPulse k, .cmdBadOsc) :: rest) (he : s.record.err = false) (hk : k ≠ 0) :
    Rejects i s .cmdBadOsc :=
  rejects_of (not_pending he i) (by simp [hc, notPulse, hk])

end Sys2Proof.Machine

/-! ### The obligations -/

namespace Sys2Proof.OscillatorRules

open Sys2Proof.Machine

/-- Settles O24: the checks one by one, and the write of a present oscillator. -/
theorem oscStep : Obligations.OscStep := by
  intro osc s
  refine ⟨encodedAs_opc _, exec_pending rfl, fun he ho => ?_, fun o he ho hf => ?_, fun o p he ho hf hp => ?_⟩
  · exact rejects_of (not_pending he _) (by simp [checksOf, ho])
  · exact rejects_of (not_pending he _) (by simp [checksOf, ho, hasFreq, hf])
  · obtain rfl : p = nextPhase o := hp
    obtain ⟨hwritten, hothers⟩ := osc?_withOsc s osc (advanced o) (ho ▸ rfl)
    exact ⟨_, oscStep_accepts he ho hf, rfl, hwritten, hothers⟩

/-- Settles O25: the table by its definition, the phase's range, and from it each waveform's. -/
theorem phaseStaysInUnit : Obligations.PhaseStaysInUnit := by
  refine ⟨fun p => ⟨rfl, rfl, rfl, wave_square p⟩, fun o hphase hpos hlt => ?_⟩
  have hunit := nextPhase_between hphase hpos hlt
  refine ⟨hunit, signedUnits_nextPhase_wrap hphase hpos hlt, ?_⟩
  cases hk : o.kind <;> simp only [stepOut, hk]
  case sine => exact wave_sine_between hunit
  case triangle => exact wave_triangle_between hunit
  case saw => exact wave_saw_between hunit
  case square => rw [wave_square]; exact ite_eq_or_eq _ _ _

/-- Settles O21: the checks in order, and the flag SRV that CFG.PSR mirrors. -/
theorem oscSr : Obligations.OscSr := by
  intro osc sr s
  refine ⟨encodedAs_opc _, exec_pending rfl, rejects_notPulse rfl, ?_, ?_⟩
  · rintro he rfl hrate
    exact rejects_of (not_pending he _) (by simp [checksOf, notPulse, badRate_not hrate])
  · rintro he rfl hpos hfin
    obtain ⟨-, -, -, -, -, -, -, -, -, hpsr⟩ := cfgBits_eq (withOsc 0 (rated sr s.bank.pulse) s)
    exact ⟨_, accepts_of (not_pending he _) (by simp [checksOf, notPulse, badRate_of hpos hfin]) rfl rfl, hpsr, rfl⟩

/-- Settles O22: the checks in order, and the flag FQV that CFG.PFREQ mirrors. -/
theorem oscFreq : Obligations.OscFreq := by
  intro osc f s
  refine ⟨encodedAs_opc _, exec_pending rfl, rejects_notPulse rfl, ?_, ?_, ?_⟩
  · rintro he rfl hsrv
    exact rejects_of (not_pending he _) (by simp [checksOf, notPulse, hsrv])
  · rintro he rfl hsrv hfin
    exact rejects_of (not_pending he _) (by simp [checksOf, notPulse, hsrv, hfin])
  · rintro he rfl hsrv hfin
    obtain ⟨-, -, -, -, -, -, hpfreq, -⟩ := cfgBits_eq (withOsc 0 (tuned f s.bank.pulse) s)
    exact ⟨_, accepts_of (not_pending he _) (by simp [checksOf, notPulse, hsrv, hfin]) rfl rfl, hpfreq, rfl⟩

/-- Settles O23: the checks in order; each effect writes one field. -/
theorem oscPhaseAndKind : Obligations.OscPhaseAndKind := by
  intro osc p kind s
  refine ⟨⟨encodedAs_opc _, exec_pending rfl, rejects_notPulse rfl, ?_, ?_⟩,
    ⟨encodedAs_opc _, exec_pending rfl, rejects_notPulse rfl, ?_⟩⟩
  · rintro he rfl hfin
    exact rejects_of (not_pending he _) (by simp [checksOf, notPulse, hfin])
  · rintro he rfl hfin
    exact accepts_of (not_pending he _) (by simp [checksOf, notPulse, hfin]) rfl rfl
  · rintro he rfl
    exact accepts_of (not_pending he _) rfl rfl rfl

end Sys2Proof.OscillatorRules
end

section
/-! The obligations on the additive synth (41_synth.md): `syn.setup`, `syn.retune` and `syn.step`, each through its
effect on one harmonic at a time. -/

namespace Sys2Proof.Machine

/-! ### The harmonics under each effect (R88, R89, R92, R93) -/

theorem retune_getElem? {s : State} {j : Nat} {o : Osc} (note : Nat) (h : s.bank.harm[j]? = some o) :
    (retune note s).bank.harm[j]? =
      some (if j < s.syn.count.toNat then tuneHarm (fundamental note) j o else o) := by
  rw [retune_bank]
  exact tune_getElem? h

theorem retune_harm_length (note : Nat) (s : State) : (retune note s).bank.harm.length = s.bank.harm.length := by
  rw [retune_bank]
  exact tune_length _ _ _

/-- Retuning to the current note changes nothing (R93). -/
theorem retune_retune (note : Nat) (s : State) : retune note (retune note s) = retune note s := by
  simp only [retune, tune_tune]

/-- A harmonic below the count is created anew and then tuned (R92). -/
theorem synSetupEffect_getElem? {s : State} {count j : Nat} {o : Osc} (note : Nat) (sr : F64) (hc : count < 2 ^ 32)
    (h : s.bank.harm[j]? = some o) :
    (synSetupEffect count note sr s).bank.harm[j]? =
      some (if j < count then tuneHarm (fundamental note) j (createHarm sr o) else o) := by
  have hcount : (BitVec.ofNat 32 count).toNat = count := by rw [BitVec.toNat_ofNat, Nat.mod_eq_of_lt hc]
  have hcreated : (s.bank.harm.mapIdx fun i o => if i < count then createHarm sr o else o)[j]? =
      some (if j < count then createHarm sr o else o) := by simp [h]
  rw [synSetupEffect, retune_getElem? note hcreated, hcount]
  by_cases hj : j < count
  · simp only [if_pos hj]
  · simp only [if_neg hj]

theorem synSetupEffect_harm_length (count note : Nat) (sr : F64) (s : State) :
    (synSetupEffect count note sr s).bank.harm.length = s.bank.harm.length := by
  rw [synSetupEffect, retune_harm_length, List.length_mapIdx]

/-- The value of `syn.step` as the sum over the present harmonics, divided by their count (R89). -/
theorem synOut_eq_foldl {s : State} (h : s.syn.count.toNat ≤ s.bank.harm.length) (d : Osc) :
    synOut s =
      fDiv ((List.range s.syn.count.toNat).foldl
        (fun acc j => fAdd acc (fDiv (stepOut (s.bank.harm.getD j d)) (fMul cTwo (fOfNat (j + 1))))) cZero)
        (fOfNat s.syn.count.toNat) := by
  rw [synOut, harmSum_eq_foldl _ d, Nat.sub_zero, Nat.min_eq_left h]
  simp only [Nat.zero_add]

/-! ### Accepted commands -/

theorem synSetup_accepts {s : State} {count : Nat} (note : Nat) {sr : F64} (he : s.record.err = false)
    (hpos : fGt sr cZero = true) (hfin : finite sr = true) (hlo : 1 ≤ count) (hhi : count ≤ s.params.maxHarm) :
    Accepts (.synSetup count note sr) s (synSetupEffect count note sr s) [] :=
  accepts_of (not_pending he _)
    (by simp [checksOf, badRate_of hpos hfin, Nat.ne_of_gt hlo, Nat.not_lt.2 hhi]) rfl rfl

theorem synRetune_accepts {s : State} (note : Nat) (he : s.record.err = false) (hsyn : s.cfg.syn = true) :
    Accepts (.synRetune note) s (retune note s) [] :=
  accepts_of (not_pending he _) (by simp [checksOf, hsyn]) rfl rfl

theorem synStep_accepts {s : State} (he : s.record.err = false) (hsyn : s.cfg.syn = true) :
    Accepts .synStep s (synAdvance s) [lowWord (synOut s), highWord (synOut s)] :=
  accepts_of (not_pending he _) (by simp [checksOf, hsyn]) rfl rfl

end Sys2Proof.Machine

/-! ### The obligations -/

namespace Sys2Proof.SynthRules

open Sys2Proof.Machine

/-- Settles O28: the checks in order, and the effect harmonic by harmonic. -/
theorem synSetup : Obligations.SynSetup := by
  intro count note sr s
  refine ⟨encodedAs_opc _, exec_pending rfl, ?_, ?_, ?_⟩
  · intro he hrate
    exact rejects_of (not_pending he _) (by simp [checksOf, badRate_not hrate])
  · intro he hpos hfin hcount
    exact rejects_of (not_pending he _)
      (by simp only [checksOf, firstRaised_cons, badRate_of hpos hfin, ← Bool.decide_or, decide_eq_true hcount,
        Bool.false_eq_true, if_false, if_true])
  · rintro f0 he hpos hfin hlo hhi rfl hbits
    obtain ⟨hsyn, -⟩ := cfgBits_eq (synSetupEffect count note sr s)
    exact ⟨_, synSetup_accepts note he hpos hfin hlo hhi, hsyn, rfl, synSetupEffect_harm_length count note sr s,
      fun j o ho => synSetupEffect_getElem? note sr (by omega) ho⟩

/-- Settles O29: the check, and a retune that changes each present harmonic's frequency and is the identity when
repeated. -/
theorem synRetune : Obligations.SynRetune := by
  intro note s
  refine ⟨encodedAs_opc _, exec_pending rfl, ?_, ?_⟩
  · intro he hsyn
    exact rejects_of (not_pending he _) (by simp [checksOf, hsyn])
  · rintro f0 he hsyn rfl
    have hagain : Accepts (.synRetune note) (retune note s) (retune note s) [] := by
      have h := synRetune_accepts (s := retune note s) note he hsyn
      rwa [retune_retune] at h
    exact ⟨_, synRetune_accepts note he hsyn, hagain, rfl, rfl, retune_harm_length note s,
      fun j o ho => retune_getElem? note ho⟩

/-- Settles O30: the check, the recursive sum as the fold over the indices, and one advance of each present harmonic. -/
theorem synStep : Obligations.SynStep := by
  intro s
  refine ⟨encodedAs_opc _, exec_pending rfl, ?_, ?_⟩
  · intro he hsyn
    exact rejects_of (not_pending he _) (by simp [checksOf, hsyn])
  · rintro sum v he hsyn hcount rfl rfl
    rw [← synOut_eq_foldl hcount]
    exact ⟨_, synStep_accepts he hsyn, rfl, advanceHarm_length _ _, fun j o ho => advanceHarm_getElem? ho⟩

end Sys2Proof.SynthRules
end

section
/-! The obligations on the filter modulator (42_filter.md): the checks and the effect of `flt.setup`, one `flt.step`,
and the ranges of R96. The ranges turn on the monotonicity of rounding: the step's cutoff and resonance and the bounds
R96 gives them are roundings of exact results that stand in the same order. -/

namespace Sys2Proof.Machine

/-! ### Operand checks -/

theorem badBand_not {sr b : F64}
    (h : ¬ (fGt (fSub b c500) cZero = true ∧ fLt (fAdd b c500) (fMul sr cHalf) = true)) : badBand sr b = true :=
  Bool.eq_true_of_not_eq_false fun hband => h (badBand_eq_false.1 hband)

/-! ### Comparisons -/

theorem signedUnits_pos {r : F64} (h : fGt r cZero = true) : 0 < signedUnits r := by
  obtain ⟨-, -, hgt⟩ := of_fLt h
  rwa [signedUnits_cZero] at hgt

theorem fGt_of_between {lo hi v x : F64} (h : between lo hi v = true) (hlo : fGt lo x = true) : fGt v x = true := by
  obtain ⟨-, -, hv, h1, -⟩ := between_iff.1 h
  obtain ⟨hx, -, hlt⟩ := of_fLt hlo
  exact (fLt_iff hx hv).2 (hlt.trans_le h1)

theorem fLt_of_between {lo hi v x : F64} (h : between lo hi v = true) (hhi : fLt hi x = true) : fLt v x = true := by
  obtain ⟨-, -, hv, -, h2⟩ := between_iff.1 h
  obtain ⟨-, hx, hlt⟩ := of_fLt hhi
  exact (fLt_iff hv hx).2 (h2.trans_lt hlt)

/-! ### Monotonicity of the operations -/

/-- A factor in [−1, 1] takes a value of at least 0 between its negation and itself. -/
theorem fMul_between_fNeg {x r : F64} (hx : between cNegOne cOne x = true) (hr : finite r = true)
    (hpos : 0 ≤ signedUnits r) : between (fNeg r) r (fMul x r) = true := by
  obtain ⟨-, -, -, hlo, hhi⟩ := between_iff.1 hx
  have hnum : isNaN r = false := finite_isNaN hr
  have hneg : signedUnits cNegOne = -signedUnits cOne := by decide +kernel
  refine fMul_between (finite_of_between (by decide) (by decide) hx) hr ((isNaN_fNeg r).trans hnum) hnum ?_ ?_
  · rw [signedUnits_fNeg, ← signedUnits_cOne]
    calc -signedUnits r * signedUnits cOne
      _ = signedUnits cNegOne * signedUnits r := by rw [hneg]; ring
      _ ≤ signedUnits x * signedUnits r := mul_le_mul_of_nonneg_right hlo hpos
  · rw [← signedUnits_cOne, mul_comm (signedUnits r)]
    exact mul_le_mul_of_nonneg_right hhi hpos

/-- A sum with a term between `−r` and `r` lies between the difference and the sum with `r`, each rounded. -/
theorem fAdd_between_fSub_fAdd {m b r : F64} (hm : between (fNeg r) r m = true) (hb : finite b = true)
    (hr : finite r = true) : between (fSub b r) (fAdd b r) (fAdd m b) = true := by
  obtain ⟨-, -, -, hlo, hhi⟩ := between_iff.1 hm
  have hmfin : finite m = true := finite_of_between ((finite_fNeg r).trans hr) hr hm
  rw [signedUnits_fNeg] at hlo
  refine between_iff.2 ⟨fSub_isNaN hb hr, fAdd_isNaN hb hr, fAdd_isNaN hmfin hb, ?_, ?_⟩
  · rw [signedUnits_fSub hb hr, signedUnits_fAdd hmfin hb]
    exact roundInt_mono one_pos (by linarith)
  · rw [signedUnits_fAdd hb hr, signedUnits_fAdd hmfin hb]
    exact roundInt_mono one_pos (by linarith)

/-- A product with a value of at least 0 is monotone in the other factor. -/
theorem signedUnits_fMul_mono {x y r : F64} (hx : finite x = true) (hy : finite y = true) (hr : finite r = true)
    (hpos : 0 ≤ signedUnits r) (h : signedUnits x ≤ signedUnits y) :
    signedUnits (fMul x r) ≤ signedUnits (fMul y r) := by
  have hd : 0 < 2 ^ 1074 := Nat.two_pow_pos 1074
  rw [signedUnits_fMul hx hr, signedUnits_fMul hy hr]
  exact roundInt_mono hd (mul_le_mul_of_nonneg_right h hpos)

theorem fMul_between_fMul {lo hi x r : F64} (hlo : finite lo = true) (hhi : finite hi = true) (hr : finite r = true)
    (hpos : 0 ≤ signedUnits r) (hx : between lo hi x = true) :
    between (fMul lo r) (fMul hi r) (fMul x r) = true := by
  obtain ⟨-, -, -, h1, h2⟩ := between_iff.1 hx
  have hfin : finite x = true := finite_of_between hlo hhi hx
  exact between_iff.2 ⟨fMul_isNaN hlo hr, fMul_isNaN hhi hr, fMul_isNaN hfin hr,
    signedUnits_fMul_mono hlo hfin hr hpos h1, signedUnits_fMul_mono hfin hhi hr hpos h2⟩

/-- Multiplication by 1.0 is exact. -/
theorem signedUnits_fMul_cOne {r : F64} (hr : finite r = true) : signedUnits (fMul cOne r) = signedUnits r := by
  have hd : 0 < 2 ^ 1074 := Nat.two_pow_pos 1074
  rw [signedUnits_fMul (by decide) hr, signedUnits_cOne, ← cast_two_pow, mul_comm]
  exact roundInt_exact hd (finite_isNaN hr)

/-- Twice a positive value is positive: it is not below the value itself. -/
theorem fMul_cTwo_pos {r : F64} (hr : finite r = true) (hpos : fGt r cZero = true) :
    fGt (fMul cTwo r) cZero = true := by
  have hsigned := signedUnits_pos hpos
  have hone : signedUnits cOne ≤ signedUnits cTwo := by decide +kernel
  refine (fLt_iff (by decide) (fMul_isNaN (by decide) hr)).2 ?_
  calc signedUnits cZero
    _ < signedUnits r := signedUnits_cZero.trans_lt hsigned
    _ = signedUnits (fMul cOne r) := (signedUnits_fMul_cOne hr).symm
    _ ≤ signedUnits (fMul cTwo r) := signedUnits_fMul_mono (by decide) (by decide) hr hsigned.le hone

/-! ### Cutoff and resonance (R95, R96) -/

/-- The cutoff stays between BASE_CUT − 500 and BASE_CUT + 500 (R96). -/
theorem nextCutoff_between {s : State} (hbase : finite s.flt.baseCut = true)
    (hlfo : between cNegOne cOne (stepOut s.bank.lfoCut) = true) :
    between (fSub s.flt.baseCut c500) (fAdd s.flt.baseCut c500) (nextCutoff s) = true := by
  have hfin : finite c500 = true := by decide
  have hpos : 0 ≤ signedUnits c500 := by decide +kernel
  exact fAdd_between_fSub_fAdd (fMul_between_fNeg hlfo hfin hpos) hbase hfin

/-- 3.0 plus a value in [−1, 1] lies in [2, 4]. -/
theorem fAdd_cThree_between {x : F64} (hx : between cNegOne cOne x = true) :
    between cTwo cFour (fAdd cThree x) = true := by
  obtain ⟨-, -, -, hlo, hhi⟩ := between_iff.1 hx
  have hsub : signedUnits cTwo = signedUnits cThree + signedUnits cNegOne := by decide +kernel
  have hadd : signedUnits cFour = signedUnits cThree + signedUnits cOne := by decide +kernel
  exact fAdd_between (by decide) (finite_of_between (by decide) (by decide) hx) (by decide) (by decide) (by omega)
    (by omega)

/-- The resonance stays between 2 and 4 times BASE_RES (R96). -/
theorem nextReson_between {s : State} (hbase : finite s.flt.baseRes = true) (hpos : fGt s.flt.baseRes cZero = true)
    (hlfo : between cNegOne cOne (stepOut s.bank.lfoRes) = true) :
    between (fMul cTwo s.flt.baseRes) (fMul cFour s.flt.baseRes) (nextReson s) = true :=
  fMul_between_fMul (by decide) (by decide) hbase (signedUnits_pos hpos).le (fAdd_cThree_between hlfo)

/-! ### Accepted commands -/

theorem fltSetup_accepts {s : State} {sr carrierF cutLfoF baseCut resLfoF baseRes : F64} (he : s.record.err = false)
    (hrate : badRate sr = false) (hcarrier : finite carrierF = true) (hcut : finite cutLfoF = true)
    (hbase : finite baseCut = true) (hlfo : finite resLfoF = true) (hres : finite baseRes = true)
    (hpos : fGt baseRes cZero = true) (hband : badBand sr baseCut = false) :
    Accepts (.fltSetup sr carrierF cutLfoF baseCut resLfoF baseRes) s
      (fltSetupEffect sr carrierF cutLfoF baseCut resLfoF baseRes s) [] :=
  accepts_of (not_pending he _) (by simp [checksOf, hrate, hcarrier, hcut, hbase, hlfo, hres, hpos, hband]) rfl rfl

theorem fltStep_accepts {s : State} {x : F64} (he : s.record.err = false) (hflt : s.cfg.flt = true)
    (hx : finite x = true) :
    Accepts (.fltStep x) s (fltAdvance x s) [lowWord (fltOut x s), highWord (fltOut x s)] :=
  accepts_of (not_pending he _) (by simp [checksOf, hflt, hx]) rfl rfl

end Sys2Proof.Machine

/-! ### The obligations -/

namespace Sys2Proof.FilterRules

open Sys2Proof.Machine

/-- Settles O31: each check with those before it passed, and the effect written out. -/
theorem fltSetup : Obligations.FltSetup := by
  rintro sr carrierF cutLfoF baseCut resLfoF baseRes s i rfl
  refine ⟨encodedAs_opc _, exec_pending rfl, fun he hrate => ?_, fun he hsr hsrfin => ?_⟩
  · exact rejects_of (not_pending he _) (by simp [checksOf, badRate_not hrate])
  have hrate := badRate_of hsr hsrfin
  refine ⟨fun hcarrier => ?_, fun hcarrier hcut => ?_, fun hcarrier hcut hbase => ?_,
    fun hcarrier hcut hbase hlfo => ?_,
    fun hcarrier hcut hbase hlfo => ⟨fun hbad => ?_, fun hres hpos hlow hhigh => ?_⟩⟩
  · exact rejects_of (not_pending he _) (by simp [checksOf, hrate, hcarrier])
  · exact rejects_of (not_pending he _) (by simp [checksOf, hrate, hcarrier, hcut])
  · exact rejects_of (not_pending he _) (by simp [checksOf, hrate, hcarrier, hcut, hbase])
  · exact rejects_of (not_pending he _) (by simp [checksOf, hrate, hcarrier, hcut, hbase, hlfo])
  · -- the last two checks have one cause, so the second raises it whatever the first says
    rcases hbad with hres | hband
    · exact rejects_of (not_pending he _) (by simp [checksOf, hrate, hcarrier, hcut, hbase, hlfo, hres])
    · exact rejects_of (not_pending he _)
        (by simp [checksOf, hrate, hcarrier, hcut, hbase, hlfo, badBand_not hband])
  · obtain ⟨-, hflt, -⟩ := cfgBits_eq (fltSetupEffect sr carrierF cutLfoF baseCut resLfoF baseRes s)
    exact ⟨_, fltSetup_accepts he hrate hcarrier hcut hbase hlfo hres hpos (badBand_eq_false.2 ⟨hlow, hhigh⟩), hflt,
      rfl⟩

/-- Settles O33: both ranges by monotonicity of rounding; the band check of R103 puts the cutoff's bounds inside
(0, SR/2). -/
theorem cutoffAndResonanceRanges : Obligations.CutoffAndResonanceRanges := by
  intro s hcut hband hres hpos hlfoCut hlfoRes
  obtain ⟨hlow, hhigh⟩ := badBand_eq_false.1 hband
  have hcutoff := nextCutoff_between hcut hlfoCut
  have hreson := nextReson_between hres hpos hlfoRes
  exact ⟨hcutoff, fGt_of_between hcutoff hlow, fLt_of_between hcutoff hhigh, hreson,
    fGt_of_between hreson (fMul_cTwo_pos hres hpos)⟩

/-- Settles O32: the checks in order; the operations written out are those of the step. -/
theorem fltStep : Obligations.FltStep := by
  intro x s
  refine ⟨encodedAs_opc _, exec_pending rfl, ?_, ?_, ?_⟩
  · intro he hflt
    exact rejects_of (not_pending he _) (by simp [checksOf, hflt])
  · intro he hflt hx
    exact rejects_of (not_pending he _) (by simp [checksOf, hflt, hx])
  · rintro cutoff reson n n2 iq c1 m y s1 s2 coef he hflt hx rfl rfl rfl rfl rfl rfl rfl rfl rfl rfl rfl
    exact fltStep_accepts he hflt hx

end Sys2Proof.FilterRules
end

section
/-! The obligations on the delay line (43_delay.md): the checks and the effect of its four commands, the pointer
invariant of R105 under every command, and the delay of R107 seen at the tap. The delay turns on two facts: each pointer
after `j` steps is its first value plus `j` modulo SIZE, and RP plus the tap's delay is WP modulo SIZE. -/

namespace Sys2Proof.Machine

/-! ### The pointers as whole numbers (R106, R110) -/

/-- A pointer that each step advances by one modulo SIZE is, after `j` steps, `j` entries on (R106). -/
theorem toNat_of_nextPointer {size : Word} {p : Nat → Word} (hp : ∀ j, p (j + 1) = nextPointer size (p j))
    (h0 : (p 0).toNat < size.toNat) (j : Nat) : (p j).toNat = ((p 0).toNat + j) % size.toNat := by
  induction j with
  | zero => exact (Nat.mod_eq_of_lt h0).symm
  | succ j ih => rw [hp, nextPointer_toNat (Nat.zero_lt_of_lt h0), ih, Nat.mod_add_mod, Nat.add_assoc]

section

variable {s : State} {d : Int} (h0 : 0 ≤ d) (hd : d < s.dly.size.toNat)

include h0 hd

/-- The time is stored as it is. -/
theorem dlyTimeEffect_time : ((dlyTimeEffect d s).dly.time.toNat : Int) = d := by
  have hword : s.dly.size.toNat < 2 ^ 32 := s.dly.size.isLt
  exact intWord_toNat h0 (by omega)

variable (hwp : s.dly.wp.toNat < s.dly.size.toNat)

include hwp

/-- `WP − D`, with SIZE added when it is negative, is the remainder by SIZE (R110). -/
theorem tapPointer_eq_emod : tapPointer s d = ((s.dly.wp.toNat : Int) - d) % (s.dly.size.toNat : Int) := by
  unfold tapPointer
  by_cases hneg : (s.dly.wp.toNat : Int) - d < 0
  · rw [if_pos hneg, ← Int.add_emod_right, Int.emod_eq_of_lt (by omega) (by omega)]
  · rw [if_neg hneg, Int.emod_eq_of_lt (by omega) (by omega)]

/-- RP after `dly.time` (R110). -/
theorem dlyTimeEffect_rp :
    ((dlyTimeEffect d s).dly.rp.toNat : Int) = ((s.dly.wp.toNat : Int) - d) % (s.dly.size.toNat : Int) := by
  have hword : s.dly.size.toNat < 2 ^ 32 := s.dly.size.isLt
  have hlo := Int.emod_nonneg ((s.dly.wp.toNat : Int) - d) (b := s.dly.size.toNat) (by omega)
  have hhi := Int.emod_lt_of_pos ((s.dly.wp.toNat : Int) - d) (b := s.dly.size.toNat) (by omega)
  rw [← tapPointer_eq_emod h0 hd hwp] at hlo hhi ⊢
  exact intWord_toNat hlo (by omega)

end

/-! ### The invariant of R105 under each effect -/

/-- `dly.size` starts the line anew, with every pointer 0 and nothing listed (R109). -/
theorem delayOk_dlySizeEffect {s : State} {n : Int} (hs : DelayOk s) (hcap : s.params.delayCapacity ≤ 2147483647)
    (hpos : 0 < n) (hn : n ≤ s.params.delayCapacity) : DelayOk (dlySizeEffect n s) := by
  have hsize : ((intWord n).toNat : Int) = n := intWord_toNat hpos.le (by omega)
  have hsizePos : 0 < (intWord n).toNat := by omega
  exact
    { sized := iff_of_true rfl hsizePos
      capacity := show (intWord n).toNat ≤ s.params.delayCapacity by omega
      wp := fun _ => hsizePos
      time := fun _ => hsizePos
      rp := fun _ => by simp
      dtime := fun _ => rfl
      dfb := fun hfb => ⟨rfl, (hs.dfb hfb).2⟩
      canonical := memWf_nil
      present := fun _ hc => nomatch hc }

/-- `dly.time` moves RP to where the pointer equation asks it to be (R110). -/
theorem delayOk_dlyTimeEffect {s : State} {d : Int} (hs : DelayOk s) (hsize : s.cfg.dsize = true) (h0 : 0 ≤ d)
    (hd : d < s.dly.size.toNat) : DelayOk (dlyTimeEffect d s) := by
  have hwp := hs.wp hsize
  have htime := dlyTimeEffect_time h0 hd
  refine
    { sized := hs.sized
      capacity := hs.capacity
      wp := hs.wp
      time := fun _ => show (dlyTimeEffect d s).dly.time.toNat < s.dly.size.toNat by omega
      rp := fun _ => ?_
      dtime := fun _ => hsize
      dfb := hs.dfb
      canonical := hs.canonical
      present := hs.present }
  have hdiff : (s.dly.wp.toNat : Int) - d + s.dly.size.toNat =
      (s.dly.wp.toNat + s.dly.size.toNat - (dlyTimeEffect d s).dly.time.toNat : Nat) := by omega
  rw [← Nat.cast_inj (R := Int), dlyTimeEffect_rp h0 hd hwp, ← Int.add_emod_right, hdiff]
  exact (Int.natCast_emod _ _).symm

/-- `dly.fb` stores a checked value (R111). -/
theorem delayOk_setFeedback {s : State} {f : F64} (hs : DelayOk s) (hsize : s.cfg.dsize = true)
    (hf : outsideUnit f = false) :
    DelayOk { s with dly := { s.dly with fb := f }, cfg := { s.cfg with dfb := true } } :=
  { hs with dfb := fun _ => ⟨hsize, hf⟩ }

theorem delayOk_dlyAdvance {s : State} (hs : DelayOk s) (hsize : s.cfg.dsize = true) (x : F64) :
    DelayOk (dlyAdvance x s) :=
  hs.advance hsize (dlyOut x s) rfl rfl rfl rfl

theorem delayOk_sampleStep {s : State} (hs : DelayOk s) (hsize : s.cfg.dsize = true) :
    DelayOk (sampleStep s).1 := by
  obtain ⟨-, hparams, -, hcfg, -⟩ := sampleStep_keeps s
  exact hs.advance hsize (afterDly s).2 hparams hcfg (sampleStep_buf s) (sampleStep_dly s)

theorem delayOk_sampleSteps {s : State} (hs : DelayOk s) (hsize : s.cfg.dsize = true) (n : Nat) :
    DelayOk (sampleSteps n s).1 := by
  refine (sampleSteps_induct (P := fun t => DelayOk t ∧ t.cfg.dsize = true) ?_ n ⟨hs, hsize⟩).1
  rintro t ⟨ht, htsize⟩
  obtain ⟨-, -, -, hcfg, -⟩ := sampleStep_keeps t
  exact ⟨delayOk_sampleStep ht htsize, hcfg ▸ htsize⟩

theorem dsize_of_ready {s : State} (h : ready s = true) : s.cfg.dsize = true := by
  simp only [ready, Bool.and_eq_true] at h
  obtain ⟨⟨⟨⟨⟨⟨⟨-, hsize⟩, -⟩, -⟩, -⟩, -⟩, -⟩, -⟩ := h
  exact hsize

/-- The effect of a command whose checks pass keeps the invariant of R105. -/
theorem delayOk_effectOf {i : Instr} {s : State} (hs : DelayOk s) (hcap : s.params.delayCapacity ≤ 2147483647)
    (hc : ∀ p ∈ checksOf i s, p.1 = false) : DelayOk (effectOf i s).1 := by
  cases i with
  | reset => exact delayOk_cleared s.params s.ports
  | dlySize n =>
    obtain ⟨hpos, hn⟩ : 0 < n ∧ n ≤ s.params.delayCapacity := by simpa [checksOf] using hc
    exact delayOk_dlySizeEffect hs hcap hpos hn
  | dlyTime d =>
    obtain ⟨hsize, h0, hd⟩ : s.cfg.dsize = true ∧ 0 ≤ d ∧ d < s.dly.size.toNat := by simpa [checksOf] using hc
    exact delayOk_dlyTimeEffect hs hsize h0 hd
  | dlyFb f =>
    obtain ⟨hsize, hf⟩ : s.cfg.dsize = true ∧ outsideUnit f = false := by simpa [checksOf] using hc
    exact delayOk_setFeedback hs hsize hf
  | dlyStep x =>
    obtain ⟨⟨⟨hsize, -⟩, -⟩, -⟩ :
        ((s.cfg.dsize = true ∧ s.cfg.dtime = true) ∧ s.cfg.dfb = true) ∧ finite x = true := by
      simpa [checksOf] using hc
    exact delayOk_dlyAdvance hs hsize x
  | process n =>
    have hready : ready s = true := by simpa [checksOf] using hc
    exact delayOk_sampleSteps hs (dsize_of_ready hready) n
  | _ => exact hs.congr rfl rfl rfl rfl rfl rfl

/-! ### The value of a step (R106) -/

theorem fMul_comm_of_finite {x y : F64} (hx : finite x = true) (hy : finite y = true) : fMul x y = fMul y x := by
  rw [fMul_eq hx hy, fMul_eq hy hx, bne_comm, mul_comm]

/-- A finite value times +0.0 is a zero. -/
theorem signedUnits_fMul_cZero {y : F64} (hy : finite y = true) : signedUnits (fMul cZero y) = 0 := by
  rw [signedUnits_fMul (by decide) hy, signedUnits_cZero, zero_mul, roundInt_zero]

/-- Without feedback and with a finite tap the mix has the input's value, up to the sign of a zero (assumption 15). -/
theorem signedUnits_dlyOut_no_feedback {x : F64} {s : State} (hx : finite x = true) (hfb : s.dly.fb = cZero)
    (htap : finite (dlyTap s) = true) : signedUnits (dlyOut x s) = signedUnits x := by
  have hone : fSub cOne cZero = cOne := by decide +kernel
  have hdry : signedUnits (fMul x cOne) = signedUnits x := by
    rw [fMul_comm_of_finite hx (by decide), signedUnits_fMul_cOne hx]
  have hwet := signedUnits_fMul_cZero htap
  have hdryFin : finite (fMul x cOne) = true :=
    finite_of_bounds hx hx (fMul_isNaN hx (by decide)) hdry.ge hdry.le
  have hwetFin : finite (fMul cZero (dlyTap s)) = true :=
    finite_of_bounds (lo := cZero) (hi := cZero) (by decide) (by decide) (fMul_isNaN (by decide) htap)
      (signedUnits_cZero.trans hwet.symm).le (hwet.trans signedUnits_cZero.symm).le
  rw [dlyOut, hfb, hone, signedUnits_fAdd hdryFin hwetFin, hdry, hwet, add_zero, roundInt_one (finite_isNaN hx)]

/-! ### Successive steps (R106) -/

section

variable (x : Nat → F64) {s : State}

theorem dlyRun_size (j : Nat) : (dlyRun x s j).dly.size = s.dly.size := by
  induction j with
  | zero => rfl
  | succ j ih => exact ih

theorem dlyRun_canonical (hs : Memory.wf s.buf = true) (j : Nat) : Memory.wf (dlyRun x s j).buf = true := by
  induction j with
  | zero => exact hs
  | succ j ih => exact wf_memWrite ih _ _

theorem dlyRun_wp (h : s.dly.wp.toNat < s.dly.size.toNat) (j : Nat) :
    (dlyRun x s j).dly.wp.toNat = (s.dly.wp.toNat + j) % s.dly.size.toNat :=
  toNat_of_nextPointer (p := fun j => (dlyRun x s j).dly.wp)
    (fun j => congrArg (nextPointer · (dlyRun x s j).dly.wp) (dlyRun_size x j)) h j

theorem dlyRun_rp (h : s.dly.rp.toNat < s.dly.size.toNat) (j : Nat) :
    (dlyRun x s j).dly.rp.toNat = (s.dly.rp.toNat + j) % s.dly.size.toNat :=
  toNat_of_nextPointer (p := fun j => (dlyRun x s j).dly.rp)
    (fun j => congrArg (nextPointer · (dlyRun x s j).dly.rp) (dlyRun_size x j)) h j

/-- A cell that WP does not name in `m` steps reads after them as before. -/
theorem memRead_dlyRun_unwritten {k u m : Nat} (h : ∀ i < m, (dlyRun x s (u + i)).dly.wp.toNat ≠ k) :
    memRead (dlyRun x s (u + m)).buf k = memRead (dlyRun x s u).buf k := by
  induction m with
  | zero => rfl
  | succ m ih =>
    calc memRead (dlyRun x s (u + (m + 1))).buf k
      _ = memRead (dlyRun x s (u + m)).buf k := memRead_memWrite_other _ _ (h m (Nat.lt_succ_self m)).symm
      _ = memRead (dlyRun x s u).buf k := ih fun i hi => h i (Nat.lt_succ_of_lt hi)

/-- The cell a step writes holds its output after it. -/
theorem memRead_dlyRun_written (hs : Memory.wf s.buf = true) (t : Nat) :
    memRead (dlyRun x s (t + 1)).buf (dlyRun x s t).dly.wp.toNat = dlyOutAt x s t := by
  show memRead (memWrite (dlyRun x s t).buf _ _) _ = _
  rw [memRead_memWrite (dlyRun_canonical x hs t), if_pos rfl]
  rfl

end

/-! ### The delay at the tap (R107) -/

/-- Numbers less than `n` apart leave different remainders by `n`. -/
theorem mod_ne_mod_of_lt {a b n : Nat} (hab : a < b) (hb : b < a + n) : a % n ≠ b % n := by
  have ha : a ∈ Finset.Ico a (a + n) := Finset.mem_Ico.2 (by omega)
  exact fun h => hab.ne (Nat.mod_injOn_Ico a n ha (Finset.mem_Ico.2 ⟨hab.le, hb⟩) h)

section

variable {s : State} (hs : DelayOk s) (hsize : s.cfg.dsize = true)

include hs hsize

theorem DelayOk.rp_lt : s.dly.rp.toNat < s.dly.size.toNat := by
  rw [hs.rp hsize]
  exact Nat.mod_lt _ (hs.sized.1 hsize)

/-- The delay seen at the tap is 1 to SIZE. -/
theorem DelayOk.tapDelay_bounds : 0 < tapDelay s ∧ tapDelay s ≤ s.dly.size.toNat := by
  have hpos := hs.sized.1 hsize
  have htime := hs.time hsize
  unfold tapDelay
  split <;> omega

/-- As many entries on from RP as the delay is stands WP. -/
theorem DelayOk.rp_add_tapDelay_mod : (s.dly.rp.toNat + tapDelay s) % s.dly.size.toNat = s.dly.wp.toNat := by
  have hwp := hs.wp hsize
  have htime := hs.time hsize
  rw [hs.rp hsize, Nat.mod_add_mod, tapDelay]
  split
  case isTrue hzero => rw [hzero, Nat.sub_zero, Nat.add_mod_right, Nat.add_mod_right, Nat.mod_eq_of_lt hwp]
  case isFalse => rw [Nat.sub_add_cancel (by omega), Nat.add_mod_right, Nat.mod_eq_of_lt hwp]

/-- WP as it is at step `j`, counted from the first RP. -/
theorem DelayOk.dlyRun_wp_from_rp (x : Nat → F64) (j : Nat) :
    (dlyRun x s j).dly.wp.toNat = (s.dly.rp.toNat + tapDelay s + j) % s.dly.size.toNat := by
  rw [dlyRun_wp x (hs.wp hsize), ← hs.rp_add_tapDelay_mod hsize, Nat.mod_add_mod]

/-- The tap of step `t + D` is the output of step `t`: no step between them writes that cell again. -/
theorem DelayOk.dlyTapAt_add_tapDelay (x : Nat → F64) (t : Nat) :
    dlyTapAt x s (t + tapDelay s) = dlyOutAt x s t := by
  obtain ⟨hpos, hle⟩ := hs.tapDelay_bounds hsize
  have hcell : (dlyRun x s (t + tapDelay s)).dly.rp.toNat = (dlyRun x s t).dly.wp.toNat := by
    rw [dlyRun_rp x (hs.rp_lt hsize), hs.dlyRun_wp_from_rp hsize, Nat.add_assoc, Nat.add_comm (tapDelay s)]
  have hkept : ∀ i < tapDelay s - 1, (dlyRun x s (t + 1 + i)).dly.wp.toNat ≠ (dlyRun x s t).dly.wp.toNat := by
    intro i hi
    rw [hs.dlyRun_wp_from_rp hsize, hs.dlyRun_wp_from_rp hsize]
    exact (mod_ne_mod_of_lt (by omega) (by omega)).symm
  calc dlyTapAt x s (t + tapDelay s)
    _ = memRead (dlyRun x s (t + 1 + (tapDelay s - 1))).buf (dlyRun x s t).dly.wp.toNat := by
      rw [dlyTapAt, dlyTap, hcell, show t + 1 + (tapDelay s - 1) = t + tapDelay s by omega]
    _ = memRead (dlyRun x s (t + 1)).buf (dlyRun x s t).dly.wp.toNat := memRead_dlyRun_unwritten x hkept
    _ = dlyOutAt x s t := memRead_dlyRun_written x hs.canonical t

/-- Before step `D` the tap is what the buffer held at first. -/
theorem DelayOk.dlyTapAt_of_lt_tapDelay (x : Nat → F64) {t : Nat} (ht : t < tapDelay s) :
    dlyTapAt x s t = memRead s.buf ((s.dly.rp.toNat + t) % s.dly.size.toNat) := by
  obtain ⟨-, hle⟩ := hs.tapDelay_bounds hsize
  have hkept : ∀ i < t, (dlyRun x s (0 + i)).dly.wp.toNat ≠ (s.dly.rp.toNat + t) % s.dly.size.toNat := by
    intro i hi
    rw [hs.dlyRun_wp_from_rp hsize]
    exact (mod_ne_mod_of_lt (by omega) (by omega)).symm
  have hread := memRead_dlyRun_unwritten x hkept
  rw [Nat.zero_add] at hread
  rw [dlyTapAt, dlyTap, dlyRun_rp x (hs.rp_lt hsize), hread]
  rfl

end

/-! ### Accepted commands -/

theorem dlySize_accepts {s : State} {n : Int} (he : s.record.err = false) (hpos : 0 < n)
    (hn : n ≤ s.params.delayCapacity) : Accepts (.dlySize n) s (dlySizeEffect n s) [] :=
  accepts_of (not_pending he _) (by simp [checksOf, not_le.2 hpos, not_lt.2 hn]) rfl rfl

theorem dlyTime_accepts {s : State} {d : Int} (he : s.record.err = false) (hsize : s.cfg.dsize = true) (h0 : 0 ≤ d)
    (hd : d < s.dly.size.toNat) : Accepts (.dlyTime d) s (dlyTimeEffect d s) [] :=
  accepts_of (not_pending he _) (by simp [checksOf, hsize, h0, hd]) rfl rfl

theorem dlyStep_accepts {s : State} {x : F64} (he : s.record.err = false) (hsize : s.cfg.dsize = true)
    (htime : s.cfg.dtime = true) (hfb : s.cfg.dfb = true) (hx : finite x = true) (hrp : s.dly.rp < s.dly.size)
    (hwp : s.dly.wp < s.dly.size) :
    Accepts (.dlyStep x) s (dlyAdvance x s) [lowWord (dlyOut x s), highWord (dlyOut x s)] :=
  accepts_of (not_pending he _) (by simp [checksOf, hsize, htime, hfb, hx]) (absentDelayCell_none hrp hwp) rfl

end Sys2Proof.Machine

/-! ### The obligations -/

namespace Sys2Proof.DelayRules

open Sys2Proof.Machine

/-- Settles O39: a rejection leaves the delay line, and each effect keeps its invariant. -/
theorem delayPointersKept : Obligations.DelayPointersKept := by
  intro i s t hcap hs h
  rcases exec_next h with ⟨c, rfl⟩ | ⟨-, hc, -, rfl⟩
  · exact hs.congr rfl rfl rfl rfl rfl rfl
  · exact (delayOk_effectOf hs hcap hc).congr rfl rfl rfl rfl rfl rfl

/-- Settles O34: the checks in order, and an effect that lists no cell. -/
theorem dlySize : Obligations.DlySize := by
  intro n s
  refine ⟨encodedAs_opc _, exec_pending rfl, ?_, ?_, ?_⟩
  · intro he hn
    exact rejects_of (not_pending he _) (by simp [checksOf, hn])
  · intro he hpos hn
    exact rejects_of (not_pending he _) (by simp [checksOf, not_le.2 hpos, hn])
  · intro he hpos hn
    obtain ⟨-, -, hdsize, hdtime, -⟩ := cfgBits_eq (dlySizeEffect n s)
    exact ⟨_, dlySize_accepts he hpos hn, fun j _ => memRead_nil j, hdsize, hdtime, rfl⟩

/-- Settles O35: the checks in order, and RP as the remainder of WP − D. -/
theorem dlyTime : Obligations.DlyTime := by
  intro d s
  refine ⟨encodedAs_opc _, exec_pending rfl, ?_, ?_, ?_⟩
  · intro he hsize
    exact rejects_of (not_pending he _) (by simp [checksOf, hsize])
  · intro he hsize hd
    exact rejects_of (not_pending he _) (by simp [checksOf, hsize, hd])
  · intro he hsize h0 hd hwp
    obtain ⟨-, -, -, hdtime, -⟩ := cfgBits_eq (dlyTimeEffect d s)
    exact ⟨_, dlyTime_accepts he hsize h0 hd, hdtime, dlyTimeEffect_rp h0 hd hwp, dlyTimeEffect_time h0 hd, rfl⟩

/-- Settles O37: the checks in order, one write at WP, and both pointers one on. -/
theorem dlyStep : Obligations.DlyStep := by
  intro x s
  refine ⟨encodedAs_opc _, exec_pending rfl, ?_, ?_, ?_⟩
  · intro he hconfig
    have hmissing : (!s.cfg.dsize || !s.cfg.dtime || !s.cfg.dfb) = true := by
      simpa [or_assoc, imp_iff_not_or] using hconfig
    exact rejects_of (not_pending he _) (by simp only [checksOf, firstRaised_cons, hmissing, if_true])
  · intro he hsize htime hfb hx
    exact rejects_of (not_pending he _) (by simp [checksOf, hsize, htime, hfb, hx])
  · rintro y out he hsize htime hfb hx hrp hwp rfl rfl
    have hpos : 0 < s.dly.size.toNat := Nat.zero_lt_of_lt hwp
    refine ⟨⟨_, dlyStep_accepts he hsize htime hfb hx hrp hwp, fun hcanonical => ?_, fun j hj => ?_,
      nextPointer_toNat hpos _, nextPointer_toNat hpos _, rfl⟩, fun hzero htap => ?_⟩
    · rw [dlyAdvance_buf, memRead_memWrite hcanonical, if_pos rfl]
      rfl
    · exact memRead_memWrite_other _ _ hj
    · exact signedUnits_dlyOut_no_feedback hx hzero htap

/-- Settles O38: the cell read is the one written `D` steps before, or one not yet written. -/
theorem tapDelay : Obligations.TapDelay := by
  intro x s t hs htime
  have hsize := hs.dtime htime
  have hfirst := hs.dlyTapAt_of_lt_tapDelay hsize x (t := t)
  exact ⟨hs.dlyTapAt_add_tapDelay hsize x t, hfirst, fun ht hbuf => by rw [hfirst ht, hbuf, memRead_nil]⟩

/-- Settles O36: the checks in order, of the incoming value. -/
theorem dlyFb : Obligations.DlyFb := by
  intro f s
  refine ⟨encodedAs_opc _, exec_pending rfl, ?_, ?_, ?_⟩
  · intro he hsize
    exact rejects_of (not_pending he _) (by simp [checksOf, hsize])
  · intro he hsize hf
    exact rejects_of (not_pending he _) (by simp [checksOf, hsize, outsideUnit_not hf])
  · intro he hsize hlo hhi
    refine ⟨_, accepts_of (not_pending he _) (by simp [checksOf, hsize, outsideUnit_of hlo hhi]) rfl rfl, ?_, rfl⟩
    obtain ⟨-, -, -, -, hdfb, -⟩ := cfgBits_eq (effectOf (.dlyFb f) s).1
    exact hdfb

end Sys2Proof.DelayRules
end

section
/-! The obligations on the auto-panner (44_panner.md): the checks and the effect of `pan.setup` and `pan.thr`, one
`pan.step` under both orders of R113, and the floors of R115. The floors turn on one fact: a value of [0, 1] raised to
a threshold of [0, 1] lies between that threshold and 1. -/

namespace Sys2Proof.Machine

/-! ### The two orders of the step (R113, R114) -/

/-- Under order A the panning oscillator is advanced from the modulator's output, and keeps its advance. -/
theorem panAfter_of_a {s : State} (h : s.params.panOrder = .a) :
    panAfter s = { s.bank.pan with phase := nextPhase (panSource s) } := by
  simp only [panAfter, panSource, h, advanced]

/-- Under order B its advance is overwritten with the modulator's output. -/
theorem panAfter_of_b {s : State} (h : s.params.panOrder = .b) :
    panAfter s = { s.bank.pan with phase := stepOut s.bank.pmod } := by
  simp only [panAfter, panSource, h, advanced]

/-! ### The gains (R113, R115) -/

/-- The threshold is in [0, 1] once its check has passed (R116, R117). -/
theorem between_cZero_cOne_of_outsideUnit {v : F64} (h : outsideUnit v = false) : between cZero cOne v = true := by
  obtain ⟨hlo, hhi⟩ := outsideUnit_eq_false.1 h
  obtain ⟨hzero, hnum, hle⟩ := of_fLe hlo
  obtain ⟨-, hone, hlt⟩ := of_fLt hhi
  exact between_iff.2 ⟨hzero, hone, hnum, hle, hlt.le⟩

/-- The lower end of a range may be lowered. -/
theorem between_of_lower {lo hi lo' hi' v : F64} (hlo : between lo' hi' lo = true) (hv : between lo hi v = true) :
    between lo' hi v = true := by
  obtain ⟨hnum', -, -, hle', -⟩ := between_iff.1 hlo
  obtain ⟨-, hhi, hnum, hle, hge⟩ := between_iff.1 hv
  exact between_iff.2 ⟨hnum', hhi, hnum, hle'.trans hle, hge⟩

/-- A value of [0, 1] raised to a threshold of [0, 1] lies between the threshold and 1. -/
theorem floorAt_between {thr g : F64} (hthr : between cZero cOne thr = true) (hg : between cZero cOne g = true) :
    between thr cOne (floorAt thr g) = true := by
  obtain ⟨-, hone, hthrNum, -, hthr1⟩ := between_iff.1 hthr
  obtain ⟨-, -, hgNum, -, hg1⟩ := between_iff.1 hg
  unfold floorAt
  split
  case isTrue => exact between_iff.2 ⟨hthrNum, hone, hthrNum, le_rfl, hthr1⟩
  case isFalse hlt =>
    rw [fLt_iff hgNum hthrNum, not_lt] at hlt
    exact between_iff.2 ⟨hthrNum, hone, hgNum, hlt, hg1⟩

/-- Half of 1 plus a value of [−1, 1] lies in [0, 1] (R115). -/
theorem panRaw_between {v : F64} (hv : between cNegOne cOne v = true) :
    between cZero cOne (fMul (fAdd v cOne) cHalf) = true := by
  obtain ⟨-, -, -, hlo, hhi⟩ := between_iff.1 hv
  have hsub : signedUnits cZero = signedUnits cNegOne + signedUnits cOne := by decide +kernel
  have htwo := signedUnits_cTwo_sub_cOne
  have hsum : between cZero cTwo (fAdd v cOne) = true :=
    fAdd_between (finite_of_between (by decide) (by decide) hv) (by decide) (by decide) (by decide) (by omega)
      (by omega)
  have hhalf : 0 ≤ signedUnits cHalf := by decide +kernel
  have hprod := fMul_between_fMul (by decide) (by decide) (by decide) hhalf hsum
  have hlow : fMul cZero cHalf = cZero := by decide +kernel
  have hhigh : fMul cTwo cHalf = cOne := by decide +kernel
  rwa [hlow, hhigh] at hprod

/-- 1 less a value of [0, 1] lies in [0, 1]. -/
theorem fSub_cOne_between {g : F64} (hg : between cZero cOne g = true) : between cZero cOne (fSub cOne g) = true := by
  obtain ⟨hzero, hone, -, hlo, hhi⟩ := between_iff.1 hg
  have hz := signedUnits_cZero
  exact fSub_between (by decide) (finite_of_between (by decide) (by decide) hg) hzero hone (by omega) (by omega)

section

variable {s : State} (hout : between cNegOne cOne (stepOut (panSource s)) = true)
  (hthr : outsideUnit s.pan.thr = false)

include hout hthr

theorem panGr_between : between s.pan.thr cOne (panGr s) = true :=
  floorAt_between (between_cZero_cOne_of_outsideUnit hthr) (panRaw_between hout)

theorem panGl_between : between s.pan.thr cOne (panGl s) = true := by
  have hunit := between_cZero_cOne_of_outsideUnit hthr
  exact floorAt_between hunit (fSub_cOne_between (between_of_lower hunit (panGr_between hout hthr)))

end

/-! ### Accepted commands -/

theorem panSetup_accepts {s : State} {sr panF modF thr : F64} (he : s.record.err = false) (hrate : badRate sr = false)
    (hpan : finite panF = true) (hmod : finite modF = true) (hthr : outsideUnit thr = false) :
    Accepts (.panSetup sr panF modF thr) s (panSetupEffect sr panF modF thr s) [] :=
  accepts_of (not_pending he _) (by simp [checksOf, hrate, hpan, hmod, hthr]) rfl rfl

theorem panStep_accepts {s : State} (he : s.record.err = false) (hpan : s.cfg.pan = true) :
    Accepts .panStep s (panAdvance s)
      [lowWord (panGr s), highWord (panGr s), lowWord (panGl s), highWord (panGl s)] :=
  accepts_of (not_pending he _) (by simp [checksOf, hpan]) rfl rfl

end Sys2Proof.Machine

/-! ### The obligations -/

namespace Sys2Proof.PannerRules

open Sys2Proof.Machine

/-- Settles O40: each check with those before it passed, and the effect written out. -/
theorem panSetup : Obligations.PanSetup := by
  rintro sr panF modF thr s i rfl
  refine ⟨encodedAs_opc _, exec_pending rfl, fun he hrate => ?_, fun he hpos hfin => ?_⟩
  · exact rejects_of (not_pending he _) (by simp [checksOf, badRate_not hrate])
  have hrate := badRate_of hpos hfin
  refine ⟨fun hpan => ?_, fun hpan hmod => ?_, fun hpan hmod hthr => ?_, ?_⟩
  · exact rejects_of (not_pending he _) (by simp [checksOf, hrate, hpan])
  · exact rejects_of (not_pending he _) (by simp [checksOf, hrate, hpan, hmod])
  · exact rejects_of (not_pending he _) (by simp [checksOf, hrate, hpan, hmod, outsideUnit_not hthr])
  · rintro pmod hpan hmod hlo hhi rfl
    obtain ⟨-, -, -, -, -, hcfg, -⟩ := cfgBits_eq (panSetupEffect sr panF modF thr s)
    exact ⟨_, panSetup_accepts he hrate hpan hmod (outsideUnit_of hlo hhi), hcfg, rfl⟩

/-- Settles O43: right is half of 1 plus the output, left is 1 less right, both in [0, 1] before their floor. -/
theorem gainFloors : Obligations.GainFloors := fun s hout hthr =>
  ⟨panGr_between hout hthr, panGl_between hout hthr, panAdvance_pan s⟩

/-- Settles O41: the checks in order; the effect writes one field. -/
theorem panThr : Obligations.PanThr := by
  intro v s
  refine ⟨encodedAs_opc _, exec_pending rfl, ?_, ?_, ?_⟩
  · intro he hpan
    exact rejects_of (not_pending he _) (by simp [checksOf, hpan])
  · intro he hpan hv
    exact rejects_of (not_pending he _) (by simp [checksOf, hpan, outsideUnit_not hv])
  · intro he hpan hlo hhi
    exact accepts_of (not_pending he _) (by simp [checksOf, hpan, outsideUnit_of hlo hhi]) rfl rfl

/-- Settles O42: the check, and the step's oscillator, one order at a time. -/
theorem panStep : Obligations.PanStep := by
  intro s
  refine ⟨encodedAs_opc _, exec_pending rfl, ?_, ?_⟩
  · intro he hpan
    exact rejects_of (not_pending he _) (by simp [checksOf, hpan])
  · rintro m v raw gr left gl before after he hpan rfl hbefore rfl hafter rfl rfl rfl rfl
    obtain rfl : before = panSource s := hbefore
    obtain rfl : after = panAfter s := by
      rw [hafter]
      cases h : s.params.panOrder with
      | a => exact (panAfter_of_a h).symm
      | b => exact (panAfter_of_b h).symm
    exact panStep_accepts he hpan

end Sys2Proof.PannerRules
end

section
/-! The obligations on the pipeline (45_pipeline.md): the trigger with its draw and retune, one sample step and a run of
them under `process`, the two configuration commands, and the step that never stops. A run of samples turns on one fact:
the conditions under which `process` is accepted hold again after every sample step. -/

namespace Sys2Proof.Machine

/-! ### RANGE (R30, R125) -/

theorem rangeWord_eq {lo hi : Nat} (hlo : lo < 2 ^ 7) (hhi : hi < 2 ^ 7) :
    rangeWord lo hi = BitVec.ofNat 32 (2 ^ 8 * hi + lo) := by
  rw [rangeWord, putField, putField, Nat.mod_eq_of_lt hlo, Nat.mod_eq_of_lt hhi, pow_zero, one_mul]

theorem rangeLo_rangeWord {lo : Nat} (hlo : lo < 2 ^ 7) (hi : Nat) : rangeLo (rangeWord lo hi) = lo := by
  simp only [rangeLo, bitField, rangeWord, putField, BitVec.toNat_ofNat]
  omega

theorem rangeHi_rangeWord (lo : Nat) {hi : Nat} (hhi : hi < 2 ^ 7) : rangeHi (rangeWord lo hi) = hi := by
  simp only [rangeHi, bitField, rangeWord, putField, BitVec.toNat_ofNat]
  omega

theorem rangeHi_le (range : Word) : rangeHi range ≤ 127 :=
  Nat.le_of_lt_succ (Nat.mod_lt _ (by decide))

/-! ### The trigger (R120) -/

theorem drawnNote_bounds {range : Word} (h : rangeLo range ≤ rangeHi range) (r : Word) :
    rangeLo range ≤ drawnNote range r ∧ drawnNote range r ≤ rangeHi range := by
  have hmod := Nat.mod_lt r.toNat (Nat.add_one_pos (rangeHi range - rangeLo range))
  unfold drawnNote
  omega

theorem trigger_of_not_fires {s : State} (h : fires s.params.trigMode s.trig (stepOut s.bank.pulse) = false) :
    trigger s = pulseAdvance s := by
  rw [trigger, h, if_neg Bool.false_ne_true]

theorem trigger_of_fires {s : State} {r : Word} {rest : Ports}
    (h : fires s.params.trigMode s.trig (stepOut s.bank.pulse) = true) (hdraw : randDraw s.ports = (r, rest)) :
    trigger s = retune (drawnNote s.range r) { pulseAdvance s with ports := rest } := by
  rw [trigger, h, if_pos rfl, drawAndRetune, pulseAdvance_ports, pulseAdvance_range, hdraw]
  rfl

/-- Under EDGE the first sample step has no earlier output to rise from (R120, R121). -/
theorem fires_edge_first {t : Trigger} (p : F64) (h : t.prevValid = false) : fires .edge t p = false := by
  simp [fires, h]

/-- A retune keeps every phase (R88, R93). -/
theorem retune_keeps_phase {s : State} {j : Nat} {o : Osc} (note : Nat) (h : s.bank.harm[j]? = some o) :
    ∃ o', (retune note s).bank.harm[j]? = some o' ∧ o'.phase = o.phase := by
  refine ⟨_, retune_getElem? note h, ?_⟩
  split
  case isTrue => exact tuneHarm_phase _ j o
  case isFalse => rfl

/-! ### What no command but `process` and `reset` reaches -/

theorem effectOf_trig {i : Instr} (s : State) (hp : ∀ n, i ≠ .process n) (hr : i ≠ .reset) :
    (effectOf i s).1.trig = s.trig := by
  cases i with
  | process n => exact absurd rfl (hp n)
  | reset => exact absurd rfl hr
  | _ => rfl

theorem effectOf_draws {i : Instr} (s : State) (hp : ∀ n, i ≠ .process n) :
    (effectOf i s).1.ports.rand = s.ports.rand ∧ (effectOf i s).1.ports.drawn = s.ports.drawn := by
  cases i with
  | process n => exact absurd rfl (hp n)
  | _ => exact ⟨rfl, rfl⟩

/-- A draw takes the next listed value. -/
theorem randDraw_of_cons {p : Ports} {r : Word} {rest : List Word} (h : p.rand = r :: rest) :
    randDraw p = (r, { p with rand := rest, drawn := p.drawn + 1 }) := by
  rw [randDraw, h]

/-- Once the list is used up a draw takes the free value at the counter. -/
theorem randDraw_of_nil {p : Ports} (h : p.rand = []) :
    randDraw p = (Config.randomDraw p.drawn, { p with drawn := p.drawn + 1 }) := by
  rw [randDraw, h]

/-! ### A run of sample steps (R126) -/

/-- `process` is accepted for every number of samples: no error is pending, READY = 1, and both pointers name present
cells. -/
structure CanProcess (s : State) : Prop where
  err : s.record.err = false
  ready : ready s = true
  rp : s.dly.rp < s.dly.size
  wp : s.dly.wp < s.dly.size

theorem nextPointer_lt {size p : Word} (h : p < size) : nextPointer size p < size := by
  have hpos : 0 < size.toNat := Nat.zero_lt_of_lt h
  rw [BitVec.lt_def, nextPointer_toNat hpos]
  exact Nat.mod_lt _ hpos

theorem sampleStep_ready (s : State) : ready (sampleStep s).1 = ready s := by
  obtain ⟨-, -, -, hcfg, -⟩ := sampleStep_keeps s
  exact ready_congr hcfg (by rw [sampleStep_pulse, advanced_fqv])

theorem CanProcess.after_sampleStep {s : State} (h : CanProcess s) : CanProcess (sampleStep s).1 := by
  obtain ⟨-, -, hrecord, -, -⟩ := sampleStep_keeps s
  have hdly := sampleStep_dly s
  exact
    { err := hrecord ▸ h.err
      ready := (sampleStep_ready s).trans h.ready
      rp := by rw [hdly]; exact nextPointer_lt h.rp
      wp := by rw [hdly]; exact nextPointer_lt h.wp }

theorem CanProcess.after_sampleSteps {s : State} (h : CanProcess s) (n : Nat) : CanProcess (sampleSteps n s).1 :=
  sampleSteps_induct (fun _ ht => ht.after_sampleStep) n h

theorem process_accepts {n : Nat} {s : State} (he : s.record.err = false) (hready : ready s = true)
    (habsent : processAbsent n s = none) : Accepts (.process n) s (sampleSteps n s).1 (sampleSteps n s).2 :=
  accepts_of (not_pending he _) (by simp [checksOf, hready]) habsent rfl

theorem CanProcess.accepts {s : State} (h : CanProcess s) (n : Nat) :
    Accepts (.process n) s (sampleSteps n s).1 (sampleSteps n s).2 := by
  refine process_accepts h.err h.ready ?_
  rw [processAbsent, absentDelayCell_none h.rp h.wp, ite_self]

/-! ### No step stops (R50, R123) -/

/-- A command that reaches no absent cell once its checks pass answers a next state. -/
theorem exec_exists_next {i : Instr} {s : State} (h : firstRaised (checksOf i s) = none → absentOf i s = none) :
    ∃ t, exec i s = .next t := by
  cases hg : !RunsWhilePending i && s.record.err
  case true =>
    obtain ⟨hgated, he⟩ : RunsWhilePending i = false ∧ s.record.err = true := by simpa using hg
    exact ⟨_, exec_pending hgated he⟩
  case false =>
    cases hc : firstRaised (checksOf i s) with
    | some c => exact ⟨_, exec_rejects hg hc⟩
    | none => exact ⟨_, exec_accepts hg hc (h hc)⟩

section

variable {s : State} (hs : DelayOk s)

include hs

/-- Under the pointer equation both pointers of a sized line name present cells (R50, R105). -/
theorem DelayOk.absentDelayCell_none (hsize : s.cfg.dsize = true) : absentDelayCell s = none :=
  Machine.absentDelayCell_none (hs.rp_lt hsize) (hs.wp hsize)

/-- The checks of the two commands that reach the buffer let none pass before `dly.size`. -/
theorem DelayOk.absentOf_none {i : Instr} (hc : firstRaised (checksOf i s) = none) : absentOf i s = none := by
  rw [firstRaised_eq_none] at hc
  cases i with
  | dlyStep x =>
    obtain ⟨⟨⟨hsize, -⟩, -⟩, -⟩ :
        ((s.cfg.dsize = true ∧ s.cfg.dtime = true) ∧ s.cfg.dfb = true) ∧ finite x = true := by
      simpa [checksOf] using hc
    exact hs.absentDelayCell_none hsize
  | process n =>
    have hready : ready s = true := by simpa [checksOf] using hc
    rw [absentOf, processAbsent, hs.absentDelayCell_none (dsize_of_ready hready), ite_self]
  | _ => rfl

theorem DelayOk.after_withCmd (ws : List Word) : DelayOk (withCmd ws s) := hs.congr rfl rfl rfl rfl rfl rfl

/-- The words of one command run, or are rejected. -/
theorem DelayOk.runWords_exists_next (w : Word) (ops : List Word) : ∃ t, runWords exec w ops s = .next t := by
  unfold runWords
  split
  · exact exec_exists_next hs.absentOf_none
  · exact ⟨_, rfl⟩

/-- A command that answers can be abandoned (R148). -/
theorem DelayOk.abandon_exists_next (words : Nat) (inStep : Bool) (w : Word) (ops : List Word) :
    ∃ t, abandon exec words inStep w ops s = .next t := by
  obtain ⟨t, ht⟩ := hs.runWords_exists_next w ops
  simp only [abandon, ht]
  exact ⟨_, rfl⟩

/-- At each moment of the reset input, with or without a whole command on the port. -/
theorem DelayOk.step_exists_next : ∃ t, step s = .next t := by
  cases hp : s.ports.pin with
  | betweenCommands =>
    simp only [step, sequencer, hp]
    exact ⟨_, rfl⟩
  | released =>
    cases hc : splitCommand s.ports.cmd with
    | none => exact ⟨s, step_of_split_none hp hc⟩
    | some p =>
      obtain ⟨w, ops, rest⟩ := p
      rw [step_of_split_some hp hc]
      exact (hs.after_withCmd rest).runWords_exists_next w ops
  | during words inStep =>
    cases hc : splitCommand s.ports.cmd with
    | none =>
      simp only [step, sequencer, hp, hc]
      exact ⟨_, rfl⟩
    | some p =>
      obtain ⟨w, ops, rest⟩ := p
      simp only [step, sequencer, hp, hc]
      exact (hs.after_withCmd rest).abandon_exists_next words inStep w ops

end

end Sys2Proof.Machine

/-! ### The obligations -/

namespace Sys2Proof.PipelineRules

open Sys2Proof.Machine

/-- Settles O45: the two branches of the trigger, the range of a remainder, and the frames of a retune and of the other
commands. -/
theorem triggerRule : Obligations.TriggerRule := by
  rintro s p fire rfl hfire
  obtain rfl : fire = fires s.params.trigMode s.trig (stepOut s.bank.pulse) := hfire
  refine ⟨trigger_of_not_fires, fun h r rest hdraw => trigger_of_fires h hdraw, fun h r => ?_, fun hmode hfirst => ?_,
    fun note => ⟨by rw [retune_syn], fun j o ho => retune_keeps_phase note ho⟩, fun i t h hp hr => ?_⟩
  · exact ⟨(drawnNote_bounds h r).1, (drawnNote_bounds h r).2, rangeHi_le _⟩
  · rw [hmode, fires_edge_first _ hfirst]
  · rcases exec_next h with ⟨c, rfl⟩ | ⟨-, -, -, rfl⟩
    · rw [reject_trig]
    · rw [respondOk_trig, effectOf_trig s hp hr]

/-- Settles O46: `process 1` is one sample step, whose stages stand in this order. -/
theorem sampleStepStages : Obligations.SampleStepStages := by
  rintro s _ _ _ _ _ _ _ hready he hrp hwp rfl rfl rfl rfl rfl rfl rfl
  exact CanProcess.accepts ⟨he, hready, hrp, hwp⟩ 1

/-- Settles O47: the state after N samples accepts the next M, and sample steps add up. -/
theorem processRule : Obligations.ProcessRule := by
  intro n m s
  refine ⟨encodedAs_opc _, exec_pending rfl, fun he hready => ?_, fun he hready => ?_, fun he hready hrp hwp => ?_⟩
  · exact rejects_of (not_pending he _) (by simp [checksOf, hready])
  · exact process_accepts he hready rfl
  · have hs : CanProcess s := ⟨he, hready, hrp, hwp⟩
    have hsum := hs.accepts (n + m)
    rw [sampleSteps_add] at hsum
    exact ⟨_, _, _, _, hs.accepts n, sampleSteps_length n s, (sampleRun_eq n s).symm, sampleSteps_samples n s,
      (hs.after_sampleSteps n).accepts m, hsum⟩

/-- Settles O48: no other effect reaches the random source, and a sample step's ports are its trigger's. -/
theorem randomDraws : Obligations.RandomDraws := by
  refine ⟨fun i s t hp h => ?_, fun s => ?_,
    fun p => ⟨randDraw_drawn p, fun r rest => randDraw_of_cons, randDraw_of_nil⟩⟩
  · rcases exec_next h with ⟨c, rfl⟩ | ⟨-, -, -, rfl⟩
    · exact ⟨rfl, rfl⟩
    · exact effectOf_draws s hp
  · rw [(sampleStep_keeps s).1, trigger_ports]

/-- Settles O57: the invariant of the delay line is enough. -/
theorem stepNeverStops : Obligations.StepNeverStops := fun _ hs => hs.delay.step_exists_next

/-- Settles O44: the checks in order, and RANGE packed and read back. -/
theorem mixGainAndTrgRange : Obligations.MixGainAndTrgRange := by
  intro g lo hi s
  refine ⟨⟨encodedAs_opc _, exec_pending rfl, fun he hg => ?_, fun he hg => ?_⟩,
    encodedAs_opc _, exec_pending rfl, fun he hlt => ?_, fun he hle hhi => ?_⟩
  · exact rejects_of (not_pending he _) (by simp [checksOf, hg])
  · refine ⟨_, accepts_of (not_pending he _) (by simp [checksOf, hg]) rfl rfl, ?_, rfl⟩
    obtain ⟨-, -, -, -, -, -, -, hgain, -⟩ := cfgBits_eq (effectOf (.mixGain g) s).1
    exact hgain
  · exact rejects_of (not_pending he _) (by simp [checksOf, hlt])
  · have hlo : lo < 2 ^ 7 := hle.trans_lt hhi
    obtain ⟨-, -, -, -, -, -, -, -, hrange, -⟩ := cfgBits_eq (effectOf (.trgRange lo hi) s).1
    exact ⟨_, accepts_of (not_pending he _) (by simp [checksOf, hle]) rfl rfl, hrange,
      by rw [rangeWord_eq hlo hhi], rangeLo_rangeWord hlo hi, rangeHi_rangeWord lo hhi⟩

end Sys2Proof.PipelineRules
end

section
/-! The obligations on the system commands (46_system.md): `nop`, `reset`, `clr.err`, `reg.rd` and `buf.rd` execute while
ERR = 1 (R135), so their own check alone decides between acceptance and rejection. -/

namespace Sys2Proof.Machine

variable {s : State}

/-! ### Not blocked by ERR (R135) -/

/-- A system command is accepted with its own effect when no check is violated, whatever ERR is. -/
theorem accepts_ungated {i : Instr} {t : State} {data : List Word} (hi : RunsWhilePending i = true)
    (hc : firstRaised (checksOf i s) = none) (ha : absentOf i s = none) (he : effectOf i s = (t, data)) :
    Accepts i s t data :=
  accepts_of (by rw [hi]; rfl) hc ha he

/-- A system command is rejected by its first violated check, whatever ERR is. -/
theorem rejects_ungated {i : Instr} {c : Cause} (hi : RunsWhilePending i = true)
    (hc : firstRaised (checksOf i s) = some c) : Rejects i s c :=
  rejects_of (by rw [hi]; rfl) hc

/-! ### The error record (R25, R129) -/

/-- While ERR = 0 nothing is recorded (R25). -/
theorem ErrRecord.Ok.eq_reset {r : ErrRecord} (h : r.Ok) (he : r.err = false) : r = ErrRecord.reset := by
  obtain ⟨hmulti, hcause, herrcmd⟩ := h.clear he
  obtain ⟨err, multi, cause, errcmd⟩ := r
  subst he hmulti hcause herrcmd
  rfl

/-- With nothing recorded there is nothing to clear. -/
theorem clearError_of_ok (h : s.record.Ok) (he : s.record.err = false) : clearError s = s := by
  show { s with record := ErrRecord.reset } = s
  rw [← h.eq_reset he]

theorem clrErr_accepts (s : State) : Accepts .clrErr s (clearError s) [] := accepts_ungated rfl rfl rfl rfl

/-! ### Reading a register or an entry (R130, R131) -/

theorem regRd_accepts {addr : Nat} {v : Word64} (h : readReg s addr = some v) :
    Accepts (.regRd addr) s s (dataWords v) :=
  accepts_ungated rfl (by simp [checksOf, h]) rfl (by simp [effectOf, h])

theorem badIndex_eq_true_iff {index : Int} :
    badIndex s index = true ↔ s.cfg.dsize = false ∨ index < 0 ∨ (s.dly.size.toNat : Int) ≤ index := by
  simp [badIndex, or_assoc]

theorem badIndex_of_present {index : Int} (hsize : s.cfg.dsize = true) (h0 : 0 ≤ index)
    (hlt : index < s.dly.size.toNat) : badIndex s index = false := by
  simp [badIndex, hsize, h0, hlt]

theorem bufRd_accepts {index : Int} (h : badIndex s index = false) :
    Accepts (.bufRd index) s s (dataWords (memRead s.buf index.toNat)) :=
  accepts_ungated rfl (by simp [checksOf, h]) rfl rfl

end Sys2Proof.Machine

/-! ### The obligations -/

namespace Sys2Proof.SystemRules

open Sys2Proof.Machine

/-- Settles O10: `nop` leaves the state, and `clr.err` writes the record that ERR = 0 already has. -/
theorem nopAndClrErr : Obligations.NopAndClrErr := by
  intro s
  refine ⟨⟨encodedAs_opc _, by decide, accepts_ungated rfl rfl rfl rfl⟩,
    encodedAs_opc _, clrErr_accepts s, fun he hok => ?_⟩
  have h := clrErr_accepts s
  rwa [clearError_of_ok hok he] at h

/-- Settles O11: the effect of `reset` is `resetState`, the cleared state. -/
theorem resetCommand : Obligations.ResetCommand := by
  intro s
  exact ⟨encodedAs_opc _, by decide, accepts_ungated rfl rfl rfl rfl⟩

/-- Settles O13: the one check is that the address names a register. -/
theorem regRd : Obligations.RegRd := by
  intro addr s
  exact ⟨encodedAs_opc _, fun v h => regRd_accepts h, fun h => rejects_ungated rfl (by simp [checksOf, h])⟩

/-- Settles O17: the one check is that the index names a present entry. -/
theorem bufRd : Obligations.BufRd := by
  intro index s
  refine ⟨encodedAs_opc _, fun hbad => ?_, fun hsize h0 hlt => ?_⟩
  · exact rejects_ungated rfl (by simp [checksOf, badIndex_eq_true_iff.2 hbad])
  · exact bufRd_accepts (badIndex_of_present hsize h0 hlt)

end Sys2Proof.SystemRules
end

section
/-! The obligations on the rejection (60_exceptions.md): what it writes, that a command is rejected with one cause or
accepted and never both, and the block that a pending error puts on every command but five. -/

namespace Sys2Proof.Machine

/-! ### Causes (R133) -/

/-- Every cause of R133. -/
def Cause.all : List Cause :=
  [.cfgSampleRate, .cfgBufferSize, .cfgDelayTime, .cfgFeedback, .cfgThreshold, .cfgNoSampleRate, .cfgOscCount,
    .cfgOrder, .cfgNotConfigured, .cfgCapacity, .cfgValue, .cfgRange, .cfgFilter, .cmdIllegal, .cmdBadOsc, .cmdBadReg,
    .cmdBadIndex, .cmdErrPending]

theorem Cause.mem_all (c : Cause) : c ∈ Cause.all := by cases c <;> decide

/-- No two causes share a code. -/
theorem Cause.code_injective : Function.Injective Cause.code := fun c c' h =>
  List.inj_on_of_nodup_map (by decide : (Cause.all.map Cause.code).Nodup) c.mem_all c'.mem_all h

/-- The response word tells the cause (R67). -/
theorem responseWord_code_inj {w : Word} {c c' : Cause} (h : responseWord w true c.code = responseWord w true c'.code) :
    c = c' := by
  obtain ⟨-, -, -, -, hcode⟩ := responseWord_fields w true c.code
  obtain ⟨-, -, -, -, hcode'⟩ := responseWord_fields w true c'.code
  rw [h, hcode'] at hcode
  exact Cause.code_injective (BitVec.eq_of_toNat_eq hcode.symm)

/-! ### What a rejection writes (R134) -/

theorem reject_of_clear {s : State} (he : s.record.err = false) (c : Cause) (w : Word) :
    reject c w s =
      { s with
        record := { s.record with err := true, cause := c.code, errcmd := w }
        ports := { s.ports with resp := s.ports.resp ++ [responseWord w true c.code] } } := by
  rw [reject, ErrRecord.after, he]
  rfl

theorem reject_of_pending {s : State} (he : s.record.err = true) (c : Cause) (w : Word) :
    reject c w s =
      { s with
        record := { s.record with multi := true }
        ports := { s.ports with resp := s.ports.resp ++ [responseWord w true c.code] } } := by
  rw [reject, ErrRecord.after, if_pos he]
  rfl

/-- A command is rejected with one cause. -/
theorem Rejects.cause_unique {i : Instr} {s : State} {c c' : Cause} (h : Rejects i s c) (h' : Rejects i s c') :
    c = c' := by
  have hst : reject c (commandWord i) s = reject c' (commandWord i) s := Host.Outcome.next.inj (h.symm.trans h')
  have hresp := congrArg (fun u : State => u.ports.resp) hst
  simp only [reject_ports, List.append_cancel_left_eq, List.cons.injEq, and_true] at hresp
  exact responseWord_code_inj hresp

/-- A command that answers is rejected or accepted (R132). -/
theorem rejects_or_accepts {i : Instr} {s t : State} (h : exec i s = .next t) :
    (∃ c, Rejects i s c) ∨ Accepts i s (effectOf i s).1 (effectOf i s).2 := by
  rcases exec_next h with ⟨c, rfl⟩ | ⟨-, -, -, rfl⟩
  · exact .inl ⟨c, h⟩
  · exact .inr ⟨h, effectOf_resp i s⟩

/-- While ERR = 1 only `clr.err` and `reset` touch what the first rejection recorded. -/
theorem exec_keeps_pending {i : Instr} {s t : State} (h : exec i s = .next t) (hc : i ≠ .clrErr) (hr : i ≠ .reset)
    (he : s.record.err = true) :
    t.record.err = true ∧ t.record.cause = s.record.cause ∧ t.record.errcmd = s.record.errcmd := by
  rcases exec_next h with ⟨c, rfl⟩ | ⟨-, -, -, rfl⟩
  · rw [reject_of_pending he]
    exact ⟨he, rfl, rfl⟩
  · rw [respondOk_record, effectOf_record i s hc hr]
    exact ⟨he, rfl, rfl⟩

/-! ### The block on pending errors (R135) -/

/-- No check of a command raises CMD_ERR_PENDING. -/
theorem errPending_not_mem_checksOf {i : Instr} (s : State) (b : Bool) : (b, Cause.cmdErrPending) ∉ checksOf i s := by
  cases i <;> simp [checksOf]

/-- A command that ERR does not block is not rejected with CMD_ERR_PENDING. -/
theorem not_rejects_errPending {i : Instr} {s : State} (hi : RunsWhilePending i = true) :
    ¬ Rejects i s .cmdErrPending := by
  intro h
  cases hc : firstRaised (checksOf i s) with
  | some c =>
    obtain rfl := h.cause_unique (rejects_ungated hi hc)
    exact errPending_not_mem_checksOf s true (firstRaised_mem hc)
  | none =>
    have habsent : absentOf i s = none := by
      cases i with
      | dlyStep _ | process _ => exact nomatch hi
      | _ => rfl
    exact (accepts_ungated hi hc habsent rfl).not_rejects _ h

end Sys2Proof.Machine

/-! ### The obligations -/

namespace Sys2Proof.ExceptionRules

open Sys2Proof.Machine

/-- Settles O18: the response word carries REJ and the cause, so neither is left open. -/
theorem rejectionRecord : Obligations.RejectionRecord :=
  ⟨fun c w _ => ⟨fun he => reject_of_clear he c w, fun he => reject_of_pending he c w⟩,
    fun _ _ _ h => (rejects_or_accepts h).imp_right fun ha => ⟨_, _, ha⟩,
    fun _ _ _ _ h h' => h.cause_unique h',
    fun _ _ _ c _ h ha => ha.not_rejects c h,
    fun _ _ _ h hc hr he => exec_keeps_pending h hc hr he⟩

/-- Settles O19: the gate comes before the checks, and no check raises its cause. -/
theorem pendingErrorBlocks : Obligations.PendingErrorBlocks := fun i s he =>
  ⟨fun hi => by rw [exec_pending hi he, reject_of_pending he]; rfl, fun hi => not_rejects_errPending hi⟩

end Sys2Proof.ExceptionRules
end

section
/-! The obligation on the reset input (70_reset_and_hazards.md section 1, R148): the step at each moment of the pin,
written as the reset state with the ports it leaves, and what an abandoned command leaves to the ports. -/

namespace Sys2Proof.Machine

/-! ### The step at each moment of the pin -/

theorem step_betweenCommands {s : State} (hp : s.ports.pin = .betweenCommands) :
    step s = .next (State.cleared s.params { s.ports with cmd := wholeCommands s.ports.cmd, pin := .released }) := by
  simp only [step, sequencer, hp]
  rfl

theorem step_during_none {s : State} {words : Nat} {inStep : Bool} (hp : s.ports.pin = .during words inStep)
    (hs : splitCommand s.ports.cmd = none) :
    step s = .next (State.cleared s.params { s.ports with cmd := [], pin := .released }) := by
  simp only [step, sequencer, hp, hs]
  rfl

theorem step_during_some {s : State} {words : Nat} {inStep : Bool} {w : Word} {ops rest : List Word}
    (hp : s.ports.pin = .during words inStep) (hs : splitCommand s.ports.cmd = some (w, ops, rest)) :
    step s = abandon exec words inStep w ops (withCmd rest s) := by
  simp only [step, sequencer, hp, hs]

/-- While the reset input is asserted every step leaves the reset state. -/
theorem step_of_pin_asserted {s t : State} (hp : s.ports.pin ≠ .released) (h : step s = .next t) :
    ∃ ports, t = State.cleared s.params ports := by
  cases hpin : s.ports.pin with
  | released => exact absurd hpin hp
  | betweenCommands =>
    rw [step_betweenCommands hpin] at h
    exact ⟨_, (Host.Outcome.next.inj h).symm⟩
  | during words inStep =>
    cases hs : splitCommand s.ports.cmd with
    | none =>
      rw [step_during_none hpin hs] at h
      exact ⟨_, (Host.Outcome.next.inj h).symm⟩
    | some p =>
      obtain ⟨w, ops, rest⟩ := p
      rw [step_during_some hpin hs] at h
      exact abandon_next (s := withCmd rest s) h

/-! ### The abandoned command -/

/-- The ports after command `w` is abandoned, where `u` is the state it would have left: the first `words` words of its
response stay. -/
def abandonedPorts (words : Nat) (inStep : Bool) (w : Word) (ops : List Word) (s u : State) : Ports :=
  { s.ports with
    cmd := wholeCommands s.ports.cmd
    resp := s.ports.resp ++ (u.ports.resp.drop s.ports.resp.length).take words
    rand := (randAfterAbandon exec words inStep w ops s).1
    drawn := (randAfterAbandon exec words inStep w ops s).2 }

/-- An abandoned command is one that would have answered. -/
theorem abandon_next_ports {words : Nat} {inStep : Bool} {w : Word} {ops : List Word} {s t : State}
    (h : abandon exec words inStep w ops s = .next t) :
    ∃ u, runWords exec w ops s = .next u ∧ t = State.cleared s.params (abandonedPorts words inStep w ops s u) := by
  unfold abandon at h
  split at h
  · next u hu => exact ⟨u, hu, (Host.Outcome.next.inj h).symm⟩
  · next hstop => exact absurd h (hstop t)

/-- A command answers behind the words already sent. -/
theorem exec_resp {i : Instr} {s t : State} (h : exec i s = .next t) :
    ∃ out, t.ports.resp = s.ports.resp ++ out := by
  rcases exec_next h with ⟨c, rfl⟩ | ⟨-, -, -, rfl⟩
  · exact ⟨_, rfl⟩
  · rw [respondOk_ports, effectOf_resp]
    exact ⟨_, rfl⟩

theorem runWords_resp {w : Word} {ops : List Word} {s t : State} (h : runWords exec w ops s = .next t) :
    ∃ out, t.ports.resp = s.ports.resp ++ out := by
  rcases runWords_next h with ⟨i, -, he⟩ | rfl
  · exact exec_resp he
  · exact ⟨_, rfl⟩

/-- A `process` takes its draws from the head of the random source, in order (R119). -/
theorem exec_process_draws {n : Nat} {s t : State} (h : exec (.process n) s = .next t) :
    ∃ k, t.ports.drawn = s.ports.drawn + k ∧ t.ports.rand = s.ports.rand.drop k := by
  rcases exec_next h with ⟨c, rfl⟩ | ⟨-, -, -, rfl⟩
  · exact ⟨0, rfl, rfl⟩
  · exact sampleSteps_draws n s

section

variable {words : Nat} {inStep : Bool} {w : Word} {ops : List Word} {s : State}

theorem randAfterAbandon_of_ne (h : ∀ n, decode w ops ≠ .ok (.process n)) :
    randAfterAbandon exec words inStep w ops s = (s.ports.rand, s.ports.drawn) := by
  unfold randAfterAbandon
  split
  · next n hd => exact absurd hd (h n)
  · rfl

theorem randAfterAbandon_of_process {n : Nat} {v : State} (hd : decode w ops = .ok (.process n))
    (hv : exec (.process (min n (stepsBegun words inStep))) s = .next v) :
    randAfterAbandon exec words inStep w ops s = (v.ports.rand, v.ports.drawn) := by
  simp only [randAfterAbandon, hd, hv]

/-- The sample steps begun have taken some `k` values from the random source; nothing else takes one (R119, R148). -/
theorem randAfterAbandon_draws :
    ∃ k, (randAfterAbandon exec words inStep w ops s).2 = s.ports.drawn + k ∧
      (randAfterAbandon exec words inStep w ops s).1 = s.ports.rand.drop k := by
  unfold randAfterAbandon
  split
  · split
    · next t ht => exact exec_process_draws ht
    · exact ⟨0, rfl, rfl⟩
  · exact ⟨0, rfl, rfl⟩

end

/-- A command still executing when the pin is asserted leaves the reset state and these ports (R148). -/
theorem step_during_next {s t : State} {words : Nat} {inStep : Bool} {w : Word} {ops rest : List Word}
    (hp : s.ports.pin = .during words inStep) (hs : splitCommand s.ports.cmd = some (w, ops, rest))
    (h : step s = .next t) :
    ∃ u, runWords exec w ops (withCmd rest s) = .next u ∧
      t = State.cleared s.params (abandonedPorts words inStep w ops (withCmd rest s) u) :=
  abandon_next_ports (step_during_some hp hs ▸ h)

/-- Whatever the moment of the pin, what is left on the command port is whole commands. -/
theorem step_cmd_of_pin_asserted {s t : State} (hp : s.ports.pin ≠ .released) (h : step s = .next t) :
    ∃ ws, t.ports.cmd = wholeCommands ws := by
  cases hpin : s.ports.pin with
  | released => exact absurd hpin hp
  | betweenCommands =>
    rw [step_betweenCommands hpin] at h
    exact Host.Outcome.next.inj h ▸ ⟨s.ports.cmd, rfl⟩
  | during words inStep =>
    cases hs : splitCommand s.ports.cmd with
    | none =>
      rw [step_during_none hpin hs] at h
      exact Host.Outcome.next.inj h ▸ ⟨[], rfl⟩
    | some p =>
      obtain ⟨w, ops, rest⟩ := p
      obtain ⟨u, -, rfl⟩ := step_during_next hpin hs h
      exact ⟨rest, rfl⟩

theorem abandonedPorts_draws (words : Nat) (inStep : Bool) (w : Word) (ops : List Word) (s u : State) :
    s.ports.drawn ≤ (abandonedPorts words inStep w ops s u).drawn ∧
      (abandonedPorts words inStep w ops s u).rand =
        s.ports.rand.drop ((abandonedPorts words inStep w ops s u).drawn - s.ports.drawn) := by
  obtain ⟨k, hdrawn, hrand⟩ := randAfterAbandon_draws (words := words) (inStep := inStep) (w := w) (ops := ops) (s := s)
  simp only [abandonedPorts, hdrawn, hrand]
  exact ⟨Nat.le_add_right _ _, by rw [Nat.add_sub_cancel_left]⟩

/-- The words sent are the first of those that the command would have sent. -/
theorem abandonedPorts_resp {words : Nat} {inStep : Bool} {w : Word} {ops : List Word} {s u : State}
    (h : runWords exec w ops s = .next u) :
    ∃ sent unsent, sent.length ≤ words ∧ (unsent ≠ [] → sent.length = words) ∧
      (abandonedPorts words inStep w ops s u).resp = s.ports.resp ++ sent ∧
      u.ports.resp = s.ports.resp ++ sent ++ unsent := by
  obtain ⟨out, hout⟩ := runWords_resp h
  refine ⟨out.take words, out.drop words, List.length_take_le _ _, fun hne => ?_, ?_, ?_⟩
  · rw [List.length_take, Nat.min_eq_left (Nat.le_of_lt (by simpa using hne))]
  · simp [abandonedPorts, hout]
  · rw [hout, List.append_assoc, List.take_append_drop]

/-- With the pin released instead, the same words run. -/
theorem step_with_pin_released {s : State} {w : Word} {ops rest : List Word}
    (hs : splitCommand s.ports.cmd = some (w, ops, rest)) :
    step { s with ports := { s.ports with pin := .released } } = runWords exec w ops (withCmd rest s) :=
  step_of_split_some (s := { s with ports := { s.ports with pin := .released } }) rfl hs

end Sys2Proof.Machine

/-! ### The obligation -/

namespace Sys2Proof.ResetRules

open Sys2Proof.Machine

/-- Settles O9: the step at each moment of the pin, an abandoned command through the ports it leaves. -/
theorem resetInput : Obligations.ResetInput := by
  refine ⟨fun ws => wholeCommands_none, fun w ops rest h => wholeCommands_cons h rest, fun s t h => ⟨?_, ?_, ?_⟩⟩
  · intro hp later
    obtain ⟨ws, hws⟩ := step_cmd_of_pin_asserted hp h
    rw [hws, wholeCommands_append]
  · intro hp
    rw [step_betweenCommands hp] at h
    exact (Host.Outcome.next.inj h).symm
  · intro words inStep hp
    cases hs : splitCommand s.ports.cmd with
    | none =>
      rw [step_during_none hp hs] at h
      obtain rfl := Host.Outcome.next.inj h
      refine ⟨rfl, rfl, Nat.le_refl _, by simp [State.cleared], fun _ => rfl, fun w ops rest hcmd hlen => ?_⟩
      rw [hcmd, splitCommand_append hlen] at hs
      exact nomatch hs
    | some p =>
      obtain ⟨w, ops, rest⟩ := p
      obtain ⟨u, hu, rfl⟩ := step_during_next hp hs h
      obtain ⟨hdrawn, hrand⟩ := abandonedPorts_draws words inStep w ops (withCmd rest s) u
      refine ⟨rfl, rfl, hdrawn, hrand, fun hnone => (nomatch hnone), fun w' ops' rest' hcmd hlen => ?_⟩
      rw [hcmd, splitCommand_append hlen] at hs
      obtain ⟨rfl, rfl, rfl⟩ : w' = w ∧ ops' = ops ∧ rest' = rest := by simpa using hs
      refine ⟨rfl, fun hne => congrArg Prod.snd (randAfterAbandon_of_ne hne),
        fun n v hd hv => congrArg Prod.snd (randAfterAbandon_of_process hd hv), fun v hv => ?_⟩
      rw [step_with_pin_released (hcmd ▸ splitCommand_append hlen), hu] at hv
      obtain rfl := Host.Outcome.next.inj hv
      exact abandonedPorts_resp hu

end Sys2Proof.ResetRules
end

section
/-! The obligation on the invariant of the block (10_state.md): every step keeps `State.Inv`. The commands fall into
those that configure a unit, each of which establishes the fields of the invariant that speak of its unit, and those
that let the block run as it is configured. What a running command keeps is said once, as `Runs`: the oscillators'
sample rates and flags, and what the units were configured with. -/

namespace Sys2Proof.Machine

/-! ### Sample rates and flags (R36) -/

/-- The sample rate of an oscillator and its two flags: what `Osc.SetUp` speaks of. -/
def Osc.rates (o : Osc) : F64 × Bool × Bool := (o.sr, o.srv, o.fqv)

theorem Osc.SetUp.of_rates {o o' : Osc} (h : o.SetUp) (e : o'.rates = o.rates) : o'.SetUp := by
  obtain ⟨hsr, hsrv, hfqv⟩ : o'.sr = o.sr ∧ o'.srv = o.srv ∧ o'.fqv = o.fqv := by simpa [Osc.rates] using e
  exact ⟨hsrv.trans h.srv, hfqv.trans h.fqv, hsr ▸ h.rate⟩

/-- Each oscillator of bank `c` has the rates it has in bank `b`. -/
structure SameRates (b c : Bank) : Prop where
  pulse : c.pulse.rates = b.pulse.rates
  carrier : c.carrier.rates = b.carrier.rates
  lfoCut : c.lfoCut.rates = b.lfoCut.rates
  lfoRes : c.lfoRes.rates = b.lfoRes.rates
  pan : c.pan.rates = b.pan.rates
  pmod : c.pmod.rates = b.pmod.rates
  harm : c.harm.map Osc.rates = b.harm.map Osc.rates

theorem SameRates.refl (b : Bank) : SameRates b b := ⟨rfl, rfl, rfl, rfl, rfl, rfl, rfl⟩

theorem SameRates.trans {b c d : Bank} (h : SameRates b c) (h' : SameRates c d) : SameRates b d :=
  ⟨h'.pulse.trans h.pulse, h'.carrier.trans h.carrier, h'.lfoCut.trans h.lfoCut, h'.lfoRes.trans h.lfoRes,
    h'.pan.trans h.pan, h'.pmod.trans h.pmod, h'.harm.trans h.harm⟩

theorem SameRates.harm_length {b c : Bank} (h : SameRates b c) : c.harm.length = b.harm.length := by
  simpa using congrArg List.length h.harm

/-- A harmonic of `c` has the rates of the one at its place in `b`. -/
theorem SameRates.harm_getElem? {b c : Bank} (h : SameRates b c) {j : Nat} {o : Osc} (ho : c.harm[j]? = some o) :
    ∃ o', b.harm[j]? = some o' ∧ o.rates = o'.rates := by
  have hj := congrArg (·[j]?) h.harm
  simp only [List.getElem?_map, ho, Option.map_some] at hj
  obtain ⟨o', ho', he⟩ := Option.map_eq_some_iff.1 hj.symm
  exact ⟨o', ho', he.symm⟩

/-- Only the harmonics change, each by a map that keeps its rates. -/
theorem SameRates.mapHarm {b : Bank} {f : Nat → Osc → Osc} (hf : ∀ i o, (f i o).rates = o.rates) :
    SameRates b { b with harm := b.harm.mapIdx f } := by
  have hharm : (b.harm.mapIdx f).map Osc.rates = b.harm.map Osc.rates := by
    apply List.ext_getElem?
    intro j
    cases hj : b.harm[j]? <;> simp [hj, hf]
  exact ⟨rfl, rfl, rfl, rfl, rfl, rfl, hharm⟩

/-- Replacing an oscillator by one of the same rates. -/
theorem SameRates.setOsc {s : State} {k : Nat} {o o' : Osc} (ho : osc? s k = some o) (he : o'.rates = o.rates) :
    SameRates s.bank (s.bank.setOsc k o') := by
  match k with
  | 0 | 1 | 2 | 3 | 4 | 5 =>
    obtain rfl := Option.some.inj ho
    constructor <;> simp [Bank.setOsc, he]
  | 6 | 7 => exact .refl _
  | k + 8 =>
    have hharm : s.bank.harm[k]? = some o := by
      simp only [osc?] at ho
      split at ho
      · exact ho
      · cases ho
    obtain ⟨hk, rfl⟩ := List.getElem?_eq_some_iff.1 hharm
    refine ⟨rfl, rfl, rfl, rfl, rfl, rfl, ?_⟩
    show (s.bank.harm.set k o').map Osc.rates = _
    rw [List.map_set, he, ← List.map_set, List.set_getElem_self]

/-! ### Running commands -/

/-- State `t` is configured as state `s` is: the build parameters, CFG, GAIN, RANGE, SYN_COUNT, the filter's bases,
PAN_THR and the oscillators' rates are the same. -/
structure Runs (s t : State) : Prop where
  params : t.params = s.params
  cfg : t.cfg = s.cfg
  gain : t.gain = s.gain
  range : t.range = s.range
  count : t.syn.count = s.syn.count
  fltRate : t.flt.sr = s.flt.sr
  baseCut : t.flt.baseCut = s.flt.baseCut
  baseRes : t.flt.baseRes = s.flt.baseRes
  thr : t.pan.thr = s.pan.thr
  bank : SameRates s.bank t.bank

theorem Runs.of_bank {s t : State} (hparams : t.params = s.params) (hcfg : t.cfg = s.cfg) (hgain : t.gain = s.gain)
    (hrange : t.range = s.range) (hcount : t.syn.count = s.syn.count) (hflt : t.flt = s.flt) (hpan : t.pan = s.pan)
    (hbank : SameRates s.bank t.bank) : Runs s t :=
  ⟨hparams, hcfg, hgain, hrange, hcount, hflt ▸ rfl, hflt ▸ rfl, hflt ▸ rfl, hpan ▸ rfl, hbank⟩

theorem Runs.refl (s : State) : Runs s s := .of_bank rfl rfl rfl rfl rfl rfl rfl (.refl _)

theorem Runs.trans {s t u : State} (h : Runs s t) (h' : Runs t u) : Runs s u :=
  ⟨h'.params.trans h.params, h'.cfg.trans h.cfg, h'.gain.trans h.gain, h'.range.trans h.range,
    h'.count.trans h.count, h'.fltRate.trans h.fltRate, h'.baseCut.trans h.baseCut, h'.baseRes.trans h.baseRes,
    h'.thr.trans h.thr, h.bank.trans h'.bank⟩

theorem runs_retune (note : Nat) (s : State) : Runs s (retune note s) :=
  .of_bank rfl rfl rfl rfl rfl rfl rfl (.mapHarm fun i o => by split <;> simp [Osc.rates])

theorem runs_synAdvance (s : State) : Runs s (synAdvance s) :=
  .of_bank rfl rfl rfl rfl rfl rfl rfl (.mapHarm fun i o => by split <;> rfl)

theorem runs_fltAdvance (x : F64) (s : State) : Runs s (fltAdvance x s) :=
  ⟨rfl, rfl, rfl, rfl, rfl, rfl, rfl, rfl, rfl, ⟨rfl, rfl, rfl, rfl, rfl, rfl, rfl⟩⟩

theorem runs_dlyAdvance (x : F64) (s : State) : Runs s (dlyAdvance x s) :=
  .of_bank rfl rfl rfl rfl rfl rfl rfl (.refl _)

theorem panAfter_rates (s : State) : (panAfter s).rates = s.bank.pan.rates := by
  unfold panAfter panSource
  cases s.params.panOrder <;> rfl

theorem runs_panAdvance (s : State) : Runs s (panAdvance s) :=
  ⟨rfl, rfl, rfl, rfl, rfl, rfl, rfl, rfl, rfl, ⟨rfl, rfl, rfl, rfl, panAfter_rates s, rfl, rfl⟩⟩

theorem runs_pulseAdvance (s : State) : Runs s (pulseAdvance s) :=
  .of_bank rfl rfl rfl rfl rfl rfl rfl ⟨rfl, rfl, rfl, rfl, rfl, rfl, rfl⟩

theorem runs_withPorts (s : State) (ports : Ports) : Runs s { s with ports := ports } :=
  .of_bank rfl rfl rfl rfl rfl rfl rfl (.refl _)

theorem runs_trigger (s : State) : Runs s (trigger s) := by
  rcases trigger_cases s with ⟨-, ht⟩ | ⟨-, ht⟩ <;> rw [ht]
  · exact (runs_pulseAdvance s).trans ((runs_withPorts _ _).trans (runs_retune _ _))
  · exact runs_pulseAdvance s

/-- The five stages, in the order of the sample step (R122). -/
theorem runs_sampleStep (s : State) : Runs s (sampleStep s).1 := by
  have hcount : ∀ (u : State) (n : BitVec 64), Runs u { u with samples := n } := fun u n =>
    .of_bank rfl rfl rfl rfl rfl rfl rfl (.refl _)
  exact (runs_trigger s).trans <| (runs_synAdvance _).trans <| (runs_fltAdvance (afterSyn s).2 _).trans <|
    (runs_dlyAdvance (afterFlt s).2 _).trans <| (runs_panAdvance _).trans (hcount _ _)

theorem runs_sampleSteps (n : Nat) (s : State) : Runs s (sampleSteps n s).1 :=
  sampleSteps_induct (P := Runs s) (fun _ h => h.trans (runs_sampleStep _)) n (.refl s)

theorem runs_setOsc {s : State} {k : Nat} {o o' : Osc} (ho : osc? s k = some o) (he : o'.rates = o.rates) :
    Runs s (withOsc k o' s) :=
  .of_bank rfl rfl rfl rfl rfl rfl rfl (.setOsc ho he)

/-! ### The fields of the invariant -/

/-- The invariant over the fields that a running command may write: the error record, the kinds, the delay line,
SYN_NOTE and the trigger. -/
theorem State.Inv.of_runs {s t : State} (hs : s.Inv) (h : Runs s t) (hrecord : t.record.Ok)
    (hkinds : t.bank.KindsFixed) (hdelay : DelayOk t) (hnote : t.syn.note.toNat < 128)
    (htrig : t.trig.prevValid = false → t.trig.prev = cZero) : t.Inv where
  maxHarm := h.params ▸ hs.maxHarm
  delayCapacity := h.params ▸ hs.delayCapacity
  record := hrecord
  bankSize := by rw [h.bank.harm_length, h.params, hs.bankSize]
  kinds := hkinds
  synCount := by rw [h.cfg, h.count, h.params]; exact hs.synCount
  synHarm := by
    intro j o hj ho
    obtain ⟨o', ho', he⟩ := h.bank.harm_getElem? ho
    exact (hs.synHarm j o' (h.count ▸ hj) ho').of_rates he
  synNote := hnote
  pulse := by
    intro hf
    have hfqv : t.bank.pulse.fqv = s.bank.pulse.fqv := congrArg (·.2.2) h.bank.pulse
    exact (hs.pulse (hfqv ▸ hf)).of_rates h.bank.pulse
  pulseRate := by
    have hsr : t.bank.pulse.sr = s.bank.pulse.sr := congrArg (·.1) h.bank.pulse
    have hsrv : t.bank.pulse.srv = s.bank.pulse.srv := congrArg (·.2.1) h.bank.pulse
    rw [hsr, hsrv]
    exact hs.pulseRate
  filter := by
    rw [h.cfg, h.fltRate, h.baseCut, h.baseRes]
    intro hflt
    obtain ⟨hcarrier, hcut, hres, hbases⟩ := hs.filter hflt
    exact ⟨hcarrier.of_rates h.bank.carrier, hcut.of_rates h.bank.lfoCut, hres.of_rates h.bank.lfoRes, hbases⟩
  delay := hdelay
  panner := by
    rw [h.cfg, h.thr]
    intro hpan
    obtain ⟨hosc, hmod, hthr⟩ := hs.panner hpan
    exact ⟨hosc.of_rates h.bank.pan, hmod.of_rates h.bank.pmod, hthr⟩
  gain := h.gain ▸ hs.gain
  range := h.range ▸ hs.range
  trig := htrig

/-! ### The effect of each configuration command -/

section

variable {s : State} (hs : s.Inv)

include hs

theorem State.Inv.after_oscSr {osc : Nat} {sr : F64} (hsr : badRate sr = false) : (effectOf (.oscSr osc sr) s).1.Inv :=
  { hs with
    kinds := { hs.kinds with }
    delay := hs.delay.congr rfl rfl rfl rfl rfl rfl
    pulse := fun hf => ⟨rfl, hf, hsr⟩
    pulseRate := fun _ => hsr }

theorem State.Inv.after_oscFreq {osc : Nat} {f : F64} (hsrv : s.bank.pulse.srv = true) :
    (effectOf (.oscFreq osc f) s).1.Inv :=
  { hs with
    kinds := { hs.kinds with }
    delay := hs.delay.congr rfl rfl rfl rfl rfl rfl
    pulse := fun _ => ⟨hsrv, rfl, hs.pulseRate hsrv⟩ }

/-- Every harmonic below the count is created anew, then tuned (R92). -/
theorem State.Inv.after_synSetup {count note : Nat} {sr : F64} (hnote : note < 128) (hsr : badRate sr = false)
    (hpos : 1 ≤ count) (hmax : count ≤ s.params.maxHarm) : (synSetupEffect count note sr s).Inv := by
  have hcount : (BitVec.ofNat 32 count).toNat = count := by
    have := hs.maxHarm
    rw [BitVec.toNat_ofNat, Nat.mod_eq_of_lt (by omega)]
  have hcount32 : count < 2 ^ 32 := hcount ▸ (BitVec.ofNat 32 count).isLt
  exact
    { hs with
      bankSize := by rw [synSetupEffect_harm_length, synSetupEffect_params, hs.bankSize]
      kinds := (keepsKinds_synSetup count note sr s).fixed hs.kinds
      synCount := by
        rw [synSetupEffect_cfg, if_pos rfl, synSetupEffect_syn, hcount]
        exact ⟨hpos, hmax⟩
      synHarm := by
        intro j o hj ho
        rw [synSetupEffect_syn, hcount] at hj
        have hlen : j < s.bank.harm.length := by
          rw [hs.bankSize]
          exact hj.trans_le hmax
        rw [synSetupEffect_getElem? note sr hcount32 (List.getElem?_eq_getElem hlen), if_pos hj] at ho
        obtain rfl := Option.some.inj ho
        exact ⟨tuneHarm_srv _ _ _, tuneHarm_fqv _ _ _, by rw [tuneHarm_sr]; exact hsr⟩
      synNote := by
        rw [synSetupEffect_syn, BitVec.toNat_ofNat]
        omega
      delay := hs.delay.congr rfl rfl rfl rfl rfl rfl }

theorem State.Inv.after_fltSetup {sr carrierF cutLfoF baseCut resLfoF baseRes : F64} (hsr : badRate sr = false)
    (hfin : finite baseRes = true) (hpos : fGt baseRes cZero = true) (hband : badBand sr baseCut = false) :
    (fltSetupEffect sr carrierF cutLfoF baseCut resLfoF baseRes s).Inv :=
  { hs with
    kinds := { hs.kinds with }
    filter := fun _ => ⟨⟨rfl, rfl, hsr⟩, ⟨rfl, rfl, hsr⟩, ⟨rfl, rfl, hsr⟩, hsr, hband, hfin, hpos⟩
    delay := hs.delay.congr rfl rfl rfl rfl rfl rfl }

theorem State.Inv.after_panSetup {sr panF modF thr : F64} (hsr : badRate sr = false) (hthr : outsideUnit thr = false) :
    (panSetupEffect sr panF modF thr s).Inv :=
  { hs with
    kinds := { hs.kinds with }
    delay := hs.delay.congr rfl rfl rfl rfl rfl rfl
    panner := fun _ => ⟨⟨rfl, rfl, hsr⟩, ⟨rfl, rfl, hsr⟩, hthr⟩ }

theorem State.Inv.after_panThr {v : F64} (hthr : outsideUnit v = false) : (effectOf (.panThr v) s).1.Inv :=
  { hs with
    delay := hs.delay.congr rfl rfl rfl rfl rfl rfl
    panner := fun hpan => ⟨(hs.panner hpan).1, (hs.panner hpan).2.1, hthr⟩ }

theorem State.Inv.after_mixGain {g : F64} (hg : finite g = true) : (effectOf (.mixGain g) s).1.Inv :=
  { hs with
    delay := hs.delay.congr rfl rfl rfl rfl rfl rfl
    gain := hg }

/-- RANGE reads back as it was packed (R30, R125). -/
theorem State.Inv.after_trgRange {lo hi : Nat} (hlo : lo < 2 ^ 7) (hhi : hi < 2 ^ 7) (hle : lo ≤ hi) :
    (effectOf (.trgRange lo hi) s).1.Inv :=
  { hs with
    delay := hs.delay.congr rfl rfl rfl rfl rfl rfl
    range := by
      have hrange : (effectOf (.trgRange lo hi) s).1.range = rangeWord lo hi := rfl
      rw [hrange, rangeLo_rangeWord hlo, rangeHi_rangeWord lo hhi]
      exact ⟨hle, rfl⟩ }

end

/-! ### Every step -/

/-- No register is a port. -/
theorem State.Inv.withPorts {s : State} (hs : s.Inv) (ports : Ports) : ({ s with ports := ports } : State).Inv :=
  { hs with delay := hs.delay.congr rfl rfl rfl rfl rfl rfl }

theorem ErrRecord.Ok.after {r : ErrRecord} (h : r.Ok) (c : Cause) (w : Word) : (r.after c w).Ok := by
  cases he : r.err
  case false =>
    rw [ErrRecord.after, he, if_neg Bool.false_ne_true]
    exact ⟨fun hf => (nomatch hf), fun _ => ⟨c, rfl⟩⟩
  case true =>
    rw [ErrRecord.after, if_pos he]
    exact ⟨fun hf => absurd (he.symm.trans hf) (by decide), fun _ => h.coded he⟩

/-- A rejection writes the error record and the ports only (R134). -/
theorem State.Inv.after_reject {s : State} (hs : s.Inv) (c : Cause) (w : Word) : (reject c w s).Inv :=
  { hs with
    record := hs.record.after c w
    delay := hs.delay.congr rfl rfl rfl rfl rfl rfl }

/-- The commands that set up a unit, and `reset`. -/
def configures : Instr → Bool
  | .reset | .oscSr _ _ | .oscFreq _ _ | .synSetup _ _ _ | .fltSetup _ _ _ _ _ _ | .dlySize _ | .dlyTime _ | .dlyFb _
  | .panSetup _ _ _ _ | .panThr _ | .mixGain _ | .trgRange _ _ => true
  | _ => false

/-- The first check of `osc.step` is that the oscillator is present (R85). -/
theorem osc?_of_oscStep_checks {k : Nat} {s : State} (hc : ∀ p ∈ checksOf (.oscStep k) s, p.1 = false) :
    ∃ o, osc? s k = some o := by
  have hp : (osc? s k).isNone = false := hc _ List.mem_cons_self
  exact Option.isSome_iff_exists.1 (Option.isNone_eq_false_iff.1 hp)

/-- The effect of every other command. -/
theorem runs_effectOf {i : Instr} {s : State} (hi : configures i = false) (hc : ∀ p ∈ checksOf i s, p.1 = false) :
    Runs s (effectOf i s).1 := by
  cases i with
  | reset | oscSr _ _ | oscFreq _ _ | synSetup _ _ _ | fltSetup _ _ _ _ _ _ | dlySize _ | dlyTime _ | dlyFb _
  | panSetup _ _ _ _ | panThr _ | mixGain _ | trgRange _ _ => exact absurd hi.symm Bool.false_ne_true
  | nop | regRd _ | bufRd _ => exact .refl s
  | clrErr => exact .of_bank rfl rfl rfl rfl rfl rfl rfl (.refl _)
  | oscPhase _ _ | oscKind _ _ => exact runs_setOsc (k := 0) rfl rfl
  | oscStep k =>
    obtain ⟨o, ho⟩ := osc?_of_oscStep_checks hc
    exact runs_setOsc ho (by rw [oscOr_of_present ho]; rfl)
  | synRetune note => exact runs_retune note s
  | synStep => exact runs_synAdvance s
  | fltStep x => exact runs_fltAdvance x s
  | dlyStep x => exact runs_dlyAdvance x s
  | panStep => exact runs_panAdvance s
  | process n => exact runs_sampleSteps n s

theorem effectOf_recordOk (i : Instr) {s : State} (h : s.record.Ok) : (effectOf i s).1.record.Ok := by
  by_cases hi : i = .clrErr ∨ i = .reset
  · rcases hi with rfl | rfl <;> exact ok_reset
  · rw [not_or] at hi
    rw [effectOf_record i s hi.1 hi.2]
    exact h

theorem trigger_note {s : State} (hrange : rangeLo s.range ≤ rangeHi s.range) (hnote : s.syn.note.toNat < 128) :
    (trigger s).syn.note.toNat < 128 := by
  rcases trigger_cases s with ⟨-, ht⟩ | ⟨-, ht⟩ <;> rw [ht]
  · show (BitVec.ofNat 32 (drawnNote s.range (randDraw s.ports).1)).toNat < 128
    have := drawnNote_lt hrange (randDraw s.ports).1
    rw [BitVec.toNat_ofNat]
    omega
  · exact hnote

/-- Every note drawn lies in RANGE (R39, R120). -/
theorem sampleSteps_note {s : State} (hrange : rangeLo s.range ≤ rangeHi s.range) (hnote : s.syn.note.toNat < 128)
    (n : Nat) : (sampleSteps n s).1.syn.note.toNat < 128 := by
  refine (sampleSteps_induct (P := fun t => t.range = s.range ∧ t.syn.note.toNat < 128) ?_ n ⟨rfl, hnote⟩).2
  rintro t ⟨hr, hn⟩
  refine ⟨(runs_sampleStep t).range.trans hr, ?_⟩
  have hsyn : (sampleStep t).1.syn = (trigger t).syn := by simp [sampleStep]
  rw [hsyn]
  exact trigger_note (hr ▸ hrange) hn

/-- A note in a command is 7 bits wide (R64), and one drawn is in RANGE. -/
theorem effectOf_note {i : Instr} {s : State} (hs : s.Inv) (hw : i.wellFormed = true) :
    (effectOf i s).1.syn.note.toNat < 128 := by
  have hword : ∀ note, fitsBits 7 note = true → (BitVec.ofNat 32 note).toNat < 128 := by
    intro note hfits
    have hlt : note < 2 ^ 7 := of_decide_eq_true hfits
    rw [BitVec.toNat_ofNat]
    omega
  cases i with
  | reset => exact (by decide : (0 : Word).toNat < 128)
  | synSetup count note sr => exact hword note (Bool.and_eq_true_iff.1 hw).2
  | synRetune note => exact hword note hw
  | process n => exact sampleSteps_note hs.range.1 hs.synNote n
  | _ => exact hs.synNote

/-- A sample step sets PREV_VALID (R120). -/
theorem effectOf_trigOk {i : Instr} {s : State} (h : s.trig.prevValid = false → s.trig.prev = cZero) :
    (effectOf i s).1.trig.prevValid = false → (effectOf i s).1.trig.prev = cZero := by
  cases i with
  | reset => exact fun _ => rfl
  | process n =>
    refine sampleSteps_induct (P := fun t => t.trig.prevValid = false → t.trig.prev = cZero) (fun t _ hf => ?_) n h
    have htrig : (sampleStep t).1.trig = (trigger t).trig := by simp [sampleStep]
    obtain ⟨-, -, -, -, -, -, -, -, -, -, -, -, hset⟩ := trigger_keeps t
    rw [htrig, hset] at hf
    exact nomatch hf
  | _ => exact h

/-- The effect of a decoded command whose checks pass keeps the invariant. -/
theorem inv_effectOf {i : Instr} {s : State} (hs : s.Inv) (hw : i.wellFormed = true)
    (hc : ∀ p ∈ checksOf i s, p.1 = false) : (effectOf i s).1.Inv := by
  have hdelay : DelayOk (effectOf i s).1 := delayOk_effectOf hs.delay hs.delayCapacity.2 hc
  cases i with
  | reset => exact inv_cleared s.ports hs.maxHarm hs.delayCapacity
  | oscSr osc sr =>
    obtain ⟨-, hsr⟩ : notPulse osc = false ∧ badRate sr = false := by simpa [checksOf] using hc
    exact hs.after_oscSr hsr
  | oscFreq osc f =>
    obtain ⟨-, hsrv, -⟩ : notPulse osc = false ∧ s.bank.pulse.srv = true ∧ finite f = true := by
      simpa [checksOf] using hc
    exact hs.after_oscFreq hsrv
  | synSetup count note sr =>
    obtain ⟨hsr, hpos, hmax⟩ : badRate sr = false ∧ 1 ≤ count ∧ count ≤ s.params.maxHarm := by
      simpa [checksOf, Nat.one_le_iff_ne_zero] using hc
    exact hs.after_synSetup (of_decide_eq_true (Bool.and_eq_true_iff.1 hw).2) hsr hpos hmax
  | fltSetup sr carrierF cutLfoF baseCut resLfoF baseRes =>
    obtain ⟨hsr, -, -, -, -, ⟨hfin, hpos⟩, hband⟩ : badRate sr = false ∧ finite carrierF = true ∧
        finite cutLfoF = true ∧ finite baseCut = true ∧ finite resLfoF = true ∧
        (finite baseRes = true ∧ fGt baseRes cZero = true) ∧ badBand sr baseCut = false := by
      simpa [checksOf] using hc
    exact hs.after_fltSetup hsr hfin hpos hband
  | dlySize _ | dlyTime _ | dlyFb _ => exact { hs with kinds := { hs.kinds with }, delay := hdelay }
  | panSetup sr panF modF thr =>
    obtain ⟨hsr, -, -, hthr⟩ : badRate sr = false ∧ finite panF = true ∧ finite modF = true ∧
        outsideUnit thr = false := by
      simpa [checksOf] using hc
    exact hs.after_panSetup hsr hthr
  | panThr v =>
    obtain ⟨-, hthr⟩ : s.cfg.pan = true ∧ outsideUnit v = false := by simpa [checksOf] using hc
    exact hs.after_panThr hthr
  | mixGain g => exact hs.after_mixGain (by simpa [checksOf] using hc)
  | trgRange lo hi =>
    obtain ⟨hlo, hhi⟩ := Bool.and_eq_true_iff.1 hw
    exact hs.after_trgRange (of_decide_eq_true hlo) (of_decide_eq_true hhi) (by simpa [checksOf] using hc)
  | _ =>
    exact hs.of_runs (runs_effectOf rfl hc) (effectOf_recordOk _ hs.record) (effectOf_kindsFixed hc hs.kinds) hdelay
      (effectOf_note hs hw) (effectOf_trigOk hs.trig)

theorem inv_exec {i : Instr} {s t : State} (hs : s.Inv) (hw : i.wellFormed = true) (h : exec i s = .next t) :
    t.Inv := by
  rcases exec_next h with ⟨c, rfl⟩ | ⟨-, hc, -, rfl⟩
  · exact hs.after_reject c _
  · exact (inv_effectOf hs hw hc).withPorts _

/-- Only a decoded command runs: its operands fit their places. -/
theorem inv_runWords {w : Word} {ops : List Word} {s t : State} (hs : s.Inv) (h : runWords exec w ops s = .next t) :
    t.Inv := by
  rcases runWords_next h with ⟨i, hd, he⟩ | rfl
  · exact inv_exec hs (EncodingRules.encodeOfDecode w ops i hd).1 he
  · exact hs.after_reject _ _

end Sys2Proof.Machine

/-! ### The obligation -/

namespace Sys2Proof.InvariantRules

open Sys2Proof.Machine

/-- Settles O55: the block waits, or leaves the reset state, or runs or rejects the words of one command. -/
theorem stepKeepsInv : Obligations.StepKeepsInv := by
  intro s t hs h
  by_cases hp : s.ports.pin = .released
  · cases hcmd : splitCommand s.ports.cmd with
    | none =>
      rw [step_of_split_none hp hcmd] at h
      exact Host.Outcome.next.inj h ▸ hs
    | some p =>
      obtain ⟨w, ops, rest⟩ := p
      rw [step_of_split_some hp hcmd] at h
      exact inv_runWords (hs.withPorts _) h
  · obtain ⟨ports, rfl⟩ := step_of_pin_asserted hp h
    exact inv_cleared ports hs.maxHarm hs.delayCapacity

end Sys2Proof.InvariantRules
end

section
/-! The obligation on SIN, EXP2 and TAN (92_eei_decisions.md D11, R87). EXP2 and TAN round a quotient of fixed-point
values once, so each law is a bound on the fixed-point evaluation before the rounding. -/

namespace Sys2Proof.Machine

theorem fGt_cZero_iff {x : F64} : fGt x cZero = true ↔ isNaN x = false ∧ 0 < signedUnits x := by
  refine ⟨fun h => ?_, fun ⟨hn, hpos⟩ => (fLt_iff (by decide) hn).2 (signedUnits_cZero ▸ hpos)⟩
  obtain ⟨-, hn, hlt⟩ := of_fLt h
  exact ⟨hn, signedUnits_cZero ▸ hlt⟩

/-- A value above 0 has no sign, and its units are its magnitude. -/
theorem signedUnits_eq_units_of_pos {x : F64} (h : 0 < signedUnits x) : isNeg x = false ∧ signedUnits x = units x := by
  unfold signedUnits at h ⊢
  cases hn : isNeg x
  case false => simp
  case true => rw [hn, if_pos rfl] at h; omega

/-- A rounding of a positive quotient is finite and above 0 when the quotient is at least 1 and not too large. -/
theorem roundF64_finite_and_pos {n d k : Nat} (hd : 0 < d) (hk : k < 2097) (hle : n ≤ 2 ^ k * d) (hge : d ≤ n) :
    finite (roundF64 false n d) = true ∧ fGt (roundF64 false n d) cZero = true := by
  refine ⟨roundF64_finite hd hk hle, fGt_cZero_iff.2 ⟨isNaN_roundF64 _ _ _, ?_⟩⟩
  rw [signedUnits_of_pos (isNeg_roundF64 _ _ _)]
  exact Int.ofNat_lt.2 (roundF64_pos hd hge)

/-! ### EXP2 -/

theorem ln2Fix_le : ln2Fix ≤ fixOne := by decide +kernel

/-- The argument of the exponential series is at most 1. -/
theorem exp2_arg_le {f : Nat} (hf : f < 2 ^ 1074) : ln2Fix * (f / 2 ^ (1074 - fixBits)) / fixOne ≤ fixOne := by
  have hfrac : f / 2 ^ (1074 - fixBits) ≤ fixOne :=
    (Nat.div_lt_of_lt_mul (hf.trans_eq (pow_sub_mul_pow 2 (by decide : fixBits ≤ 1074)).symm)).le
  exact Nat.div_le_of_le_mul (Nat.mul_le_mul ln2Fix_le hfrac)

/-- The whole exponential series is at most 4, its terms from the second on together at most 2. -/
theorem expSeries_one_le {u : Nat} (hu : u ≤ fixOne) (n : Nat) : expSeries u n 1 ≤ 2 * (2 * fixOne) := by
  cases n with
  | zero => unfold expSeries; omega
  | succ n =>
    have htail : u * expSeries u n (1 + 1) / (fixOne * 1) ≤ 2 * fixOne := by
      apply Nat.div_le_of_le_mul
      rw [Nat.mul_one]
      exact Nat.mul_le_mul hu (expSeries_le hu n 2 le_rfl)
    rw [expSeries]
    omega

/-- EXP2 of an argument with floor `n` in [−1075, 1023] is one rounding (R8). -/
theorem fExp2_eq {x : F64} {n : Int} (hx : isNaN x = false) (hn : signedUnits x / 2 ^ 1074 = n) (hlo : -1075 ≤ n)
    (hhi : n < 1024) :
    fExp2 x =
      roundF64 false
        (expSeries (ln2Fix * ((signedUnits x % 2 ^ 1074).toNat / 2 ^ (1074 - fixBits)) / fixOne) 96 1 *
          2 ^ (n + 1075).toNat) (2 * fixOne) := by
  rw [fExp2, if_neg (by rw [hx]; exact Bool.false_ne_true)]
  dsimp only
  rw [hn, if_neg (not_le.2 hhi), if_neg (not_lt.2 hlo)]

/-- The floor of a value of [−6, 5]. -/
theorem exp2_floor_bounds {x : F64} (h : between cNegSix cFive x = true) :
    -6 ≤ signedUnits x / 2 ^ 1074 ∧ signedUnits x / 2 ^ 1074 ≤ 5 := by
  obtain ⟨-, -, -, hlo, hhi⟩ := between_iff.1 h
  have hunit : (0 : Int) < 2 ^ 1074 := Int.pow_pos (by decide)
  have hsix : signedUnits cNegSix = -6 * 2 ^ 1074 := by decide +kernel
  have hfive : signedUnits cFive = 5 * 2 ^ 1074 := by decide +kernel
  have hdiv := Int.ediv_le_ediv hunit (hfive ▸ hhi)
  rw [Int.mul_ediv_cancel _ hunit.ne'] at hdiv
  exact ⟨Int.le_ediv_of_mul_le hunit (hsix ▸ hlo), hdiv⟩

/-- The fraction of a value, in units, is below 1. -/
theorem exp2_fraction_lt (x : F64) : (signedUnits x % 2 ^ 1074).toNat < 2 ^ 1074 := by
  have hunit : (0 : Int) < 2 ^ 1074 := Int.pow_pos (by decide)
  rw [Int.toNat_lt (Int.emod_nonneg _ hunit.ne'), cast_two_pow]
  exact Int.emod_lt_of_pos _ hunit

/-- EXP2 is positive and finite on [−6, 5] (D11). -/
theorem fExp2_finite_and_pos {x : F64} (h : between cNegSix cFive x = true) :
    finite (fExp2 x) = true ∧ fGt (fExp2 x) cZero = true := by
  obtain ⟨-, -, hx, -, -⟩ := between_iff.1 h
  obtain ⟨hlo, hhi⟩ := exp2_floor_bounds h
  have hu := exp2_arg_le (exp2_fraction_lt x)
  generalize hn : signedUnits x / 2 ^ 1074 = n at hlo hhi
  rw [fExp2_eq hx hn (by omega) (by omega)]
  generalize ln2Fix * ((signedUnits x % 2 ^ 1074).toNat / 2 ^ (1074 - fixBits)) / fixOne = u at hu
  have hscale : 2 ^ 1 ≤ 2 ^ (n + 1075).toNat := Nat.pow_le_pow_right two_pos (by omega)
  refine roundF64_finite_and_pos (k := 1080 + 1) (Nat.mul_pos two_pos fixOne_pos) (by decide) ?_ ?_
  · calc expSeries u 96 1 * 2 ^ (n + 1075).toNat
      _ ≤ 2 * (2 * fixOne) * 2 ^ 1080 :=
        Nat.mul_le_mul (expSeries_one_le hu 96) (Nat.pow_le_pow_right two_pos (by omega))
      _ = 2 ^ (1080 + 1) * (2 * fixOne) := by rw [pow_succ 2 1080, mul_assoc (2 ^ 1080), mul_comm]
  · calc 2 * fixOne
      _ = fixOne * 2 ^ 1 := by rw [pow_one, Nat.mul_comm]
      _ ≤ expSeries u 96 1 * 2 ^ (n + 1075).toNat := Nat.mul_le_mul (expSeries_ge u 96 1) hscale

/-! ### TAN -/

/-- PI/2 in binary64. -/
def cHalfPi : F64 := 0x3FF921FB54442D18#64

theorem fDiv_cPi_cTwo : fDiv cPi cTwo = cHalfPi := by decide +kernel

/-- Below PI/2 no quarter turn is taken off, for binary64's PI/2 is less than π/2; an angle that is not tiny leaves a
rest above the last fraction bit. -/
theorem reduceAngle_of_lt {m : Nat} (h : m < units cHalfPi) (ht : tinyAngle m = false) :
    ∃ r, reduceAngle m = (0, r) ∧ 3 ≤ r ∧ r ≤ 2 * fixOne := by
  have hpi : 2 ^ (redBits - 1074) * units cHalfPi < halfPiFix := by decide +kernel
  have hsmall : 3 * 2 ^ (redBits - fixBits) ≤ 2 ^ (redBits - 1074) * 2 ^ (1074 - 27) := by decide +kernel
  have hlarge : halfPiFix ≤ 2 ^ (redBits - fixBits) * (2 * fixOne) := by decide +kernel
  have hlt : 2 ^ (redBits - 1074) * m < halfPiFix := (Nat.mul_le_mul_left _ h.le).trans_lt hpi
  have hm : 2 ^ (1074 - 27) ≤ m := not_lt.1 (of_decide_eq_false ht)
  have hunit : 0 < 2 ^ (redBits - fixBits) := Nat.two_pow_pos _
  unfold reduceAngle
  generalize 2 ^ (redBits - 1074) = a at *
  generalize 2 ^ (redBits - fixBits) = b at *
  generalize 2 ^ (1074 - 27) = c at *
  refine ⟨a * m / b, ?_, ?_, ?_⟩
  · simp only [Nat.div_eq_of_lt hlt, Nat.mod_eq_of_lt hlt, Nat.zero_mod]
  · rw [Nat.le_div_iff_mul_le hunit]
    exact hsmall.trans (Nat.mul_le_mul_left _ hm)
  · exact Nat.div_le_of_le_mul (hlt.le.trans hlarge)

/-- What the sine series takes off 1, for an angle up to 2. -/
theorem sinSeries_term_le {a b one : Nat} (hone : 0 < one) (ha : a ≤ 4 * one) (hb : b ≤ one) :
    3 * (a * b / (one * (2 * 1 * (2 * 1 + 1)))) ≤ 2 * one := by
  refine Nat.le_of_mul_le_mul_left ?_ (Nat.mul_pos two_pos hone)
  calc 2 * one * (3 * (a * b / (one * (2 * 1 * (2 * 1 + 1)))))
    _ = a * b / (one * (2 * 1 * (2 * 1 + 1))) * (one * (2 * 1 * (2 * 1 + 1))) := by ring
    _ ≤ a * b := Nat.div_mul_le_self _ _
    _ ≤ 4 * one * one := Nat.mul_le_mul ha hb
    _ = 2 * one * (2 * one) := by ring

/-- For an angle up to 2 the sine series is at least a third. -/
theorem sinSeries_ge {r : Nat} (hr : r ≤ 2 * fixOne) (n : Nat) :
    fixOne ≤ 3 * sinSeries (r * r / fixOne) n 1 := by
  cases n with
  | zero => unfold sinSeries; omega
  | succ n =>
    have hsq : r * r / fixOne ≤ 4 * fixOne := by
      apply Nat.div_le_of_le_mul
      calc r * r ≤ 2 * fixOne * (2 * fixOne) := Nat.mul_le_mul hr hr
        _ = fixOne * (4 * fixOne) := by ring
    rw [sinSeries]
    generalize r * r / fixOne = r2 at *
    have hterm := sinSeries_term_le fixOne_pos hsq (sinSeries_le r2 n (1 + 1))
    omega

/-- Of an angle from 3 units of the last place up to 2 neither the sine nor the cosine vanishes in fixed point. -/
theorem sinCosFix_bounds {r : Nat} (h3 : 3 ≤ r) (hr : r ≤ 2 * fixOne) :
    1 ≤ (sinCosFix r).1 ∧ (sinCosFix r).1 ≤ fixOne ∧ 1 ≤ (sinCosFix r).2 ∧ (sinCosFix r).2 ≤ fixOne := by
  have hsin : 1 ≤ r * sinSeries (r * r / fixOne) 64 1 / fixOne := by
    rw [Nat.one_le_div_iff fixOne_pos]
    have hseries := sinSeries_ge hr 64
    generalize sinSeries (r * r / fixOne) 64 1 = y at *
    calc fixOne ≤ 3 * y := hseries
      _ ≤ r * y := Nat.mul_le_mul_right _ h3
  exact ⟨le_min hsin fixOne_pos, min_le_right _ _, le_max_left _ _, max_le fixOne_pos (min_le_right _ _)⟩

/-- Sine over cosine, rounded, is finite and above 0. -/
theorem sin_over_cos_finite_and_pos {r : Nat} (h3 : 3 ≤ r) (hr : r ≤ 2 * fixOne) :
    finite (roundF64 false (2 ^ 1074 * (sinCosFix r).1) (sinCosFix r).2) = true ∧
      fGt (roundF64 false (2 ^ 1074 * (sinCosFix r).1) (sinCosFix r).2) cZero = true := by
  obtain ⟨hs, hs1, hc, hc1⟩ := sinCosFix_bounds h3 hr
  refine roundF64_finite_and_pos (k := 1074 + fixBits) hc (by decide) ?_ ?_
  · calc 2 ^ 1074 * (sinCosFix r).1
      _ ≤ 2 ^ 1074 * fixOne := Nat.mul_le_mul_left _ hs1
      _ = 2 ^ (1074 + fixBits) * 1 := by simp only [pow_add, mul_one, fixOne]
      _ ≤ _ := Nat.mul_le_mul_left _ hc
  · calc (sinCosFix r).2
      _ ≤ fixOne := hc1
      _ ≤ 2 ^ 1074 := by rw [fixOne]; exact Nat.pow_le_pow_right two_pos (by decide)
      _ = 2 ^ 1074 * 1 := by rw [mul_one]
      _ ≤ _ := Nat.mul_le_mul_left _ hs

/-- TAN of an angle in the first quadrant, not tiny, is one rounding (R8). -/
theorem fTan_eq {x : F64} {r : Nat} (hx : finite x = true) (ht : tinyAngle (units x) = false)
    (hr : reduceAngle (units x) = (0, r)) :
    fTan x = roundF64 (isNeg x) (2 ^ 1074 * (sinCosFix r).1) (sinCosFix r).2 := by
  rw [fTan, if_neg (by simp [hx]), if_neg (by simp [ht])]
  dsimp only
  rw [hr]
  exact if_pos rfl

theorem fTan_of_tiny {x : F64} (hx : finite x = true) (ht : tinyAngle (units x) = true) : fTan x = x := by
  rw [fTan, if_neg (by simp [hx]), if_pos ht]

/-- TAN is positive and finite on (0, PI/2) (D11). -/
theorem fTan_finite_and_pos {x : F64} (hpos : fGt x cZero = true) (hlt : fLt x (fDiv cPi cTwo) = true) :
    finite (fTan x) = true ∧ fGt (fTan x) cZero = true := by
  rw [fDiv_cPi_cTwo] at hlt
  obtain ⟨hn, -, hlt⟩ := of_fLt hlt
  obtain ⟨-, hpos'⟩ := fGt_cZero_iff.1 hpos
  obtain ⟨hneg, hunits⟩ := signedUnits_eq_units_of_pos hpos'
  have hfin : finite x = true := finite_of_bounds (lo := cZero) (hi := cHalfPi) (by decide) (by decide) hn
    (signedUnits_cZero ▸ hpos'.le) hlt.le
  have hhalf : signedUnits cHalfPi = units cHalfPi := signedUnits_of_pos (by decide)
  rw [hunits, hhalf, Int.ofNat_lt] at hlt
  cases ht : tinyAngle (units x)
  case true =>
    rw [fTan_of_tiny hfin ht]
    exact ⟨hfin, hpos⟩
  case false =>
    obtain ⟨r, hr, hge, hle⟩ := reduceAngle_of_lt hlt ht
    rw [fTan_eq hfin ht hr, hneg]
    exact sin_over_cos_finite_and_pos hge hle

end Sys2Proof.Machine

/-! ### The obligation -/

namespace Sys2Proof.TranscendentalRules

open Sys2Proof.Machine

/-- Settles O54: each law is the bound of its fixed-point evaluation, and the four values are evaluated. -/
theorem transcendentalLaws : Obligations.TranscendentalLaws :=
  ⟨fun _ h => fSin_between h, fSin_of_tiny (by decide) (by decide +kernel), by decide +kernel,
    fun _ h => fExp2_finite_and_pos h, fun _ h h' => fTan_finite_and_pos h h', by decide +kernel⟩

end Sys2Proof.TranscendentalRules
end

section
/-! The obligations on frames (10_state.md, 43_delay.md, 45_pipeline.md): what each accepted command leaves unchanged.
One lemma, `readReg_frame`, says when two states give the same register at an address; each effect names in it the registers
its rule writes, and every other one is the same by unfolding. The sample step goes through the frames of its stages. -/

namespace Sys2Proof.Machine

/-! ### Fields of an oscillator (R36, R44) -/

theorem oscField_phase {f : Nat} (o : Osc) (p : F64) (hf : f ≠ 3) : oscField { o with phase := p } f = oscField o f :=
  oscField_congr (fun _ => rfl) (fun _ => rfl) (fun _ => rfl) (fun h => absurd h hf) (fun _ => rfl)
    (fun _ => ⟨rfl, rfl⟩)

theorem oscField_kind {f : Nat} (o : Osc) (k : WaveKind) (hf : f ≠ 4) :
    oscField { o with kind := k } f = oscField o f :=
  oscField_congr (fun _ => rfl) (fun _ => rfl) (fun _ => rfl) (fun _ => rfl) (fun h => absurd h hf)
    (fun _ => ⟨rfl, rfl⟩)

theorem oscField_advanced {f : Nat} (o : Osc) (hf : f ≠ 3) : oscField (advanced o) f = oscField o f :=
  oscField_phase o _ hf

theorem oscField_rated {f : Nat} (sr : F64) (o : Osc) (h0 : f ≠ 0) (h5 : f ≠ 5) :
    oscField (rated sr o) f = oscField o f :=
  oscField_congr (fun h => absurd h h0) (fun _ => rfl) (fun _ => rfl) (fun _ => rfl) (fun _ => rfl)
    (fun h => absurd h h5)

theorem oscField_tuned {f : Nat} (v : F64) (o : Osc) (h1 : f ≠ 1) (h2 : f ≠ 2) (h5 : f ≠ 5) :
    oscField (tuned v o) f = oscField o f :=
  oscField_congr (fun _ => rfl) (fun h => absurd h h1) (fun h => absurd h h2) (fun _ => rfl) (fun _ => rfl)
    (fun h => absurd h h5)

theorem oscField_tuneHarm {f : Nat} (f0 : F64) (j : Nat) (o : Osc) (h1 : f ≠ 1) (h2 : f ≠ 2) :
    oscField (tuneHarm f0 j o) f = oscField o f :=
  oscField_congr (fun _ => tuneHarm_sr f0 j o) (fun h => absurd h h1) (fun h => absurd h h2)
    (fun _ => tuneHarm_phase f0 j o) (fun _ => tuneHarm_kind f0 j o)
    (fun _ => ⟨tuneHarm_srv f0 j o, tuneHarm_fqv f0 j o⟩)

/-- A setup of an oscillator writes every field but KIND (R103, R116). -/
theorem oscField_started (sr f p : F64) (o : Osc) : oscField (started sr f p o) 4 = oscField o 4 := rfl

/-! ### Registers at one address -/

/-- Two states give the same register at address `a` when they agree on the register that `a` names. Each premise stands
for one address or one field, and holds by unfolding unless the states differ there. -/
theorem readReg_frame {s t : State} {a : Nat}
    (status : a = 0x0000 → statusReg t = statusReg s := by exact fun _ => rfl)
    (errcmd : a = 0x0001 → t.record.errcmd = s.record.errcmd := by exact fun _ => rfl)
    (cfg : a = 0x0002 → cfgReg t = cfgReg s := by exact fun _ => rfl)
    (samples : a = 0x0003 → t.samples = s.samples := by exact fun _ => rfl)
    (gain : a = 0x0004 → t.gain = s.gain := by exact fun _ => rfl)
    (range : a = 0x0005 → t.range = s.range := by exact fun _ => rfl)
    (trig : a = 0x0006 ∨ a = 0x0007 → t.trig = s.trig := by exact fun _ => rfl)
    (params : a = 0x0009 ∨ a = 0x000A → t.params = s.params := by exact fun _ => rfl)
    (synCount : a = 0x0010 → t.syn.count = s.syn.count := by exact fun _ => rfl)
    (synNote : a = 0x0011 → t.syn.note = s.syn.note := by exact fun _ => rfl)
    (fltBase : 0x0020 ≤ a → a ≤ 0x0022 →
      t.flt.sr = s.flt.sr ∧ t.flt.baseCut = s.flt.baseCut ∧ t.flt.baseRes = s.flt.baseRes := by
        exact fun _ _ => ⟨rfl, rfl, rfl⟩)
    (flt : 0x0023 ≤ a → a ≤ 0x002B → t.flt = s.flt := by exact fun _ _ => rfl)
    (dlySize : a = 0x0030 → t.dly.size = s.dly.size := by exact fun _ => rfl)
    (dlyWp : a = 0x0031 → t.dly.wp = s.dly.wp := by exact fun _ => rfl)
    (dlyRp : a = 0x0032 → t.dly.rp = s.dly.rp := by exact fun _ => rfl)
    (dlyTime : a = 0x0033 → t.dly.time = s.dly.time := by exact fun _ => rfl)
    (dlyFb : a = 0x0034 → t.dly.fb = s.dly.fb := by exact fun _ => rfl)
    (panThr : a = 0x0040 → t.pan.thr = s.pan.thr := by exact fun _ => rfl)
    (panGr : a = 0x0041 → t.pan.gr = s.pan.gr := by exact fun _ => rfl)
    (panGl : a = 0x0042 → t.pan.gl = s.pan.gl := by exact fun _ => rfl)
    (osc : ∀ k f, f < 16 → a = 0x1000 + 16 * k + f → a < 0x2000 →
      (osc? t k).bind (oscField · f) = (osc? s k).bind (oscField · f) := by
        exact fun _ _ _ _ _ => osc_bind_of_bank rfl rfl _ _) :
    readReg t a = readReg s a :=
  readReg_congr
    (fun _ => unitReg_congr status errcmd cfg samples gain range trig params synCount synNote fltBase flt dlySize dlyWp
      dlyRp dlyTime dlyFb panThr panGr panGl)
    (fun h1 h2 => osc _ _ (by omega) (by omega) h2)

/-- The same field of oscillator `k`, under the same convention. -/
theorem osc_bind_frame {s t : State} {k f : Nat}
    (count : t.syn.count = s.syn.count := by exact rfl)
    (pulse : k = 0 → oscField t.bank.pulse f = oscField s.bank.pulse f := by exact fun _ => rfl)
    (carrier : k = 1 → oscField t.bank.carrier f = oscField s.bank.carrier f := by exact fun _ => rfl)
    (lfoCut : k = 2 → oscField t.bank.lfoCut f = oscField s.bank.lfoCut f := by exact fun _ => rfl)
    (lfoRes : k = 3 → oscField t.bank.lfoRes f = oscField s.bank.lfoRes f := by exact fun _ => rfl)
    (pan : k = 4 → oscField t.bank.pan f = oscField s.bank.pan f := by exact fun _ => rfl)
    (pmod : k = 5 → oscField t.bank.pmod f = oscField s.bank.pmod f := by exact fun _ => rfl)
    (harm : ∀ j, k = j + 8 → j < s.syn.count.toNat →
      (t.bank.harm[j]?).bind (oscField · f) = (s.bank.harm[j]?).bind (oscField · f) := by exact fun _ _ _ => rfl) :
    (osc? t k).bind (oscField · f) = (osc? s k).bind (oscField · f) :=
  osc_bind_congr count pulse carrier lfoCut lfoRes pan pmod harm

/-! ### The frame of each effect -/

section

variable {s : State} {a : Nat}

/-- Of a harmonic a tuning writes FREQ and DELTA only (R88). -/
theorem harm_tune_field {count : Nat} {f0 : F64} {l : List Osc} {j f : Nat} (h1 : f ≠ 1) (h2 : f ≠ 2) :
    ((tune count f0 l)[j]?).bind (oscField · f) = (l[j]?).bind (oscField · f) := by
  refine mapIdx_field fun o => ?_
  split
  · exact oscField_tuneHarm f0 j o h1 h2
  · rfl

/-- Of a harmonic an advance writes PHASE only (R89). -/
theorem harm_advance_field {count : Nat} {l : List Osc} {j f : Nat} (h3 : f ≠ 3) :
    ((advanceHarm count l)[j]?).bind (oscField · f) = (l[j]?).bind (oscField · f) := by
  refine mapIdx_field fun o => ?_
  split
  · exact oscField_advanced o h3
  · rfl

theorem readReg_clearError (h : mayWrite .clrErr a = false) : readReg (clearError s) a = readReg s a := by
  obtain ⟨h0, h1⟩ : a ≠ 0x0000 ∧ a ≠ 0x0001 := by simpa [mayWrite] using h
  exact readReg_frame (status := by omega) (errcmd := by omega)

theorem readReg_oscSr {osc : Nat} {sr : F64} (h : mayWrite (.oscSr osc sr) a = false) :
    readReg (effectOf (.oscSr osc sr) s).1 a = readReg s a := by
  obtain ⟨h2, hsr, hflags⟩ : a ≠ 0x0002 ∧ a ≠ 0x1000 ∧ a ≠ 0x1005 := by simpa [mayWrite] using h
  exact readReg_frame (cfg := by omega)
    (osc := fun k f _ ha _ => osc_bind_frame (pulse := fun hk => oscField_rated sr _ (by omega) (by omega)))

theorem readReg_oscFreq {osc : Nat} {v : F64} (h : mayWrite (.oscFreq osc v) a = false) :
    readReg (effectOf (.oscFreq osc v) s).1 a = readReg s a := by
  obtain ⟨h0, h2, hfreq, hdelta, hflags⟩ : a ≠ 0x0000 ∧ a ≠ 0x0002 ∧ a ≠ 0x1001 ∧ a ≠ 0x1002 ∧ a ≠ 0x1005 := by
    simpa [mayWrite] using h
  exact readReg_frame (status := by omega) (cfg := by omega)
    (osc := fun k f _ ha _ => osc_bind_frame (pulse := fun hk => oscField_tuned v _ (by omega) (by omega) (by omega)))

theorem readReg_oscPhase {osc : Nat} {p : F64} (h : mayWrite (.oscPhase osc p) a = false) :
    readReg (effectOf (.oscPhase osc p) s).1 a = readReg s a := by
  have hphase : a ≠ 0x1003 := by simpa [mayWrite] using h
  exact readReg_frame
    (osc := fun k f _ ha _ => osc_bind_frame (pulse := fun hk => oscField_phase s.bank.pulse p (by omega)))

theorem readReg_oscKind {osc : Nat} {kind : WaveKind} (h : mayWrite (.oscKind osc kind) a = false) :
    readReg (effectOf (.oscKind osc kind) s).1 a = readReg s a := by
  have hkind : a ≠ 0x1004 := by simpa [mayWrite] using h
  exact readReg_frame
    (osc := fun k f _ ha _ => osc_bind_frame (pulse := fun hk => oscField_kind s.bank.pulse kind (by omega)))

/-- Any present oscillator is advanced, and the flags of oscillator 0 stay. -/
theorem readReg_oscStep {i : Nat} {o : Osc} (ho : osc? s i = some o) (h : mayWrite (.oscStep i) a = false) :
    readReg (withOsc i (advanced o) s) a = readReg s a := by
  have hphase : a ≠ 0x1000 + 16 * i + 3 := by simpa [mayWrite, oscAddr] using h
  have hrates := (SameRates.setOsc (o' := advanced o) ho rfl).pulse
  have hsrv : (s.bank.setOsc i (advanced o)).pulse.srv = s.bank.pulse.srv := congrArg (·.2.1) hrates
  have hfqv : (s.bank.setOsc i (advanced o)).pulse.fqv = s.bank.pulse.fqv := congrArg (·.2.2) hrates
  refine readReg_frame (status := fun _ => statusReg_congr rfl hfqv rfl) (cfg := fun _ => cfgReg_congr rfl hfqv hsrv)
    (osc := fun k f _ ha _ => ?_)
  by_cases hk : k = i
  · subst hk
    rw [(osc?_withOsc s k _ (by simp [ho])).1, ho]
    exact oscField_advanced o (by omega)
  · rw [osc?_withOsc_of_ne s _ hk]

theorem readReg_retune {note : Nat} (h : mayWrite (.synRetune note) a = false) :
    readReg (retune note s) a = readReg s a := by
  obtain ⟨hnote, hharm⟩ : a ≠ 0x0011 ∧ (isHarmAddr a = true → a % 16 ≠ 1 ∧ a % 16 ≠ 2) := by
    simpa [mayWrite, not_or] using h
  refine readReg_frame (synNote := by omega)
    (osc := fun k f hf ha hlt => osc_bind_frame (harm := fun j hj _ => ?_))
  obtain ⟨h1, h2⟩ := hharm (isHarmAddr_of (j := j) (by omega) (by omega) hlt)
  exact harm_tune_field (by omega) (by omega)

theorem readReg_synSetup {count note : Nat} {sr : F64} (h : mayWrite (.synSetup count note sr) a = false) :
    readReg (synSetupEffect count note sr s) a = readReg s a := by
  obtain ⟨⟨h0, h2, hcount, hnote⟩, hharm⟩ :
      (a ≠ 0x0000 ∧ a ≠ 0x0002 ∧ a ≠ 0x0010 ∧ a ≠ 0x0011) ∧ isHarmAddr a = false := by
    simpa [mayWrite] using h
  refine readReg_frame (status := by omega) (cfg := by omega) (synCount := by omega) (synNote := by omega)
    (osc := fun k f hf ha hlt => ?_)
  match k with
  | 0 | 1 | 2 | 3 | 4 | 5 | 6 | 7 => rfl
  | j + 8 => exact absurd (isHarmAddr_of (j := j) (by omega) (by omega) hlt) (by simp [hharm])

theorem readReg_synAdvance (h : mayWrite .synStep a = false) : readReg (synAdvance s) a = readReg s a := by
  have hharm : isHarmAddr a = true → a % 16 ≠ 3 := by simpa [mayWrite] using h
  refine readReg_frame (osc := fun k f hf ha hlt => osc_bind_frame (harm := fun j hj _ => ?_))
  have h3 := hharm (isHarmAddr_of (j := j) (by omega) (by omega) hlt)
  exact harm_advance_field (by omega)

theorem readReg_fltSetup {sr carrierF cutLfoF baseCut resLfoF baseRes : F64}
    (h : mayWrite (.fltSetup sr carrierF cutLfoF baseCut resLfoF baseRes) a = false) :
    readReg (fltSetupEffect sr carrierF cutLfoF baseCut resLfoF baseRes s) a = readReg s a := by
  obtain ⟨⟨⟨h0, h2⟩, hflt⟩, hosc⟩ : ((a ≠ 0x0000 ∧ a ≠ 0x0002) ∧ (0x0020 ≤ a → 0x002B < a)) ∧
      (isOscAddr 1 3 a = true → a % 16 = 4) := by
    simpa [mayWrite] using h
  refine readReg_frame (status := by omega) (cfg := by omega) (fltBase := by omega) (flt := by omega)
    (osc := fun k f hf ha _ => ?_)
  have hkind : 1 ≤ k → k ≤ 3 → f = 4 := fun hlo hhi => by
    have := hosc (isOscAddr_of (k := k) (by omega) (by omega) hlo hhi)
    omega
  exact osc_bind_frame
    (carrier := fun hk => by rw [hkind (by omega) (by omega)]; exact oscField_started _ _ _ _)
    (lfoCut := fun hk => by rw [hkind (by omega) (by omega)]; exact oscField_started _ _ _ _)
    (lfoRes := fun hk => by rw [hkind (by omega) (by omega)]; exact oscField_started _ _ _ _)

theorem readReg_fltAdvance {x : F64} (h : mayWrite (.fltStep x) a = false) :
    readReg (fltAdvance x s) a = readReg s a := by
  obtain ⟨hflt, hosc⟩ : (0x0023 ≤ a → 0x002B < a) ∧ (isOscAddr 1 3 a = true → a % 16 ≠ 3) := by
    simpa [mayWrite] using h
  refine readReg_frame (flt := by omega) (osc := fun k f hf ha _ => ?_)
  have hphase : 1 ≤ k → k ≤ 3 → f ≠ 3 := fun hlo hhi => by
    have := hosc (isOscAddr_of (k := k) (by omega) (by omega) hlo hhi)
    omega
  exact osc_bind_frame
    (carrier := fun hk => oscField_advanced _ (hphase (by omega) (by omega)))
    (lfoCut := fun hk => oscField_advanced _ (hphase (by omega) (by omega)))
    (lfoRes := fun hk => oscField_advanced _ (hphase (by omega) (by omega)))

theorem readReg_dlySize {n : Int} (h : mayWrite (.dlySize n) a = false) :
    readReg (dlySizeEffect n s) a = readReg s a := by
  obtain ⟨h0, h2, hsize, hwp, hrp, htime⟩ :
      a ≠ 0x0000 ∧ a ≠ 0x0002 ∧ a ≠ 0x0030 ∧ a ≠ 0x0031 ∧ a ≠ 0x0032 ∧ a ≠ 0x0033 := by
    simpa [mayWrite] using h
  exact readReg_frame (status := by omega) (cfg := by omega) (dlySize := by omega) (dlyWp := by omega)
    (dlyRp := by omega) (dlyTime := by omega)

theorem readReg_dlyTime {d : Int} (h : mayWrite (.dlyTime d) a = false) :
    readReg (dlyTimeEffect d s) a = readReg s a := by
  obtain ⟨h0, h2, hrp, htime⟩ : a ≠ 0x0000 ∧ a ≠ 0x0002 ∧ a ≠ 0x0032 ∧ a ≠ 0x0033 := by simpa [mayWrite] using h
  exact readReg_frame (status := by omega) (cfg := by omega) (dlyRp := by omega) (dlyTime := by omega)

theorem readReg_dlyFb {v : F64} (h : mayWrite (.dlyFb v) a = false) :
    readReg (effectOf (.dlyFb v) s).1 a = readReg s a := by
  obtain ⟨h0, h2, hfb⟩ : a ≠ 0x0000 ∧ a ≠ 0x0002 ∧ a ≠ 0x0034 := by simpa [mayWrite] using h
  exact readReg_frame (status := by omega) (cfg := by omega) (dlyFb := by omega)

theorem readReg_dlyAdvance {x : F64} (h : mayWrite (.dlyStep x) a = false) :
    readReg (dlyAdvance x s) a = readReg s a := by
  obtain ⟨hwp, hrp⟩ : a ≠ 0x0031 ∧ a ≠ 0x0032 := by simpa [mayWrite] using h
  exact readReg_frame (dlyWp := by omega) (dlyRp := by omega)

theorem readReg_panSetup {sr panF modF thr : F64} (h : mayWrite (.panSetup sr panF modF thr) a = false) :
    readReg (panSetupEffect sr panF modF thr s) a = readReg s a := by
  obtain ⟨⟨h0, h2, hthr, hgr, hgl⟩, hosc⟩ :
      (a ≠ 0x0000 ∧ a ≠ 0x0002 ∧ a ≠ 0x0040 ∧ a ≠ 0x0041 ∧ a ≠ 0x0042) ∧ (isOscAddr 4 5 a = true → a % 16 = 4) := by
    simpa [mayWrite] using h
  refine readReg_frame (status := by omega) (cfg := by omega) (panThr := by omega) (panGr := by omega)
    (panGl := by omega) (osc := fun k f hf ha _ => ?_)
  have hkind : 4 ≤ k → k ≤ 5 → f = 4 := fun hlo hhi => by
    have := hosc (isOscAddr_of (k := k) (by omega) (by omega) hlo hhi)
    omega
  exact osc_bind_frame
    (pan := fun hk => by rw [hkind (by omega) (by omega)]; exact oscField_started _ _ _ _)
    (pmod := fun hk => by rw [hkind (by omega) (by omega)]; exact oscField_started _ _ _ _)

theorem readReg_panThr {v : F64} (h : mayWrite (.panThr v) a = false) :
    readReg (effectOf (.panThr v) s).1 a = readReg s a := by
  have hthr : a ≠ 0x0040 := by simpa [mayWrite] using h
  exact readReg_frame (panThr := by omega)

/-- Under either order the panning oscillator differs in PHASE only (R113). -/
theorem oscField_panAfter {f : Nat} (h3 : f ≠ 3) : oscField (panAfter s) f = oscField s.bank.pan f := by
  cases ho : s.params.panOrder with
  | a => exact panAfter_of_a ho ▸ oscField_phase _ _ h3
  | b => exact panAfter_of_b ho ▸ oscField_phase _ _ h3

theorem readReg_panAdvance (h : mayWrite .panStep a = false) : readReg (panAdvance s) a = readReg s a := by
  obtain ⟨⟨hgr, hgl⟩, hosc⟩ : (a ≠ 0x0041 ∧ a ≠ 0x0042) ∧ (isOscAddr 4 5 a = true → a % 16 ≠ 3) := by
    simpa [mayWrite] using h
  refine readReg_frame (panGr := by omega) (panGl := by omega) (osc := fun k f hf ha _ => ?_)
  have hphase : 4 ≤ k → k ≤ 5 → f ≠ 3 := fun hlo hhi => by
    have := hosc (isOscAddr_of (k := k) (by omega) (by omega) hlo hhi)
    omega
  exact osc_bind_frame
    (pan := fun hk => oscField_panAfter (hphase (by omega) (by omega)))
    (pmod := fun hk => oscField_advanced _ (hphase (by omega) (by omega)))

theorem readReg_mixGain {g : F64} (h : mayWrite (.mixGain g) a = false) :
    readReg (effectOf (.mixGain g) s).1 a = readReg s a := by
  obtain ⟨h0, h2, hgain⟩ : a ≠ 0x0000 ∧ a ≠ 0x0002 ∧ a ≠ 0x0004 := by simpa [mayWrite] using h
  exact readReg_frame (status := by omega) (cfg := by omega) (gain := by omega)

theorem readReg_trgRange {lo hi : Nat} (h : mayWrite (.trgRange lo hi) a = false) :
    readReg (effectOf (.trgRange lo hi) s).1 a = readReg s a := by
  obtain ⟨h0, h2, hrange⟩ : a ≠ 0x0000 ∧ a ≠ 0x0002 ∧ a ≠ 0x0005 := by simpa [mayWrite] using h
  exact readReg_frame (status := by omega) (cfg := by omega) (range := by omega)

end

/-! ### The frame of the sample step (R122) -/

section

variable {n a : Nat} (h : mayWrite (.process n) a = false)

include h

/-- A sample step may write what each of its stages may, and the trigger's and the counter's registers besides. -/
theorem mayWrite_stages :
    (∀ note, mayWrite (.synRetune note) a = false) ∧ mayWrite .synStep a = false ∧
      (∀ x, mayWrite (.fltStep x) a = false) ∧ (∀ x, mayWrite (.dlyStep x) a = false) ∧ mayWrite .panStep a = false ∧
      a ≠ 0x0003 ∧ a ≠ 0x0006 ∧ a ≠ 0x0007 ∧ a ≠ 0x1003 := by
  grind [mayWrite, isOscAddr, oscAddr]

theorem readReg_pulseAdvance (s : State) : readReg (pulseAdvance s) a = readReg s a := by
  obtain ⟨-, -, -, -, -, -, h6, h7, hphase⟩ := mayWrite_stages h
  exact readReg_frame (trig := by omega)
    (osc := fun k f _ ha _ => osc_bind_frame (pulse := fun hk => oscField_advanced _ (by omega)))

theorem readReg_trigger (s : State) : readReg (trigger s) a = readReg s a := by
  obtain ⟨hretune, -⟩ := mayWrite_stages h
  rcases trigger_cases s with ⟨-, ht⟩ | ⟨-, ht⟩ <;> rw [ht]
  · rw [drawAndRetune, readReg_retune (hretune _), readReg_ports, readReg_pulseAdvance h]
  · exact readReg_pulseAdvance h s

theorem readReg_sampleStep (s : State) : readReg (sampleStep s).1 a = readReg s a := by
  obtain ⟨-, hsyn, hflt, hdly, hpan, hsamples, -⟩ := mayWrite_stages h
  calc readReg (sampleStep s).1 a
    _ = readReg (panAdvance (afterDly s).1) a := readReg_frame (samples := by omega)
    _ = readReg (afterDly s).1 a := readReg_panAdvance hpan
    _ = readReg (afterFlt s).1 a := readReg_dlyAdvance (hdly _)
    _ = readReg (afterSyn s).1 a := readReg_fltAdvance (hflt _)
    _ = readReg (trigger s) a := readReg_synAdvance hsyn
    _ = readReg s a := readReg_trigger h s

theorem readReg_sampleSteps (m : Nat) (s : State) : readReg (sampleSteps m s).1 a = readReg s a :=
  sampleSteps_induct (P := fun t => readReg t a = readReg s a) (fun t ht => (readReg_sampleStep h t).trans ht) m rfl

end

/-- A sample step takes nothing from the command port and leaves the pin. -/
theorem sampleSteps_cmd (n : Nat) (s : State) :
    (sampleSteps n s).1.ports.cmd = s.ports.cmd ∧ (sampleSteps n s).1.ports.pin = s.ports.pin := by
  refine sampleSteps_induct (P := fun t => t.ports.cmd = s.ports.cmd ∧ t.ports.pin = s.ports.pin) ?_ n ⟨rfl, rfl⟩
  rintro t ⟨hcmd, hpin⟩
  rw [(sampleStep_keeps t).1, trigger_ports]
  split
  · exact ⟨(randDraw_cmd _).trans hcmd, (randDraw_pin _).trans hpin⟩
  · exact ⟨hcmd, hpin⟩

/-- Each sample step stores one cell, at its DLY_WP (R106, R122). -/
theorem memRead_sampleSteps {n j : Nat} {s : State} (h : ¬ storedByProcess n s j) :
    memRead (sampleSteps n s).1.buf j = memRead s.buf j := by
  rw [← sampleRun_eq]
  induction n with
  | zero => rfl
  | succ n ih =>
    have hlast : j ≠ (sampleRun s n).dly.wp.toNat := fun hj => h ⟨n, Nat.lt_succ_self n, hj⟩
    have hbefore : ¬ storedByProcess n s j := fun ⟨m, hm, hj⟩ => h ⟨m, Nat.lt_succ_of_lt hm, hj⟩
    rw [sampleRun, sampleStep_buf, memRead_memWrite_other _ _ hlast, ih hbefore]

/-! ### The frame of every effect -/

/-- An effect changes only the registers `mayWrite` names. -/
theorem readReg_effectOf {i : Instr} {s : State} {a : Nat} (hc : ∀ p ∈ checksOf i s, p.1 = false)
    (h : mayWrite i a = false) : readReg (effectOf i s).1 a = readReg s a := by
  cases i with
  | nop | regRd _ | bufRd _ => rfl
  | reset => exact nomatch h
  | clrErr => exact readReg_clearError h
  | oscSr _ _ => exact readReg_oscSr h
  | oscFreq _ _ => exact readReg_oscFreq h
  | oscPhase _ _ => exact readReg_oscPhase h
  | oscKind _ _ => exact readReg_oscKind h
  | oscStep k =>
    obtain ⟨o, ho⟩ := osc?_of_oscStep_checks hc
    rw [effectOf, oscOr_of_present ho]
    exact readReg_oscStep ho h
  | synSetup _ _ _ => exact readReg_synSetup h
  | synRetune _ => exact readReg_retune h
  | synStep => exact readReg_synAdvance h
  | fltSetup _ _ _ _ _ _ => exact readReg_fltSetup h
  | fltStep _ => exact readReg_fltAdvance h
  | dlySize _ => exact readReg_dlySize h
  | dlyTime _ => exact readReg_dlyTime h
  | dlyFb _ => exact readReg_dlyFb h
  | dlyStep _ => exact readReg_dlyAdvance h
  | panSetup _ _ _ _ => exact readReg_panSetup h
  | panThr _ => exact readReg_panThr h
  | panStep => exact readReg_panAdvance h
  | mixGain _ => exact readReg_mixGain h
  | trgRange _ _ => exact readReg_trgRange h
  | process n => exact readReg_sampleSteps h n s

theorem effectOf_cfg (i : Instr) (s : State) : (effectOf i s).1.cfg = cfgAfter i s.cfg := by
  cases i with
  | process n => exact (runs_sampleSteps n s).cfg
  | _ => rfl

/-- Only `process` reaches a port: it draws. -/
theorem effectOf_ports {i : Instr} (s : State) (hp : ∀ n, i ≠ .process n) : (effectOf i s).1.ports = s.ports := by
  cases i with
  | process n => exact absurd rfl (hp n)
  | _ => rfl

theorem sameStreams_effectOf {i : Instr} (s : State) (w : Word) (data : List Word) (hp : ∀ n, i ≠ .process n) :
    SameStreams s (respondOk w data (effectOf i s).1) := by
  have hports := effectOf_ports s hp
  refine ⟨effectOf_params i s, ?_, ?_, ?_, ?_⟩ <;> rw [respondOk_ports, hports]

theorem keeps_effectOf {i : Instr} {s : State} (hc : ∀ p ∈ checksOf i s, p.1 = false) (hp : ∀ n, i ≠ .process n)
    (hclr : i ≠ .clrErr) (hr : i ≠ .reset) :
    Keeps i s (respondOk (commandWord i) (effectOf i s).2 (effectOf i s).1) where
  regs a ha := by rw [readReg_respondOk, readReg_effectOf hc ha]
  cfg := effectOf_cfg i s
  record := effectOf_record i s hclr hr
  streams := sameStreams_effectOf s _ _ hp

/-- Of the commands, only `reset` and those of the delay line reach the buffer (R48). -/
theorem effectOf_buf {i : Instr} (s : State) (hr : i ≠ .reset) (hsize : ∀ n, i ≠ .dlySize n)
    (hstep : ∀ x, i ≠ .dlyStep x) (hp : ∀ n, i ≠ .process n) : (effectOf i s).1.buf = s.buf := by
  cases i with
  | reset => exact absurd rfl hr
  | dlySize n => exact absurd rfl (hsize n)
  | dlyStep x => exact absurd rfl (hstep x)
  | process n => exact absurd rfl (hp n)
  | _ => rfl

end Sys2Proof.Machine

/-! ### The obligations -/

namespace Sys2Proof.FrameRules

open Sys2Proof.Machine

/-- Settles O58: no effect but those left out reaches the buffer or draws, and each keeps what `mayWrite` does not
name. -/
theorem frameRegisters : Obligations.FrameRegisters := by
  intro i s t h hreset hsize hstep hprocess
  rcases exec_next h with ⟨c, rfl⟩ | ⟨-, hc, -, rfl⟩
  · exact .inl ⟨c, rfl⟩
  · refine .inr ⟨fun j => ?_, fun a ha => ?_, effectOf_cfg i s, sameStreams_effectOf s _ _ hprocess, fun hclr => ?_⟩
    · rw [respondOk_buf, effectOf_buf s hreset hsize hstep hprocess]
    · rw [readReg_respondOk, readReg_effectOf hc ha]
    · rw [respondOk_record, effectOf_record i s hclr hreset]

/-- Settles O59: the one cell written is read back nowhere else. -/
theorem frameDelay : Obligations.FrameDelay := by
  intro i s t h hi
  rcases exec_next h with ⟨c, rfl⟩ | ⟨-, hc, -, rfl⟩
  · exact .inl ⟨c, rfl⟩
  · rcases hi with ⟨n, rfl⟩ | ⟨x, rfl⟩
    · exact .inr ⟨keeps_effectOf hc (by simp) (by simp) (by simp), fun ⟨_, hx⟩ => nomatch hx⟩
    · exact .inr ⟨keeps_effectOf hc (by simp) (by simp) (by simp), fun _ _ hj => memRead_memWrite_other _ _ hj⟩

/-- Settles O60: the sample steps one by one, each with the frame of its stages. -/
theorem frameProcess : Obligations.FrameProcess := by
  intro n s t h
  rcases exec_next h with ⟨c, rfl⟩ | ⟨-, hc, -, rfl⟩
  · exact .inl ⟨c, rfl⟩
  · obtain ⟨hcmd, hpin⟩ := sampleSteps_cmd n s
    exact .inr ⟨fun a ha => by rw [readReg_respondOk, readReg_effectOf hc ha], effectOf_cfg _ s,
      effectOf_record _ s (by simp) (by simp), effectOf_params _ s, hcmd, hpin, fun _ hj => memRead_sampleSteps hj⟩

end Sys2Proof.FrameRules
end
